-- ==== Sys2Proof/Word.lean ====
section
/-! DEFINITION. The words of the two-wire bus sequencer: 32-bit command words, host addresses and register values
(00_scope.md R8, R9), and bytes. -/

namespace Sys2Proof

/-- A 32-bit command word, operand, host address or peripheral register value (30_encoding.md R70, 20_memory.md R50, R55). -/
abbrev Word := BitVec 32

/-- A byte of host memory or of a data register (20_memory.md R51, 30_encoding.md R89). -/
abbrev Byte := BitVec 8

end Sys2Proof
end

