-- ==== Sys2Proof/Config.lean ====
section
/-! DEFINITION. What the spec leaves open (00_scope.md R8, 93_implementation_defined.md): the OPEN parameters and the free
value, as constants with no body, so that no proof can see a value of them. -/

namespace Sys2Proof.Config

/-- N_INST less one (00_scope.md R7, R8: "N_INST | OPEN"). DESIGN CHOICE, safe (entry 3): at least one block exists. -/
opaque moreInstances : Nat

/-- T_POLL less one (00_scope.md R8: "T_POLL | OPEN: positive integer"). The form makes T_POLL positive. -/
opaque tPollLessOne : Nat

/-- PERIPH_BASE of each peripheral (00_scope.md R8, 20_memory.md R50, R67: "the OPEN parameter PERIPH_BASE").
"the block addresses registers by offset only", so no meaning reads it. -/
opaque periphBase : BitVec 8 → Word

/-- FREE VALUE (entry 4), safe: the answer of the peripheral to the n-th register read for which State holds no answer
(20_memory.md R57: "The value a `PRd` returns is a draw: the model takes any 32-bit value"). -/
opaque freeWord : Nat → Word

end Sys2Proof.Config
end

