-- ==== Sys2Proof/Syntax.lean ====
section
/-! DEFINITION. The commands of the block: one constructor per row of spec/opcode_table.json (30_encoding.md R72, R73).
The pseudo-instructions of R92 are other spellings of these and stand in Machine/Assembler.lean. -/

namespace Sys2Proof

/-- Callback kinds (30_encoding.md R82, 10_state.md R35). -/
inductive CbKind where
  | writeComplete
  | readComplete
  | memoryWriteComplete
  | memoryReadComplete
  | notAcknowledged
  deriving DecidableEq, Repr

/-- A command (30_encoding.md R73). Operand names are those of R72 and R74. A term need not spell a command: see
`Instr.wellFormed`. -/
inductive Instr where
  /-- `INIT periph` (format N). -/
  | init (periph : BitVec 8)
  /-- `SETCB kind, inst, en, handler` (format C). -/
  | setcb (kind : CbKind) (inst en : Bool) (handler : Word)
  /-- `WRITE dev, buf, len` (format T). -/
  | write (dev : BitVec 7) (buf : Word) (len : BitVec 8)
  /-- `READ dev, buf, len` (format T). -/
  | read (dev : BitVec 7) (buf : Word) (len : BitVec 8)
  /-- `WRITEA dev, buf, len` (format T). -/
  | writea (dev : BitVec 7) (buf : Word) (len : BitVec 8)
  /-- `READA dev, buf, len` (format T). -/
  | reada (dev : BitVec 7) (buf : Word) (len : BitVec 8)
  /-- `MEMWRA dev, reg, width, buf, len` (format M); `rw` is the width in bytes. -/
  | memwra (dev : BitVec 7) (reg : Word) (rw : BitVec 3) (buf : Word) (len : BitVec 8)
  /-- `MEMRDA dev, reg, width, buf, len` (format M); `rw` is the width in bytes. -/
  | memrda (dev : BitVec 7) (reg : Word) (rw : BitVec 3) (buf : Word) (len : BitVec 8)
  /-- `EVENT` (format E). -/
  | event
  deriving DecidableEq, Repr

end Sys2Proof
end

