-- ==== Sys2Proof/WellFormed.lean ====
section
/-! DEFINITION. Which terms of `Instr` spell a command: the checks of 30_encoding.md R75 on operand values
(its points 3, 4 and 5). Points 1 and 2 are about words only and stand in Decode.lean. -/

namespace Sys2Proof

/-- R75 point 4: a payload length of 0 is reserved. -/
def lenOk (len : BitVec 8) : Bool := len != 0

/-- R75 point 5: an offset width outside 1..4 is reserved. -/
def widthOk (rw : BitVec 3) : Bool := 1 ≤ rw.toNat && rw.toNat ≤ 4

/-- R75 point 3: a removal (INST = 0) carries neither EN nor a handler. -/
def removalOk (inst en : Bool) (handler : Word) : Bool := inst || (!en && handler == 0)

/-- The operand values of a command (30_encoding.md R75). -/
def Instr.wellFormed : Instr → Bool
  | .init _ => true
  | .setcb _ inst en handler => removalOk inst en handler
  | .write _ _ len => lenOk len
  | .read _ _ len => lenOk len
  | .writea _ _ len => lenOk len
  | .reada _ _ len => lenOk len
  | .memwra _ _ rw _ len => widthOk rw && lenOk len
  | .memrda _ _ rw _ len => widthOk rw && lenOk len
  | .event => true

end Sys2Proof
end

