-- ==== Sys2Proof/Decode.lean ====
section
/-! DEFINITION. The decoder of command words and the encoder (30_encoding.md R70 to R76). The decoder is total on any list of
words and refuses by name. A command's words are delivered whole (R70), so the decoder takes 32-bit words, not bytes. -/

namespace Sys2Proof

/-- Why a list of words spells no command (30_encoding.md R70, R75). -/
inductive DecodeError where
  /-- fewer words than R76 asks for, or no word at all: "there is no partial command" (R70); DEDUCED (entry 8) -/
  | partialCommand
  /-- words left over after the command's own: R76 fixes the number of words -/
  | surplusWords
  /-- R75 point 1: OP in 0x9..0xF -/
  | reservedOpcode
  /-- R75 point 2: a bit named 0 is set -/
  | reservedBits
  /-- R75 point 3: KIND in 5..7 -/
  | reservedKind
  /-- R75 points 3, 4 and 5: a removal with EN or HANDLER set, LEN = 0, or RW outside 1..4 -/
  | reservedOperand
  deriving DecidableEq, Repr

/-- `CW0[3:0]` (30_encoding.md R71). -/
def opField (w : Word) : BitVec 4 := w.extractLsb' 0 4

/-- `PERIPH = CW0[11:4]` (R74). -/
def periphField (w : Word) : BitVec 8 := w.extractLsb' 4 8

/-- `KIND = CW0[6:4]` (R74). -/
def kindField (w : Word) : BitVec 3 := w.extractLsb' 4 3

/-- `EN = CW0[7]` (R74). -/
def enField (w : Word) : Bool := w.getLsbD 7

/-- `INST = CW0[8]` (R74). -/
def instField (w : Word) : Bool := w.getLsbD 8

/-- `DEV = CW0[10:4]` (R74). -/
def devField (w : Word) : BitVec 7 := w.extractLsb' 4 7

/-- `RW = CW0[13:11]` (R74). -/
def rwField (w : Word) : BitVec 3 := w.extractLsb' 11 3

/-- `LEN = CW0[21:14]` (R74). -/
def lenField (w : Word) : BitVec 8 := w.extractLsb' 14 8

/-- The bits of word 0 named 0 in R72, per opcode. -/
def reservedMask (op : BitVec 4) : Word :=
  match op.toNat with
  | 0 => 0xFFFFF000
  | 1 => 0xFFFFFE00
  | 2 => 0xFFC03800
  | 3 => 0xFFC03800
  | 4 => 0xFFC03800
  | 5 => 0xFFC03800
  | 6 => 0xFFC00000
  | 7 => 0xFFC00000
  | 8 => 0xFFFFFFF0
  | _ => 0

/-- R82: the callback kind of a KIND field; 5..7 are reserved. -/
def kindOfCode (k : BitVec 3) : Option CbKind :=
  match k.toNat with
  | 0 => some .writeComplete
  | 1 => some .readComplete
  | 2 => some .memoryWriteComplete
  | 3 => some .memoryReadComplete
  | 4 => some .notAcknowledged
  | _ => none

/-- R82: the KIND field of a callback kind. -/
def CbKind.code : CbKind → BitVec 3
  | .writeComplete => 0
  | .readComplete => 1
  | .memoryWriteComplete => 2
  | .memoryReadComplete => 3
  | .notAcknowledged => 4

/-- The number of words is a function of OP alone (30_encoding.md R76). -/
def commandLength (op : BitVec 4) : Nat :=
  match op.toNat with
  | 0 => 1
  | 1 => 2
  | 2 => 2
  | 3 => 2
  | 4 => 2
  | 5 => 2
  | 6 => 3
  | 7 => 3
  | _ => 1

/-- The fields of a command whose words are w0, w1, w2 (R73, R74); words its format lacks are not looked at. -/
def decodeFields (w0 w1 w2 : Word) : Except DecodeError Instr :=
  match (opField w0).toNat with
  | 0 => .ok (.init (periphField w0))
  | 1 =>
    match kindOfCode (kindField w0) with
    | some k => .ok (.setcb k (instField w0) (enField w0) w1)
    | none => .error .reservedKind
  | 2 => .ok (.write (devField w0) w1 (lenField w0))
  | 3 => .ok (.read (devField w0) w1 (lenField w0))
  | 4 => .ok (.writea (devField w0) w1 (lenField w0))
  | 5 => .ok (.reada (devField w0) w1 (lenField w0))
  | 6 => .ok (.memwra (devField w0) w2 (rwField w0) w1 (lenField w0))
  | 7 => .ok (.memrda (devField w0) w2 (rwField w0) w1 (lenField w0))
  | 8 => .ok .event
  | _ => .error .reservedOpcode

/-- R75 points 3 to 5 on the fields read. -/
def checkOperands (i : Instr) : Except DecodeError Instr :=
  if i.wellFormed then .ok i else .error .reservedOperand

/-- The words a command takes from the front of the list, the missing ones as 0 (R76). -/
def wordsOf : List Word → Word × Word × Word
  | [] => (0, 0, 0)
  | [a] => (a, 0, 0)
  | [a, b] => (a, b, 0)
  | a :: b :: c :: _ => (a, b, c)

/-- The decoder (30_encoding.md R73 to R76): the command at the front of the list, and the words after it. -/
def decode : List Word → Except DecodeError (Instr × List Word)
  | [] => .error .partialCommand
  | w0 :: t =>
    if (w0 &&& reservedMask (opField w0)) != 0 then .error .reservedBits
    else if (opField w0).toNat > 8 then .error .reservedOpcode
    else if (w0 :: t).length < commandLength (opField w0) then .error .partialCommand
    else
      match decodeFields w0 (wordsOf (w0 :: t)).2.1 (wordsOf (w0 :: t)).2.2 with
      | .error e => .error e
      | .ok i =>
        match checkOperands i with
        | .error e => .error e
        | .ok i => .ok (i, (w0 :: t).drop (commandLength (opField w0)))

/-- One command delivered whole (30_encoding.md R70: "A command is one to three 32-bit words delivered together"): exactly its
words and no more. -/
def decodeCommand (ws : List Word) : Except DecodeError Instr :=
  match decode ws with
  | .error e => .error e
  | .ok (i, []) => .ok i
  | .ok (_, _ :: _) => .error .surplusWords

/-- OP of a command (30_encoding.md R73). -/
def Instr.opcode : Instr → BitVec 4
  | .init _ => 0x0
  | .setcb _ _ _ _ => 0x1
  | .write _ _ _ => 0x2
  | .read _ _ _ => 0x3
  | .writea _ _ _ => 0x4
  | .reada _ _ _ => 0x5
  | .memwra _ _ _ _ _ => 0x6
  | .memrda _ _ _ _ _ => 0x7
  | .event => 0x8

/-- Word 0 of format T and M: {0, LEN, RW, DEV, OP} (30_encoding.md R72). -/
def transferWord (op : BitVec 4) (dev : BitVec 7) (rw : BitVec 3) (len : BitVec 8) : Word :=
  (0 : BitVec 10) ++ len ++ rw ++ dev ++ op

/-- The encoder (30_encoding.md R72): each operand in the field of its name, every bit named 0 zero. -/
def encode : Instr → List Word
  | .init periph => [(0 : BitVec 20) ++ periph ++ (0x0 : BitVec 4)]
  | .setcb kind inst en handler =>
    [(0 : BitVec 23) ++ BitVec.ofBool inst ++ BitVec.ofBool en ++ kind.code ++ (0x1 : BitVec 4), handler]
  | .write dev buf len => [transferWord 0x2 dev 0 len, buf]
  | .read dev buf len => [transferWord 0x3 dev 0 len, buf]
  | .writea dev buf len => [transferWord 0x4 dev 0 len, buf]
  | .reada dev buf len => [transferWord 0x5 dev 0 len, buf]
  | .memwra dev reg rw buf len => [transferWord 0x6 dev rw len, buf, reg]
  | .memrda dev reg rw buf len => [transferWord 0x7 dev rw len, buf, reg]
  | .event => [0x00000008]

/-- The words of an instruction whose bits are `w` in the opcode table's numbering, of which `nbits` are given and the rest are
0: word k is bits 32k+31 .. 32k, as many words as R76 gives the opcode. -/
def tableWords (nbits w : Nat) : List Word :=
  let v := w % 2 ^ nbits
  let w0 : Word := BitVec.ofNat 32 v
  [w0, BitVec.ofNat 32 (v / 2 ^ 32), BitVec.ofNat 32 (v / 2 ^ 64)].take (commandLength (opField w0))

/-- What the decoder reads from an instruction given in the opcode table's numbering. -/
def decodeTableWord (nbits w : Nat) : Option Instr :=
  match decodeCommand (tableWords nbits w) with
  | .ok i => some i
  | .error _ => none

end Sys2Proof
end

