-- ==== Sys2Proof/Machine/State.lean ====
section
/-! DEFINITION. The state of the machine as plain data: the handle of each block instance (10_state.md R20), the host memory
(20_memory.md R50 to R52), the peripheral register views (R55, R56), the answers and steps of the environment still to come,
and what the machine has put out. -/

namespace Sys2Proof.Machine

/-- State of a handle (10_state.md R21; 30_encoding.md R79). -/
inductive BusState where
  | ready
  | busyAddressingSubphase
  | busyTransmitting
  | busyReceiving
  deriving DecidableEq, Repr

/-- Operation of a handle (10_state.md R23; 30_encoding.md R80). -/
inductive Operation where
  | write
  | read
  | writeAsync
  | readAsync
  | memoryWrite
  | memoryRead
  deriving DecidableEq, Repr

/-- The Error field (10_state.md R31; 30_encoding.md R81). The value `busy` exists and no rule writes it (90_conflicts.md C1). -/
inductive ErrCode where
  | none
  | busy
  | timeout
  | notAcknowledged
  deriving DecidableEq, Repr

/-- The hidden stage of a blocking transfer (10_state.md R33; 30_encoding.md R83). -/
inductive BlkStage where
  | idle
  | byte
  | ending
  deriving DecidableEq, Repr

/-- Result codes (30_encoding.md R78). -/
inductive Result where
  | ok
  | busy
  | timeout
  | notAcknowledged
  deriving DecidableEq, Repr

/-- One entry of the callback registry (10_state.md R35). -/
structure CbEntry where
  installed : Bool
  enabled   : Bool
  handler   : Word
  deriving DecidableEq, Repr

/-- The callback registry (10_state.md R35): one entry for each kind of R82. -/
structure Registry where
  writeComplete       : CbEntry
  readComplete        : CbEntry
  memoryWriteComplete : CbEntry
  memoryReadComplete  : CbEntry
  notAcknowledged     : CbEntry
  deriving DecidableEq, Repr

/-- The Bus Handle of one block instance: exactly the fields of 10_state.md R20. -/
structure Handle where
  bound         : Bool
  periphRef     : BitVec 8
  state         : BusState
  previousState : BusState
  operation     : Operation
  devAddr       : BitVec 7
  regAddr       : Word
  regWidth      : BitVec 3
  bufBase       : Word
  len           : BitVec 8
  offsetCount   : BitVec 3
  dataCount     : BitVec 8
  error         : ErrCode
  blkStage      : BlkStage
  pollCount     : Nat
  cb            : Registry
  deriving DecidableEq, Repr

/-- A registry entry at power-on (70_reset_and_hazards.md R230: Installed = 0, Enabled = 0, Handler = 0). -/
def CbEntry.powerOn : CbEntry := { installed := false, enabled := false, handler := 0 }

/-- The handle at power-on (70_reset_and_hazards.md R230). -/
def Handle.powerOn : Handle where
  bound := false
  periphRef := 0
  state := .ready
  previousState := .ready
  operation := .write
  devAddr := 0
  regAddr := 0
  regWidth := 0
  bufBase := 0
  len := 0
  offsetCount := 0
  dataCount := 0
  error := .none
  blkStage := .idle
  pollCount := 0
  cb := ⟨.powerOn, .powerOn, .powerOn, .powerOn, .powerOn⟩

/-- The registers of the peripheral register view that the block uses (20_memory.md R55; 30_encoding.md R84). -/
inductive PReg where
  | cr1
  | cr2
  | isr
  | icr
  | rxdr
  | txdr
  deriving DecidableEq, Repr

/-- What the accesses so far left in the register view of one peripheral (20_memory.md R56): the last value written or answered,
less the flags the block has cleared. No read is answered from it: every answer is a draw (R57). -/
structure PeriphView where
  cr1  : Word
  cr2  : Word
  isr  : Word
  icr  : Word
  rxdr : Word
  txdr : Word
  deriving DecidableEq, Repr

/-- A register view nothing has accessed. PRESUMED, unsafe (entry 6): the reset values of the second-generation STM32 I2C peripheral,
the family of 30_encoding.md R84: ISR 0x00000001 (TXE set), the others 0. The informative sentence of 70_reset_and_hazards.md R232
agrees: "every flag the block reads resets to 0 and CR1 resets to 0". -/
def PeriphView.powerOn : PeriphView := { cr1 := 0, cr2 := 0, isr := 0x00000001, icr := 0, rxdr := 0, txdr := 0 }

/-- The agents that issue commands (00_scope.md R6). -/
inductive Agent where
  | foreground
  | interrupt
  | callback
  deriving DecidableEq, Repr

/-- The command interface (30_encoding.md R70): the instance the command being carried out was delivered to, and its issuer. -/
structure Port where
  inst  : Nat
  agent : Agent
  deriving DecidableEq, Repr

/-- What a callback body does (40_framing.md R108): host code that issues nested commands and touches host memory. -/
inductive BodyStep where
  /-- a nested command, its words delivered to an instance -/
  | command (inst : Nat) (words : List Word)
  /-- the body stores a byte to host memory -/
  | hostStore (addr : Word) (v : Byte)
  /-- the body frees a byte of host memory -/
  | hostRelease (addr : Word)
  /-- the body does not return (60_exceptions.md R219 point 3) -/
  | neverReturns
  deriving DecidableEq, Repr

/-- A callback body that has begun: the EVENT step it belongs to (its instance and issuer), and what is left of the body. Terminate
comes when nothing is left (44_dispatcher.md R172, R177). -/
structure BodyRun where
  port : Port
  body : List BodyStep
  deriving DecidableEq, Repr

/-- Callback bodies that wait, innermost first: each after the first runs the EVENT that began the one before it. They wait for the
blocking transfer of the instance `waits` (20_memory.md R60), or, where that is over, for their turn. -/
structure Waiting where
  waits : Option Nat
  runs  : List BodyRun
  deriving DecidableEq, Repr

/-- What the environment will answer: the values of successive reads of ISR, RXDR and CR1 (20_memory.md R57) and the callback
bodies of successive notifications (40_framing.md R108). -/
structure Script where
  isr    : List Word
  rxdr   : List Word
  cr1    : List Word
  bodies : List (List BodyStep)
  deriving DecidableEq, Repr

/-- One step of an agent, still to come (00_scope.md R6; 20_memory.md R60). -/
inductive Input where
  /-- the foreground delivers a command's words to an instance -/
  | foreground (inst : Nat) (words : List Word)
  /-- the interrupt context delivers a command's words (EVENT, or any command) to an instance -/
  | interrupt (inst : Nat) (words : List Word)
  /-- one BLKPOLL step of an instance (42_blocking.md R133) -/
  | poll (inst : Nat)
  /-- the turn of the callback bodies at place `k` of those that wait: a BLKPOLL step of the transfer they wait for, or they go on -/
  | callback (k : Nat)
  /-- the host allocates and stores a byte (20_memory.md R52, R61) -/
  | hostStore (addr : Word) (v : Byte)
  /-- the host frees a byte: an access to it is refused from then on (20_memory.md R52) -/
  | hostRelease (addr : Word)
  /-- power-on reset of one instance (70_reset_and_hazards.md R230) -/
  | powerOn (inst : Nat)
  deriving DecidableEq, Repr

/-- Why a command was refused (60_exceptions.md R203). -/
inductive RefuseReason where
  /-- a reserved encoding (30_encoding.md R75) -/
  | reservedEncoding
  /-- a transfer command while Bound = 0 (40_framing.md R111) -/
  | unbound
  /-- a buffer that wraps the host address space (40_framing.md R111) -/
  | bufferWraps
  /-- INIT during a blocking transfer (41_control.md R120) -/
  | initDuringBlocking
  /-- SETCB removal while State ≠ Ready (41_control.md R121) -/
  | removalInFlight
  /-- EVENT nested in a callback body of the same instance (60_exceptions.md R210) -/
  | nestedEvent
  deriving DecidableEq, Repr

/-- What the block does that another agent can see, in the order it does it (20_memory.md R61). -/
inductive TraceItem where
  /-- `PRd`: a register of a peripheral was read and answered `v` -/
  | regRead (periph : BitVec 8) (r : PReg) (v : Word)
  /-- `PWr`: `v` was written to a register of a peripheral -/
  | regWrite (periph : BitVec 8) (r : PReg) (v : Word)
  /-- `MemRead`: a host byte was read -/
  | memRead (addr : Word) (v : Byte)
  /-- `MemWrite`: a host byte was written -/
  | memWrite (addr : Word) (v : Byte)
  /-- a notification (40_framing.md R108) -/
  | notify (inst : Nat) (kind : CbKind) (handler : Word)
  /-- a result code returned to the issuer (30_encoding.md R78) -/
  | answer (inst : Nat) (r : Result)
  /-- a command given no meaning (60_exceptions.md R203) -/
  | refused (inst : Nat) (why : RefuseReason)
  deriving DecidableEq, Repr

/-- The OPEN parameters of 00_scope.md R8 that a rule reads. No step writes them. -/
structure Params where
  /-- N_INST, the number of block instances -/
  nInst : Nat
  /-- T_POLL, the number of consecutive status reads without progress that ends a blocking wait -/
  tPoll : Nat
  deriving DecidableEq, Repr

/-- The machine. INVENTORY.md, heading State, gives the rule and the reset value of every field. -/
structure State where
  /-- OPEN parameters (00_scope.md R8) -/
  params      : Params
  /-- the handle of each instance by its number; an instance not listed is at power-on -/
  handles     : List (Nat × Handle)
  /-- the register view of each peripheral by its id; one not listed has not been accessed -/
  views       : List (Nat × PeriphView)
  /-- host memory: the allocated bytes by address; an address not listed is refused (20_memory.md R52) -/
  hostMem     : List Host.Cell
  /-- the refusal mark (60_exceptions.md R203) -/
  refusalMark : Bool
  /-- the environment's answers still to come -/
  script      : Script
  /-- how many answers were free values (entry 4): the model's own -/
  draws       : Nat
  /-- the agents' steps still to come (entry 2) -/
  inbox       : List Input
  /-- the command interface: the model's own -/
  port        : Port
  /-- the callback bodies that run inside the step being taken, innermost first (60_exceptions.md R210): the model's own, empty
  between steps -/
  calls       : List BodyRun
  /-- the callback bodies that wait between steps for a blocking transfer they issued (20_memory.md R60) -/
  suspended   : List Waiting
  /-- the instance whose blocking transfer the foreground waits for (00_scope.md R6): the model's own -/
  fgCall      : Option Nat
  /-- what the block did, oldest first: the model's own (entry 12) -/
  trace       : List TraceItem
  deriving DecidableEq, Repr

/-- The machine right after power-on (70_reset_and_hazards.md R230): every instance at power-on, no command in progress, the
refusal mark clear, no access performed, no step and no answer of the environment placed. -/
def State.reset : State where
  params := { nInst := Config.moreInstances + 1, tPoll := Config.tPollLessOne + 1 }
  handles := []
  views := []
  hostMem := []
  refusalMark := false
  script := { isr := [], rxdr := [], cr1 := [], bodies := [] }
  draws := 0
  inbox := []
  port := { inst := 0, agent := .foreground }
  calls := []
  suspended := []
  fgCall := none
  trace := []

/-- How a step stops. Each is one of the hangs the spec says the model must admit, or a step that no agent can take. -/
inductive Fault where
  /-- Raised by EVENT and BLKPOLL (`memRead`, `memWrite`). "A refused access has no step: the agent performing it (the dispatcher
  step or the blocking poll step) is stuck, and the whole command step is not taken" (20_memory.md R52). Safe. -/
  | hostAccessStuck (addr : Word)
  /-- Raised by EVENT when the callback body it runs does not return (60_exceptions.md R219 point 3, 93_implementation_defined.md
  I20: "the dispatcher step does not complete"). Safe. -/
  | callbackNeverReturns
  /-- Raised when a step names an instance that N_INST does not reach (00_scope.md R7): no block is there to take it. DEDUCED, safe
  (entry 13). -/
  | noSuchInstance (inst : Nat)
  deriving DecidableEq, Repr

/-- What the model gives no meaning. The spec's own refusals (60_exceptions.md R203) are next states with the refusal mark. -/
inductive Refusal where
  /-- raised by an arm of exec whose instruction has no meaning yet; no arm of this model raises it. Safe. -/
  | notModelled (mnemonic : String)
  deriving DecidableEq, Repr

/-- The outcome of a step of this machine. -/
abbrev Out := Host.Outcome State Fault Refusal

end Sys2Proof.Machine
end

