-- ==== Sys2Proof/Machine/Flags.lean ====
section
/-! DEFINITION. The bits of the peripheral's registers that the block reads and writes, and the codes of the enumerations
(30_encoding.md R77 to R90). -/

namespace Sys2Proof.Machine

/-- Event predicate NACKEV (R90): not-acknowledged, `s[4]`. -/
def nackEv (s : Word) : Bool := s.getLsbD 4

/-- Event predicate RXEV (R90): receive-ready, `s[2]`. -/
def rxEv (s : Word) : Bool := s.getLsbD 2

/-- Event predicate TXEV (R90): transmit-ready, `s[1]`. -/
def txEv (s : Word) : Bool := s.getLsbD 1

/-- Event predicate CPEV (R90): transfer-complete, `s[5] | s[6] | s[7]` (STOPF, TC or TCR). -/
def cpEv (s : Word) : Bool := s.getLsbD 5 || s.getLsbD 6 || s.getLsbD 7

/-- Event predicate BUSYF (R90): peripheral busy, `s[15]`. -/
def busyF (s : Word) : Bool := s.getLsbD 15

/-- ISR flag masks (R86). -/
def maskTXIS : Word := 0x00000002
def maskRXNE : Word := 0x00000004
def maskNACKF : Word := 0x00000010
def maskSTOPF : Word := 0x00000020
def maskTC : Word := 0x00000040
def maskTCR : Word := 0x00000080

/-- Flag-clear words (R87): NACKCF, STOPCF and both. -/
def icrNACK : Word := 0x00000010
def icrSTOP : Word := 0x00000020
def icrBOTH : Word := 0x00000030

/-- The bits of ICR that clear the ISR flag of the same number (R86, R87): ADDRCF 3, NACKCF 4, STOPCF 5, BERRCF 8, ARLOCF 9, OVRCF 10,
PECCF 11, TIMOUTCF 12, ALERTCF 13. -/
def icrFlags : Word := 0x00003F38

/-- Interrupt-enable masks of CR1 (R88). -/
def ieTX : Word := 0x00000002
def ieRX : Word := 0x00000004
def ieNACK : Word := 0x00000010
def ieSTOP : Word := 0x00000020
def ieTC : Word := 0x00000040
def ieALL : Word := 0x00000076

/-- Offset of a register in the register view (R84). -/
def PReg.offset : PReg → Word
  | .cr1 => 0x00
  | .cr2 => 0x04
  | .isr => 0x18
  | .icr => 0x1C
  | .rxdr => 0x24
  | .txdr => 0x28

/-- The address of a register of a peripheral: its offset from PERIPH_BASE (00_scope.md R8, 20_memory.md R67). -/
def PReg.address (periph : BitVec 8) (r : PReg) : Word := Config.periphBase periph + r.offset

/-- R79. -/
def BusState.code : BusState → BitVec 2
  | .ready => 0
  | .busyAddressingSubphase => 1
  | .busyTransmitting => 2
  | .busyReceiving => 3

/-- R80. -/
def Operation.code : Operation → BitVec 3
  | .write => 0
  | .read => 1
  | .writeAsync => 2
  | .readAsync => 3
  | .memoryWrite => 4
  | .memoryRead => 5

/-- R81. -/
def ErrCode.code : ErrCode → BitVec 2
  | .none => 0
  | .busy => 1
  | .timeout => 2
  | .notAcknowledged => 3

/-- R83. -/
def BlkStage.code : BlkStage → BitVec 2
  | .idle => 0
  | .byte => 1
  | .ending => 2

/-- R78. -/
def Result.code : Result → BitVec 2
  | .ok => 0
  | .busy => 1
  | .timeout => 2
  | .notAcknowledged => 3

end Sys2Proof.Machine
end

