-- ==== Sys2Proof/Machine/Operands.lean ====
section
/-! DEFINITION. What a command computes from the handle and its operands: the framing encoder (40_framing.md R100, R101), the
offset bytes (R102), the payload address (20_memory.md R53), and the choices by operation (R104, R105, R107). -/

namespace Sys2Proof.Machine

/-- Bus-release mode of a phase (R100). -/
inductive FrameMode where
  | hold
  | autoEnd
  deriving DecidableEq, Repr

/-- The direction of a phase (R100): write is 0, read is 1. -/
inductive Dir where
  | write
  | read
  deriving DecidableEq, Repr

/-- RD_WRN of a direction (R85). -/
def Dir.bit : Dir → Word
  | .write => 0
  | .read => 1

/-- RELOAD of a mode (R100). -/
def FrameMode.reload : FrameMode → Word
  | .hold => 1
  | .autoEnd => 0

/-- AUTOEND of a mode (R100). -/
def FrameMode.autoend : FrameMode → Word
  | .hold => 0
  | .autoEnd => 1

/-- `Frame(dev, n, dir, mode)` (R100): the control word of one phase. -/
def frame (dev : BitVec 7) (n : BitVec 8) (dir : Dir) (mode : FrameMode) : Word :=
  (dev.zeroExtend 32 <<< 1) ||| (dir.bit <<< 10) ||| ((1 : Word) <<< 13) ||| (n.zeroExtend 32 <<< 16)
    ||| (mode.reload <<< 24) ||| (mode.autoend <<< 25)

/-- Async operations (00_scope.md R12, 44_dispatcher.md R171). -/
def Operation.isAsync : Operation → Bool
  | .write => false
  | .read => false
  | .writeAsync => true
  | .readAsync => true
  | .memoryWrite => true
  | .memoryRead => true

/-- Blocking operations (00_scope.md R12): those that are not async. -/
def Operation.isBlocking (op : Operation) : Bool := !op.isAsync

/-- Memory operations (00_scope.md R12). -/
def Operation.isMemory : Operation → Bool
  | .write => false
  | .read => false
  | .writeAsync => false
  | .readAsync => false
  | .memoryWrite => true
  | .memoryRead => true

/-- The direction of the payload of an operation (R101). -/
def Operation.dir : Operation → Dir
  | .write => .write
  | .read => .read
  | .writeAsync => .write
  | .readAsync => .read
  | .memoryWrite => .write
  | .memoryRead => .read

/-- `FirstFrame(op)` (R101): the single phase, or the addressing phase of a memory operation, which "always uses the *offset byte
count* and write direction". -/
def firstFrame (h : Handle) (op : Operation) : Word :=
  if op.isMemory then frame h.devAddr (h.regWidth.zeroExtend 8) .write .hold
  else frame h.devAddr h.len op.dir .autoEnd

/-- `DataFrame(op)` (R101): the data phase of a memory operation. -/
def dataFrame (h : Handle) (op : Operation) : Word := frame h.devAddr h.len op.dir .autoEnd

/-- `OffByte(k)` (R102): `(RegAddr >> (8 * (RegWidth - 1 - k)))[7:0]`. -/
def offByte (h : Handle) (k : Nat) : Byte := (h.regAddr >>> (8 * (h.regWidth.toNat - 1 - k))).setWidth 8

/-- The host address of the payload byte DataCount (20_memory.md R53): `BufBase + DataCount`. -/
def payloadAddr (h : Handle) : Word := h.bufBase + h.dataCount.zeroExtend 32

/-- A byte as the word a data register takes (30_encoding.md R89): bits [31:8] are 0. -/
def dataWord (v : Byte) : Word := v.zeroExtend 32

/-- The byte of a received data word (R89): bits [7:0]. -/
def dataByte (w : Word) : Byte := w.setWidth 8

/-- `InitState(op)` (R104). -/
def initState : Operation → BusState
  | .write => .busyTransmitting
  | .writeAsync => .busyTransmitting
  | .read => .busyReceiving
  | .readAsync => .busyReceiving
  | .memoryWrite => .busyAddressingSubphase
  | .memoryRead => .busyAddressingSubphase

/-- The state of the data phase of a memory operation (44_dispatcher.md R176). -/
def dataState : Operation → BusState
  | .memoryWrite => .busyTransmitting
  | _ => .busyReceiving

/-- The direction of the data phase as the dispatcher chooses it (44_dispatcher.md R176). -/
def dataDir : Operation → Dir
  | .memoryWrite => .write
  | _ => .read

/-- `IEMask(op)` (R105). "Blocking commands enable none." -/
def ieMask : Operation → Word
  | .write => 0
  | .read => 0
  | .writeAsync => ieNACK ||| ieTX ||| ieSTOP ||| ieTC
  | .readAsync => ieNACK ||| ieRX ||| ieSTOP ||| ieTC
  | .memoryWrite => ieNACK ||| ieTX ||| ieSTOP ||| ieTC
  | .memoryRead => ieNACK ||| ieTX ||| ieRX ||| ieSTOP ||| ieTC

/-- `CbKind(op)` (R107). "It is never evaluated for Write or Read". -/
def completionKind : Operation → Option CbKind
  | .write => none
  | .read => none
  | .writeAsync => some .writeComplete
  | .readAsync => some .readComplete
  | .memoryWrite => some .memoryWriteComplete
  | .memoryRead => some .memoryReadComplete

/-- `Rdy(op, s)` (42_blocking.md R133); for an operation that is not blocking, which no run meets here, as for Read (entry 15). -/
def readyFlag (op : Operation) (s : Word) : Bool :=
  match op with
  | .write => txEv s
  | _ => rxEv s

/-- The entry of a kind in the registry. -/
def Registry.get (r : Registry) : CbKind → CbEntry
  | .writeComplete => r.writeComplete
  | .readComplete => r.readComplete
  | .memoryWriteComplete => r.memoryWriteComplete
  | .memoryReadComplete => r.memoryReadComplete
  | .notAcknowledged => r.notAcknowledged

/-- The registry with the entry of a kind replaced. -/
def Registry.set (r : Registry) (k : CbKind) (e : CbEntry) : Registry :=
  match k with
  | .writeComplete => { r with writeComplete := e }
  | .readComplete => { r with readComplete := e }
  | .memoryWriteComplete => { r with memoryWriteComplete := e }
  | .memoryReadComplete => { r with memoryReadComplete := e }
  | .notAcknowledged => { r with notAcknowledged := e }

/-- R111: `BUF + LEN - 1 ≤ 0xFFFF_FFFF` computed without wrap. -/
def bufferFits (buf : Word) (len : BitVec 8) : Bool := buf.toNat + len.toNat - 1 ≤ 0xFFFFFFFF

/-- The register of a view. -/
def PeriphView.get (p : PeriphView) : PReg → Word
  | .cr1 => p.cr1
  | .cr2 => p.cr2
  | .isr => p.isr
  | .icr => p.icr
  | .rxdr => p.rxdr
  | .txdr => p.txdr

/-- The view with a register replaced. -/
def PeriphView.set (p : PeriphView) (r : PReg) (v : Word) : PeriphView :=
  match r with
  | .cr1 => { p with cr1 := v }
  | .cr2 => { p with cr2 := v }
  | .isr => { p with isr := v }
  | .icr => { p with icr := v }
  | .rxdr => { p with rxdr := v }
  | .txdr => { p with txdr := v }

/-- The ISR flags that a read of a register clears (20_memory.md R56): RXDR clears RXNE. -/
def clearedByRead : PReg → Word
  | .rxdr => maskRXNE
  | _ => 0

/-- The ISR flags that a write of a register clears (20_memory.md R56): TXDR clears TXIS, ICR the flags matching its set bits, CR2 with
START = 1 clears TC and TCR. -/
def clearedByWrite (r : PReg) (v : Word) : Word :=
  match r with
  | .txdr => maskTXIS
  | .icr => v &&& icrFlags
  | .cr2 => if v.getLsbD 13 then maskTC ||| maskTCR else 0
  | _ => 0

/-- The view after a read answered `v`. -/
def PeriphView.afterRead (p : PeriphView) (r : PReg) (v : Word) : PeriphView :=
  let q := p.set r v
  { q with isr := q.isr &&& ~~~(clearedByRead r) }

/-- The view after a write of `v`. -/
def PeriphView.afterWrite (p : PeriphView) (r : PReg) (v : Word) : PeriphView :=
  let q := p.set r v
  { q with isr := q.isr &&& ~~~(clearedByWrite r v) }

end Sys2Proof.Machine
end

