-- ==== Sys2Proof/Machine/Store.lean ====
section
/-! DEFINITION. Sparse data by number, as a list of pairs in one canonical form: numbers strictly rising, and no entry equal to
what an unlisted number reads as. Host memory, the handles and the register views are held so. -/

namespace Sys2Proof.Machine

/-- The entry of a number, if one is listed. -/
def Store.find {α : Type} : List (Nat × α) → Nat → Option α
  | [], _ => none
  | (k, v) :: t, a => if k = a then some v else Store.find t a

/-- List an entry, in rising order of numbers. -/
def Store.put {α : Type} : List (Nat × α) → Nat → α → List (Nat × α)
  | [], a, x => [(a, x)]
  | (k, v) :: t, a, x =>
    if a < k then (a, x) :: (k, v) :: t
    else if k = a then (a, x) :: t
    else (k, v) :: Store.put t a x

/-- Take an entry off the list. -/
def Store.erase {α : Type} (m : List (Nat × α)) (a : Nat) : List (Nat × α) := m.filter fun e => e.1 != a

/-- What a number reads as where an unlisted one reads as `d`. -/
def Store.getD {α : Type} (d : α) (m : List (Nat × α)) (a : Nat) : α := (Store.find m a).getD d

/-- Write where an unlisted number reads as `d`: writing `d` takes the entry off the list. -/
def Store.putD {α : Type} [DecidableEq α] (d : α) (m : List (Nat × α)) (a : Nat) (x : α) : List (Nat × α) :=
  if x = d then Store.erase m a else Store.put m a x

/-- The numbers are strictly rising. -/
abbrev Store.Rising {α : Type} (m : List (Nat × α)) : Prop := (m.map Prod.fst).Pairwise (· < ·)

/-- No entry equals what an unlisted number reads as. -/
abbrev Store.NoDefault {α : Type} (d : α) (m : List (Nat × α)) : Prop := ∀ e ∈ m, e.2 ≠ d

/-- What an unlisted host byte reads as: nothing, since it is not allocated (20_memory.md R52). DESIGN CHOICE, safe
(entry 5). -/
def Memory.unlisted : Option Byte := none

/-- The canonical form of host memory: addresses strictly rising, each inside the 32-bit address space (20_memory.md R51); every
entry is an allocated byte, so none equals `Memory.unlisted`. -/
abbrev Memory.wf (m : List Host.Cell) : Prop := Store.Rising m ∧ ∀ e ∈ m, e.1 < 2 ^ 32

/-- The host byte at an address, `none` where the host refuses the access (20_memory.md R52). -/
def Memory.byteAt (m : List Host.Cell) (a : Word) : Option Byte :=
  match Store.find m a.toNat with
  | some v => some v
  | none => Memory.unlisted

/-- Store a byte: it is allocated from then on. -/
def Memory.store (m : List Host.Cell) (a : Word) (v : Byte) : List Host.Cell := Store.put m a.toNat v

/-- Free a byte: it is refused from then on. -/
def Memory.release (m : List Host.Cell) (a : Word) : List Host.Cell := Store.erase m a.toNat

end Sys2Proof.Machine
end

