-- ==== Sys2Proof/Machine/Ops.lean ====
section
/-! DEFINITION. The named operations every meaning is written with: the primitives of 00_scope.md R10 over handles, registry,
peripheral registers and host memory, and the internal operations of 40_framing.md (SetState, EnableInts, DisableInts,
CheckIdle, the value checks, Arm, Terminate). The block has no exceptions (60_exceptions.md R200); what it has in their place is
the refusal of R203, one operation here. -/

namespace Sys2Proof.Machine

/-- Go on from a next state; a fault or a refusal stays. -/
def andThen (o : Out) (k : State → Out) : Out :=
  match o with
  | .next s => k s
  | .fault f => .fault f
  | .refused r => .refused r

/-! ## Handles -/

/-- The handle of an instance; at power-on where nothing has been written. -/
def State.handleAt (s : State) (n : Nat) : Handle := Store.getD Handle.powerOn s.handles n

/-- Write the handle of an instance. -/
def State.setHandleAt (s : State) (n : Nat) (h : Handle) : State :=
  { s with handles := Store.putD Handle.powerOn s.handles n h }

/-- The handle of the instance the command was delivered to: the `h` of the spec's pseudocode (00_scope.md R10). -/
def State.h (s : State) : Handle := s.handleAt s.port.inst

/-- Write that handle. -/
def State.modifyH (f : Handle → Handle) (s : State) : State := s.setHandleAt s.port.inst (f s.h)

/-- `SetState(s)` on a handle (40_framing.md R103). -/
def Handle.setState (st : BusState) (h : Handle) : Handle :=
  if st ≠ h.state then { h with previousState := h.state, state := st } else h

/-- `SetState(s)` (40_framing.md R103). -/
def State.setState (st : BusState) (s : State) : State := s.modifyH (Handle.setState st)

/-! ## What the machine puts out -/

/-- Put an item on the trace. -/
def State.log (x : TraceItem) (s : State) : State := { s with trace := s.trace ++ [x] }

/-- `return r` (00_scope.md R10): the result code goes to the issuer. -/
def State.answer (r : Result) (s : State) : State := s.log (.answer s.port.inst r)

/-- `refuse(reason)` (60_exceptions.md R203): "the block performs no access, writes no state, returns no result, and the model
sets a refusal mark that no later step clears". DEDUCED, safe (entry 1): the machine goes on. -/
def State.refuse (why : RefuseReason) (s : State) : State :=
  ({ s with refusalMark := true }).log (.refused s.port.inst why)

/-! ## The peripheral register view -/

/-- The answers still to come from a register; the registers the block never reads have none. -/
def Script.answers (c : Script) : PReg → List Word
  | .isr => c.isr
  | .rxdr => c.rxdr
  | .cr1 => c.cr1
  | .cr2 => []
  | .icr => []
  | .txdr => []

/-- The script with the next answer of a register taken. -/
def Script.dropAnswer (c : Script) : PReg → Script
  | .isr => { c with isr := c.isr.tail }
  | .rxdr => { c with rxdr := c.rxdr.tail }
  | .cr1 => { c with cr1 := c.cr1.tail }
  | .cr2 => c
  | .icr => c
  | .txdr => c

/-- What the next `PRd` of a register returns (20_memory.md R57): the environment's answer, or the free value where State holds
none (entry 4). -/
def State.nextAnswer (s : State) (r : PReg) : Word :=
  match s.script.answers r with
  | v :: _ => v
  | [] => Config.freeWord s.draws

/-- The free values taken by the next `PRd` of a register: none where State holds an answer. -/
def State.drawCost (s : State) (r : PReg) : Nat :=
  match s.script.answers r with
  | _ :: _ => 0
  | [] => 1

/-- The register view of a peripheral. -/
def State.viewAt (s : State) (p : BitVec 8) : PeriphView := Store.getD PeriphView.powerOn s.views p.toNat

/-- Write the register view of a peripheral. -/
def State.setViewAt (s : State) (p : BitVec 8) (v : PeriphView) : State :=
  { s with views := Store.putD PeriphView.powerOn s.views p.toNat v }

/-- The state after `PRd(off)` (00_scope.md R10, 20_memory.md R55, R56); its value is `nextAnswer`. -/
def State.afterPrd (r : PReg) (s : State) : State :=
  (({ s with script := s.script.dropAnswer r, draws := s.draws + s.drawCost r }).setViewAt s.h.periphRef
    ((s.viewAt s.h.periphRef).afterRead r (s.nextAnswer r))).log (.regRead s.h.periphRef r (s.nextAnswer r))

/-- `PWr(off, v)` (00_scope.md R10, 20_memory.md R55, R56). -/
def State.pwr (r : PReg) (v : Word) (s : State) : State :=
  (s.setViewAt s.h.periphRef ((s.viewAt s.h.periphRef).afterWrite r v)).log (.regWrite s.h.periphRef r v)

/-! ## Host memory -/

/-- `MemRead(addr, 1)` (20_memory.md R52), then the rest of the step with the byte read; a refused access is stuck. -/
def memRead (a : Word) (s : State) (k : Byte → State → Out) : Out :=
  match Memory.byteAt s.hostMem a with
  | some v => k v (s.log (.memRead a v))
  | none => .fault (.hostAccessStuck a)

/-- `MemWrite(addr, 1, v)` (20_memory.md R52); a refused access is stuck. -/
def memWrite (a : Word) (v : Byte) (s : State) : Out :=
  match Memory.byteAt s.hostMem a with
  | some _ => .next (({ s with hostMem := Memory.store s.hostMem a v }).log (.memWrite a v))
  | none => .fault (.hostAccessStuck a)

/-! ## Interrupt enables, checks, arming, termination (40_framing.md) -/

/-- `EnableInts(m)` (R105): one read and one write of CR1. -/
def State.enableInts (m : Word) (s : State) : State := (s.afterPrd .cr1).pwr .cr1 (s.nextAnswer .cr1 ||| m)

/-- `DisableInts(m)` (R105). -/
def State.disableInts (m : Word) (s : State) : State := (s.afterPrd .cr1).pwr .cr1 (s.nextAnswer .cr1 &&& ~~~m)

/-- `CheckIdle()` returns Busy (R109): State ≠ Ready, or the peripheral's busy flag in the status word it then reads. -/
def State.isBusy (s : State) : Bool := s.h.state != .ready || busyF (s.nextAnswer .isr)

/-- The state after `CheckIdle()` (R109): no access where State ≠ Ready, else one read of ISR. -/
def State.afterCheckIdle (s : State) : State := if s.h.state != .ready then s else s.afterPrd .isr

/-- The fields Arm records, in the handle (R104). -/
def Handle.armed (op : Operation) (dev : BitVec 7) (reg : Word) (w : BitVec 3) (buf : Word) (len : BitVec 8)
    (h : Handle) : Handle :=
  Handle.setState (initState op)
    { h with operation := op, devAddr := dev, regAddr := reg, regWidth := w, bufBase := buf, len := len,
             offsetCount := 0, dataCount := 0, error := .none }

/-- `Arm(op, dev, reg, w, buf, len)` (R104). -/
def State.arm (op : Operation) (dev : BitVec 7) (reg : Word) (w : BitVec 3) (buf : Word) (len : BitVec 8)
    (s : State) : State :=
  let s1 := s.modifyH (Handle.armed op dev reg w buf len)
  let s2 := s1.pwr .icr icrBOTH
  let s3 := if op.isAsync then s2.enableInts (ieMask op) else s2
  s3.pwr .cr2 (firstFrame s3.h op)

/-- `Terminate()` (R106): the end of an async transfer. -/
def State.terminate (s : State) : State := (s.disableInts ieALL).setState .ready

/-- The checks of a transfer command in the order of R110, then `start`: the encoding checks (R75), the value checks (R111),
CheckIdle (R109). A refused command performs no access. -/
def transfer (encodingOk : Bool) (buf : Word) (len : BitVec 8) (start : State → State) (s : State) : State :=
  if !encodingOk then s.refuse .reservedEncoding
  else if !s.h.bound then s.refuse .unbound
  else if !bufferFits buf len then s.refuse .bufferWraps
  else if s.isBusy then s.afterCheckIdle.answer .busy
  else start s.afterCheckIdle

/-! ## Callers of blocking transfers (00_scope.md R6) -/

/-- The foreground starts to wait for the blocking command it issued: "while a WRITE or READ it issued is in progress it issues
nothing else". How a callback body waits stands in Machine/Events.lean; the interrupt context may go on (60_exceptions.md R206, R208).
DESIGN CHOICE, safe (entry 18): the foreground goes on while a blocking transfer that another agent issued is in progress. -/
def State.noteCall (s : State) : State :=
  match s.port.agent with
  | .foreground => { s with fgCall := some s.port.inst }
  | .interrupt => s
  | .callback => s

/-- Callback bodies for which the blocking transfer of an instance has ended: they wait for their turn only. -/
def Waiting.ended (n : Nat) (w : Waiting) : Waiting := if w.waits = some n then { w with waits := none } else w

/-- The blocking call of an instance has returned: nobody waits for it any more. -/
def State.endCall (n : Nat) (s : State) : State :=
  { s with fgCall := if s.fgCall = some n then none else s.fgCall, suspended := s.suspended.map (Waiting.ended n) }

end Sys2Proof.Machine
end

