-- ==== Sys2Proof/Machine/Async.lean ====
section
/-! DEFINITION. The non-blocking transfers WRITEA, READA, MEMWRA and MEMRDA (43_async.md R150 to R154). -/

namespace Sys2Proof.Machine

/-- `AsyncStart(op, dev, reg, w, buf, len)` (43_async.md R150): arm and return Ok. -/
def State.asyncStart (op : Operation) (dev : BitVec 7) (reg : Word) (w : BitVec 3) (buf : Word) (len : BitVec 8)
    (s : State) : State :=
  (s.arm op dev reg w buf len).answer .ok

/-- WRITEA (43_async.md R151). -/
def execWritea (dev : BitVec 7) (buf : Word) (len : BitVec 8) (s : State) : Out :=
  .next (transfer (lenOk len) buf len (State.asyncStart .writeAsync dev 0 0 buf len) s)

/-- READA (43_async.md R152). -/
def execReada (dev : BitVec 7) (buf : Word) (len : BitVec 8) (s : State) : Out :=
  .next (transfer (lenOk len) buf len (State.asyncStart .readAsync dev 0 0 buf len) s)

/-- MEMWRA (43_async.md R153). -/
def execMemwra (dev : BitVec 7) (reg : Word) (rw : BitVec 3) (buf : Word) (len : BitVec 8) (s : State) : Out :=
  .next (transfer (widthOk rw && lenOk len) buf len (State.asyncStart .memoryWrite dev reg rw buf len) s)

/-- MEMRDA (43_async.md R154). -/
def execMemrda (dev : BitVec 7) (reg : Word) (rw : BitVec 3) (buf : Word) (len : BitVec 8) (s : State) : Out :=
  .next (transfer (widthOk rw && lenOk len) buf len (State.asyncStart .memoryRead dev reg rw buf len) s)

end Sys2Proof.Machine
end

