-- ==== Sys2Proof/Machine/Blocking.lean ====
section
/-! DEFINITION. The blocking transfers WRITE and READ and their poll step BLKPOLL (42_blocking.md R130 to R133). -/

namespace Sys2Proof.Machine

/-- BlkStage and PollCount at blocking arming (42_blocking.md R130). -/
def Handle.startPolling (h : Handle) : Handle := { h with blkStage := .byte, pollCount := 0 }

/-- `BlkStart(op, dev, buf, len)` (42_blocking.md R130): "no result yet: the command stays in progress until a BLKPOLL step
returns one". -/
def State.blkStart (op : Operation) (dev : BitVec 7) (buf : Word) (len : BitVec 8) (s : State) : State :=
  ((s.arm op dev 0 0 buf len).modifyH Handle.startPolling).noteCall

/-- WRITE (42_blocking.md R131). -/
def execWrite (dev : BitVec 7) (buf : Word) (len : BitVec 8) (s : State) : Out :=
  .next (transfer (lenOk len) buf len (State.blkStart .write dev buf len) s)

/-- READ (42_blocking.md R132). -/
def execRead (dev : BitVec 7) (buf : Word) (len : BitVec 8) (s : State) : Out :=
  .next (transfer (lenOk len) buf len (State.blkStart .read dev buf len) s)

/-- The fields `BlkEnd()` writes (42_blocking.md R133). -/
def Handle.endPolling (h : Handle) : Handle := { h.setState .ready with blkStage := .idle, pollCount := 0 }

/-- `BlkEnd(); return r` (42_blocking.md R133): the result is that of the WRITE or READ that armed the transfer. -/
def State.blkEnd (r : Result) (s : State) : State :=
  ((s.modifyH Handle.endPolling).endCall s.port.inst).answer r

/-- The Error field written at detection (10_state.md R31). -/
def Handle.withError (e : ErrCode) (h : Handle) : Handle := { h with error := e }

/-- One payload byte moved by a poll: DataCount, PollCount and, after the last byte, BlkStage (42_blocking.md R133). -/
def Handle.bytePolled (h : Handle) : Handle :=
  { h with dataCount := h.dataCount + 1, pollCount := 0,
           blkStage := if h.dataCount + 1 = h.len then .ending else h.blkStage }

/-- A poll without progress (42_blocking.md R133). -/
def Handle.pollMissed (h : Handle) : Handle := { h with pollCount := h.pollCount + 1 }

/-- The byte a poll moves (42_blocking.md R133): from host memory to TXDR for Write, from RXDR to host memory else. -/
def pollByte (s : State) : Out :=
  match s.h.operation with
  | .write => memRead (payloadAddr s.h) s fun v t => .next ((t.pwr .txdr (dataWord v)).modifyH Handle.bytePolled)
  | _ =>
    andThen (memWrite (payloadAddr s.h) (dataByte (s.nextAnswer .rxdr)) (s.afterPrd .rxdr)) fun t =>
      .next (t.modifyH Handle.bytePolled)

/-- BLKPOLL after the status word `v` was read, in the order of 42_blocking.md R133. -/
def pollOn (v : Word) (s : State) : Out :=
  if nackEv v then
    .next (((s.pwr .icr icrNACK).modifyH (Handle.withError .notAcknowledged)).blkEnd .notAcknowledged)
  else if s.h.blkStage = .byte ∧ readyFlag s.h.operation v = true then pollByte s
  else if s.h.blkStage = .ending ∧ cpEv v = true then .next ((s.pwr .icr icrSTOP).blkEnd .ok)
  else if s.h.pollCount + 1 = s.params.tPoll then
    .next ((s.modifyH (Handle.withError .timeout)).blkEnd .timeout)
  else .next (s.modifyH Handle.pollMissed)

/-- BLKPOLL (42_blocking.md R133) of the instance on the port. "It is enabled exactly when h.BlkStage ≠ Idle": where it is not,
no step is taken and nothing changes (DEDUCED, safe: entry 14). -/
def blkPoll (s : State) : Out :=
  if s.h.blkStage = .idle then .next s
  else pollOn (s.nextAnswer .isr) (s.afterPrd .isr)

end Sys2Proof.Machine
end

