-- ==== Sys2Proof/Machine/Configuration.lean ====
section
/-! DEFINITION. The configuration commands INIT and SETCB (41_control.md R120, R121). -/

namespace Sys2Proof.Machine

/-- The handle INIT leaves (41_control.md R120): every field at its idle value, the registry unchanged (90_conflicts.md C3). -/
def Handle.initialised (periph : BitVec 8) (h : Handle) : Handle :=
  { Handle.powerOn with bound := true, periphRef := periph, cb := h.cb }

/-- INIT (41_control.md R120). No peripheral access; refused only during a blocking transfer. -/
def execInit (periph : BitVec 8) (s : State) : Out :=
  if s.h.blkStage != .idle then .next (s.refuse .initDuringBlocking)
  else .next ((s.modifyH (Handle.initialised periph)).answer .ok)

/-- The registry entry SETCB writes (41_control.md R121). -/
def callbackEntry (inst en : Bool) (handler : Word) : CbEntry :=
  if inst then { installed := true, enabled := en, handler := handler } else CbEntry.powerOn

/-- The handle with the entry of one kind replaced. -/
def Handle.setCallback (kind : CbKind) (e : CbEntry) (h : Handle) : Handle := { h with cb := h.cb.set kind e }

/-- SETCB (41_control.md R121): writes cb[kind] only; a reserved encoding (30_encoding.md R75) and a removal while State ≠ Ready
are refused. -/
def execSetcb (kind : CbKind) (inst en : Bool) (handler : Word) (s : State) : Out :=
  if !removalOk inst en handler then .next (s.refuse .reservedEncoding)
  else if !inst && s.h.state != .ready then .next (s.refuse .removalInFlight)
  else .next ((s.modifyH (Handle.setCallback kind (callbackEntry inst en handler))).answer .ok)

end Sys2Proof.Machine
end

