-- ==== Sys2Proof/Machine/Events.lean ====
section
/-! DEFINITION. The interrupt event dispatcher EVENT (44_dispatcher.md R170 to R178), the notification of callbacks and the
nested commands a callback body issues (40_framing.md R108, 60_exceptions.md R210). A body that issues a blocking command waits for it
between steps (20_memory.md R60). -/

namespace Sys2Proof.Machine

/-- The branches of the dispatcher (44_dispatcher.md R170). -/
inductive Branch where
  | nack
  | rx
  | tx
  | cp
  deriving DecidableEq, Repr

/-- The branch the raised flags select (44_dispatcher.md R170): "not-acknowledged > receive-ready > transmit-ready >
transfer-complete", none where no flag is raised. -/
def selectBranch (v : Word) : Option Branch :=
  if nackEv v then some .nack
  else if rxEv v then some .rx
  else if txEv v then some .tx
  else if cpEv v then some .cp
  else none

/-- Applicability of a branch (44_dispatcher.md R171). -/
def applicable (h : Handle) : Branch → Bool
  | .nack => h.state != .ready && h.operation.isAsync
  | .rx => h.state == .busyReceiving && h.operation.isAsync && h.dataCount < h.len
  | .tx =>
    (h.state == .busyAddressingSubphase && h.offsetCount < h.regWidth)
      || (h.state == .busyTransmitting && h.operation.isAsync && h.dataCount < h.len)
  | .cp => h.state != .ready && h.operation.isAsync

/-- The branch an invocation takes: the one selected, if it is applicable; "no fall-through" (44_dispatcher.md R170). -/
def takenBranch (h : Handle) (v : Word) : Option Branch :=
  match selectBranch v with
  | none => none
  | some b => if applicable h b then some b else none

/-- DataCount one up. -/
def Handle.countData (h : Handle) : Handle := { h with dataCount := h.dataCount + 1 }

/-- OffsetCount one up. -/
def Handle.countOffset (h : Handle) : Handle := { h with offsetCount := h.offsetCount + 1 }

/-- RX branch (44_dispatcher.md R173), then Ok. -/
def rxBranch (s : State) : Out :=
  andThen (memWrite (payloadAddr s.h) (dataByte (s.nextAnswer .rxdr)) (s.afterPrd .rxdr)) fun t =>
    .next ((t.modifyH Handle.countData).answer .ok)

/-- TX branch in the addressing phase (44_dispatcher.md R174). -/
def txOffsetBranch (s : State) : State :=
  (s.pwr .txdr (dataWord (offByte s.h s.h.offsetCount.toNat))).modifyH Handle.countOffset

/-- TX branch in the data phase (44_dispatcher.md R175), then Ok. -/
def txDataBranch (s : State) : Out :=
  memRead (payloadAddr s.h) s fun v t => .next (((t.pwr .txdr (dataWord v)).modifyH Handle.countData).answer .ok)

/-- CP branch in the addressing phase (44_dispatcher.md R176). -/
def cpOffsetBranch (s : State) : State :=
  let op := s.h.operation
  ((s.pwr .icr icrSTOP).setState (dataState op)).pwr .cr2 (frame s.h.devAddr s.h.len (dataDir op) .autoEnd)

/-- The end of the NACK branch and of the CP branch in the data phase (44_dispatcher.md R172, R177): Terminate, then Ok. -/
def finishEvent (s : State) : State := s.terminate.answer .ok

/-- The callback body of the next notification; a body that no script gives issues no command (DESIGN
CHOICE: entry 9). -/
def Script.nextBody (c : Script) : List BodyStep :=
  match c.bodies with
  | b :: _ => b
  | [] => []

/-- The notification emitted and its callback body begun, innermost of those that run (40_framing.md R108). -/
def State.beginBody (k : CbKind) (s : State) : State :=
  { s.log (.notify s.port.inst k (s.h.cb.get k).handler) with
    script := { s.script with bodies := s.script.bodies.tail }, calls := { port := s.port, body := s.script.nextBody } :: s.calls }

/-- `Notify(k)` (40_framing.md R108) and what both its rules do next: where the kind is installed and enabled its body begins, and the
end of the branch comes when the body is done; else the end comes at once. -/
def notify (k : CbKind) (s : State) : State :=
  if (s.h.cb.get k).installed && (s.h.cb.get k).enabled then s.beginBody k else finishEvent s

/-- NACK branch (44_dispatcher.md R172). -/
def nackBranch (s : State) : State :=
  notify .notAcknowledged ((s.modifyH (Handle.withError .notAcknowledged)).pwr .icr icrNACK)

/-- CP branch in the data phase (44_dispatcher.md R177). -/
def cpDataBranch (s : State) : State :=
  match completionKind s.h.operation with
  | none => finishEvent (s.pwr .icr icrSTOP)
  | some k => notify k (s.pwr .icr icrSTOP)

/-- A branch of the dispatcher (44_dispatcher.md R170). -/
def runBranch (b : Branch) (s : State) : Out :=
  match b with
  | .nack => .next (nackBranch s)
  | .rx => rxBranch s
  | .tx => if s.h.state = .busyAddressingSubphase then .next ((txOffsetBranch s).answer .ok) else txDataBranch s
  | .cp => if s.h.state = .busyAddressingSubphase then .next ((cpOffsetBranch s).answer .ok) else .next (cpDataBranch s)

/-- EVENT once the status word `v` was read (44_dispatcher.md R170): one branch, or the no-op of R178. -/
def eventOn (v : Word) (s : State) : Out :=
  match takenBranch s.h v with
  | none => .next (s.answer .ok)
  | some b => runBranch b s

/-- A callback body of the instance `n` runs inside the step being taken. -/
def State.inBody (s : State) (n : Nat) : Bool := s.calls.any fun r => r.port.inst == n

/-- Whether a callback body of the instance `n` is among those that wait. -/
def Waiting.holds (n : Nat) (w : Waiting) : Bool := w.runs.any fun r => r.port.inst == n

/-- A callback body of the instance `n` waits: the EVENT step of the instance has begun and is not over. -/
def State.midEvent (s : State) (n : Nat) : Bool := s.suspended.any (Waiting.holds n)

/-- EVENT up to a callback body it begins (44_dispatcher.md R170): refused inside an EVENT of the same instance (60_exceptions.md
R210), Ok without an access while nothing is bound. -/
def eventStep (s : State) : Out :=
  if s.inBody s.port.inst || s.midEvent s.port.inst then .next (s.refuse .nestedEvent)
  else if !s.h.bound then .next (s.answer .ok)
  else eventOn (s.nextAnswer .isr) (s.afterPrd .isr)

/-! ## Callback bodies -/

/-- A command issued by a callback body (40_framing.md R108: "executed at that point as a nested atomic step against the state as it
stands"). -/
def nestedExec (i : Instr) (s : State) : Out :=
  match i with
  | .init p => execInit p s
  | .setcb k inst en h => execSetcb k inst en h s
  | .write d b l => execWrite d b l s
  | .read d b l => execRead d b l s
  | .writea d b l => execWritea d b l s
  | .reada d b l => execReada d b l s
  | .memwra d r w b l => execMemwra d r w b l s
  | .memrda d r w b l => execMemrda d r w b l s
  | .event => eventStep s

/-- The bodies that run leave the step and wait, for the blocking transfer of an instance or only for their turn. -/
def State.suspend (waits : Option Nat) (s : State) : State :=
  { s with calls := [], suspended := s.suspended ++ [{ waits := waits, runs := s.calls }] }

/-- After a nested command to the instance on the port: if it armed a blocking transfer, the bodies wait for its end
(42_blocking.md R130: "the command stays in progress until a BLKPOLL step returns one"; 20_memory.md R60). -/
def State.waitIfArmed (before : BlkStage) (s : State) : State :=
  if before = .idle ∧ s.h.blkStage ≠ .idle then s.suspend (some s.port.inst) else s

/-- One nested command, delivered to instance `n` by a callback body. -/
def bodyCommand (n : Nat) (ws : List Word) (s : State) : Out :=
  if n < s.params.nInst then
    let t := { s with port := { inst := n, agent := .callback } }
    match decodeCommand ws with
    | .error _ => .next (t.refuse .reservedEncoding)
    | .ok i => andThen (nestedExec i t) fun u => .next (u.waitIfArmed t.h.blkStage)
  else .fault (.noSuchInstance n)

/-- One step of a callback body. -/
def bodyStep (x : BodyStep) (s : State) : Out :=
  match x with
  | .command n ws => bodyCommand n ws s
  | .hostStore a v => .next { s with hostMem := Memory.store s.hostMem a v }
  | .hostRelease a => .next { s with hostMem := Memory.release s.hostMem a }
  | .neverReturns => .fault .callbackNeverReturns

/-- A nested command to an instance inside an EVENT step of which other callback bodies wait is not taken yet: "no other command of the
same instance and no EVENT runs inside it" (20_memory.md R60; entry 11). -/
def State.heldBack (s : State) : BodyStep → Bool
  | .command n _ => s.midEvent n
  | .hostStore _ _ => false
  | .hostRelease _ => false
  | .neverReturns => false

/-- A body is done: the EVENT it belongs to ends. -/
def closeEvent (p : Port) (rest : List BodyRun) (s : State) : State := finishEvent { s with port := p, calls := rest }

/-- The callback bodies that run, to their end or until they wait; `fuel` bounds the steps. -/
def runCalls : Nat → State → Out
  | 0, _ => .fault .callbackNeverReturns
  | fuel + 1, s =>
    match s.calls with
    | [] => .next s
    | r :: rest =>
      match r.body with
      | [] => runCalls fuel (closeEvent r.port rest s)
      | x :: left =>
        if s.heldBack x then .next (s.suspend none)
        else andThen (bodyStep x { s with calls := { r with body := left } :: rest }) (runCalls fuel)

/-- A bound on the steps of a body: two for each of its steps, and one for its end. -/
def bodyCost (b : List BodyStep) : Nat := 2 * b.length + 1

/-- A bound on the steps that the bodies that run and those still to come can take. -/
def State.callCost (s : State) : Nat := (s.calls.map fun r => bodyCost r.body).sum + (s.script.bodies.map bodyCost).sum

/-- The callback bodies that run, to their end or until they wait (40_framing.md R108). -/
def State.runCallbacks (s : State) : Out := runCalls (s.callCost + 1) s

/-- EVENT (44_dispatcher.md R170), with the callback body it begins. -/
def execEvent (s : State) : Out := andThen (eventStep s) State.runCallbacks

end Sys2Proof.Machine
end

