-- ==== Sys2Proof/Machine/Dispatch.lean ====
section
/-! DEFINITION. One arm per constructor of Instr, each one direct call of its meaning. -/

namespace Sys2Proof.Machine

def exec (i : Instr) (s : State) : Host.Outcome State Fault Refusal :=
  match i with
  | .init periph => Sys2Proof.Machine.execInit periph s
  | .setcb kind inst en handler => Sys2Proof.Machine.execSetcb kind inst en handler s
  | .write dev buf len => Sys2Proof.Machine.execWrite dev buf len s
  | .read dev buf len => Sys2Proof.Machine.execRead dev buf len s
  | .writea dev buf len => Sys2Proof.Machine.execWritea dev buf len s
  | .reada dev buf len => Sys2Proof.Machine.execReada dev buf len s
  | .memwra dev reg rw buf len => Sys2Proof.Machine.execMemwra dev reg rw buf len s
  | .memrda dev reg rw buf len => Sys2Proof.Machine.execMemrda dev reg rw buf len s
  | .event => Sys2Proof.Machine.execEvent s

end Sys2Proof.Machine
end

