-- ==== Sys2Proof/Machine/Deliver.lean ====
section
/-! DEFINITION. How the agents' steps reach the block (00_scope.md R6; 20_memory.md R60; 30_encoding.md R70): delivering a command,
BLKPOLL on behalf of a caller, the host's stores, power-on. Everything Step.lean does is here. -/

namespace Sys2Proof.Machine

/-- A command delivered to instance `n` (30_encoding.md R70): decoded, and carried out as one atomic step; words that spell no command
are refused (R75, 60_exceptions.md R203). -/
def deliver (agent : Agent) (n : Nat) (ws : List Word) (s : State) : Out :=
  if n < s.params.nInst then
    match decodeCommand ws with
    | .ok i => exec i { s with port := { inst := n, agent := agent } }
    | .error _ => .next (({ s with port := { inst := n, agent := agent } } : State).refuse .reservedEncoding)
  else .fault (.noSuchInstance n)

/-- One BLKPOLL step of instance `n`, "on behalf of the foreground" (42_blocking.md R133). -/
def pollInstance (n : Nat) (s : State) : Out :=
  if n < s.params.nInst then blkPoll { s with port := { inst := n, agent := .foreground } }
  else .fault (.noSuchInstance n)

/-- Callback bodies that wait, without those of an instance at power-on. DESIGN CHOICE, unsafe (entry 10): the bodies around a dropped one
keep waiting for the blocking transfer of another instance that the dropped one issued, and go on when it is over. -/
def Waiting.without (n : Nat) (w : Waiting) : Waiting := { w with runs := w.runs.filter fun r => r.port.inst != n }

/-- No EVENT of the instance is in progress any more. -/
def State.dropBodies (n : Nat) (s : State) : State :=
  { s with suspended := (s.suspended.map (Waiting.without n)).filter fun w => !w.runs.isEmpty }

/-- Power-on of instance `n` (70_reset_and_hazards.md R230): its fields at power-on, no command of it in progress; the refusal mark
stays, since "no later step clears" it (DESIGN CHOICE: entry 10). -/
def powerOnInstance (n : Nat) (s : State) : Out :=
  if n < s.params.nInst then .next (((s.setHandleAt n Handle.powerOn).endCall n).dropBodies n)
  else .fault (.noSuchInstance n)

/-- The turn of the callback bodies at place `k` of those that wait: one BLKPOLL step of the transfer they wait for, or, where it is
over, they go on. -/
def bodyTurn (k : Nat) (s : State) : Out :=
  match s.suspended[k]? with
  | none => .next s
  | some w =>
    match w.waits with
    | some m => pollInstance m s
    | none => State.runCallbacks { s with calls := w.runs, suspended := s.suspended.eraseIdx k }

/-- The place of the bodies that wait inside an EVENT step of instance `n`. -/
def State.bodyOf (s : State) (n : Nat) : Nat := s.suspended.findIdx (Waiting.holds n)

/-- The first instance with a blocking transfer in progress, if any: BLKPOLL "is enabled exactly when h.BlkStage ≠ Idle"
(42_blocking.md R133). -/
def State.pollable (s : State) : Option Nat := (s.handles.find? fun e => e.2.blkStage != .idle).map Prod.fst

/-- Nobody offers a step (DESIGN CHOICE: entry 2): callback bodies that wait take their turn, then a blocking transfer in progress is
polled; else "the block waits for a command" (70_reset_and_hazards.md R230). -/
def idleStep (s : State) : Out :=
  match s.suspended with
  | _ :: _ => bodyTurn 0 s
  | [] =>
    match s.pollable with
    | some n => pollInstance n s
    | none => .next s

/-- A command of an agent is first in the inbox. While an EVENT step of the instance has begun and is not over it is not taken
(20_memory.md R60: "no other command of the same instance and no EVENT runs inside it"): it stays in the inbox, and the bodies of that
EVENT take their turn. -/
def offer (agent : Agent) (n : Nat) (ws : List Word) (rest : List Input) (s : State) : Out :=
  if s.midEvent n then bodyTurn (s.bodyOf n) s else deliver agent n ws { s with inbox := rest }

/-- One step of the agent whose turn it is. A foreground that waits for a blocking transfer issues nothing else (00_scope.md R6): its
command stays in the inbox and the transfer is polled. The interrupt context steps at any boundary (60_exceptions.md R206). DESIGN CHOICE,
unsafe for a claim about such an EVENT only (entry 17): one that the foreground delivers is taken like any other command, where R212 and
R6 leave that open. -/
def takeInput (s : State) : Out :=
  match s.inbox with
  | [] => idleStep s
  | .foreground n ws :: rest =>
    match s.fgCall with
    | some m => pollInstance m s
    | none => offer .foreground n ws rest s
  | .interrupt n ws :: rest => offer .interrupt n ws rest s
  | .poll n :: rest => pollInstance n { s with inbox := rest }
  | .callback k :: rest => bodyTurn k { s with inbox := rest }
  | .hostStore a v :: rest => .next { s with inbox := rest, hostMem := Memory.store s.hostMem a v }
  | .hostRelease a :: rest => .next { s with inbox := rest, hostMem := Memory.release s.hostMem a }
  | .powerOn n :: rest => powerOnInstance n { s with inbox := rest }

/-- The agent that issues a command by itself: EVENT comes from the interrupt context (60_exceptions.md R204), the others from the
foreground (00_scope.md R6). -/
def issuerOf (ws : List Word) : Agent :=
  match ws with
  | [] => .foreground
  | w :: _ => if opField w = 8 then .interrupt else .foreground

/-- The machine with a command as the very next step: first in the inbox, for the instance on the port, from an agent that is not
waiting, and with no EVENT of that instance in progress. -/
def State.withCommand (s : State) (ws : List Word) : State :=
  let t := { s with suspended := s.suspended.filter fun w => !Waiting.holds s.port.inst w }
  match issuerOf ws with
  | .interrupt => { t with inbox := .interrupt s.port.inst ws :: s.inbox }
  | _ => { t with inbox := .foreground s.port.inst ws :: s.inbox, fgCall := none }

end Sys2Proof.Machine
end

