-- ==== Sys2Proof/Machine/Step.lean ====
section
/-! DEFINITION. One step of the machine, and how an instruction comes to be its next one. -/

namespace Sys2Proof.Machine

/-- One step of the machine: one atomic step of one agent (00_scope.md R6, 20_memory.md R60). -/
def step (s : State) : Host.Outcome State Fault Refusal := takeInput s

/-- `s` with the command whose bits are `w`, in the opcode table's numbering, as the next step (entry 2): it is the first entry of the
inbox, since the block fetches nothing (20_memory.md R64). -/
def State.withFetchWord (s : State) (nbits w : Nat) : State := s.withCommand (tableWords nbits w)

end Sys2Proof.Machine
end

