-- ==== Sys2Proof/Machine/ReadPort.lean ====
section
/-! DEFINITION. The host's read port (10_state.md R36): "The host may read every field at any time through a side-effect-free read
port". Enumerations read as their codes (30_encoding.md R79 to R83). -/

namespace Sys2Proof.Machine

/-- The fields of a handle (10_state.md R20). -/
inductive HandleField where
  | bound
  | periphRef
  | state
  | previousState
  | operation
  | devAddr
  | regAddr
  | regWidth
  | bufBase
  | len
  | offsetCount
  | dataCount
  | error
  | blkStage
  | pollCount
  | cbInstalled (k : CbKind)
  | cbEnabled (k : CbKind)
  | cbHandler (k : CbKind)
  deriving DecidableEq, Repr

/-- The value of a field as the host reads it. -/
def Handle.readPort (h : Handle) : HandleField → Nat
  | .bound => h.bound.toNat
  | .periphRef => h.periphRef.toNat
  | .state => h.state.code.toNat
  | .previousState => h.previousState.code.toNat
  | .operation => h.operation.code.toNat
  | .devAddr => h.devAddr.toNat
  | .regAddr => h.regAddr.toNat
  | .regWidth => h.regWidth.toNat
  | .bufBase => h.bufBase.toNat
  | .len => h.len.toNat
  | .offsetCount => h.offsetCount.toNat
  | .dataCount => h.dataCount.toNat
  | .error => h.error.code.toNat
  | .blkStage => h.blkStage.code.toNat
  | .pollCount => h.pollCount
  | .cbInstalled k => (h.cb.get k).installed.toNat
  | .cbEnabled k => (h.cb.get k).enabled.toNat
  | .cbHandler k => (h.cb.get k).handler.toNat

/-- The read port of instance `n`: it changes nothing, so it is a function of the state and no step. -/
def State.readPort (s : State) (n : Nat) (f : HandleField) : Nat := (s.handleAt n).readPort f

/-- The position of a handle in a transfer's sequence (10_state.md R37). -/
def Handle.position (h : Handle) : BusState × BlkStage × BitVec 3 × BitVec 8 :=
  (h.state, h.blkStage, h.offsetCount, h.dataCount)

end Sys2Proof.Machine
end

