-- ==== Sys2Proof/Machine/Assembler.lean ====
section
/-! DEFINITION. The assembler syntax of the commands (30_encoding.md R91) and the pseudo-instructions (R92), over a line given as
its characters. What R91 does not say about blanks and letters is DEDUCED (entry 16). -/

namespace Sys2Proof.Machine

/-- Why a line is refused: "refuses an operand that does not fit its field" (R91), and what spells no command (R75). -/
inductive AsmError where
  | unknownMnemonic
  | operandCount
  | badOperand
  | doesNotFit
  | reserved
  deriving DecidableEq, Repr

/-! ## Pseudo-instructions (R92) -/

/-- `ONCB kind, handler`: install and enable a handler. -/
def oncb (kind : CbKind) (handler : Word) : Instr := .setcb kind true true handler

/-- `MUTECB kind, handler`: installed but disabled. -/
def mutecb (kind : CbKind) (handler : Word) : Instr := .setcb kind true false handler

/-- `OFFCB kind`: remove. -/
def offcb (kind : CbKind) : Instr := .setcb kind false false 0

/-- `RDREG dev, off, width, buf, len`. -/
def rdreg (dev : BitVec 7) (off : Word) (width : BitVec 3) (buf : Word) (len : BitVec 8) : Instr :=
  .memrda dev off width buf len

/-- `WRREG dev, off, width, buf, len`. -/
def wrreg (dev : BitVec 7) (off : Word) (width : BitVec 3) (buf : Word) (len : BitVec 8) : Instr :=
  .memwra dev off width buf len

/-! ## Characters to operands -/

/-- A space or a tab. -/
def asmBlank (c : Char) : Bool := c == ' ' || c == '\t'

/-- The characters without blanks at either end. -/
def asmTrim (cs : List Char) : List Char :=
  (((cs.dropWhile asmBlank).reverse).dropWhile asmBlank).reverse

/-- The text before the comment: "`;` starts a comment" (R91). -/
def asmCode (cs : List Char) : List Char := cs.takeWhile (· != ';')

/-- The mnemonic at the front, and the rest of the line. -/
def asmSplit (cs : List Char) : List Char × List Char :=
  ((asmTrim cs).takeWhile (fun c => !asmBlank c), (asmTrim cs).dropWhile (fun c => !asmBlank c))

/-- The parts between commas: "operands separated by commas" (R91). -/
def asmParts : List Char → List (List Char)
  | [] => [[]]
  | c :: t =>
    if c == ',' then [] :: asmParts t
    else
      match asmParts t with
      | [] => [[c]]
      | p :: ps => (c :: p) :: ps

/-- The operands of a line: none where nothing follows the mnemonic. -/
def asmOperands (cs : List Char) : List (List Char) :=
  if (asmTrim cs).isEmpty then [] else (asmParts cs).map asmTrim

/-- The value of a digit. -/
def asmDigit (c : Char) : Option Nat :=
  if '0'.toNat ≤ c.toNat ∧ c.toNat ≤ '9'.toNat then some (c.toNat - '0'.toNat)
  else if 'a'.toNat ≤ c.toNat ∧ c.toNat ≤ 'f'.toNat then some (c.toNat - 'a'.toNat + 10)
  else if 'A'.toNat ≤ c.toNat ∧ c.toNat ≤ 'F'.toNat then some (c.toNat - 'A'.toNat + 10)
  else none

/-- The digits of a number in base `b`, most significant first, after the value `acc`. -/
def asmDigits (b : Nat) : Nat → List Char → Option Nat
  | acc, [] => some acc
  | acc, c :: t =>
    match asmDigit c with
    | some d => if d < b then asmDigits b (acc * b + d) t else none
    | none => none

/-- "numbers in decimal or `0x` hexadecimal" (R91). -/
def asmNumber : List Char → Option Nat
  | [] => none
  | '0' :: 'x' :: d :: t => asmDigits 16 0 (d :: t)
  | cs => asmDigits 10 0 cs

/-- An operand in the field of its name; one that does not fit is refused (R91). -/
def asmField (w : Nat) (cs : List Char) : Except AsmError (BitVec w) :=
  match asmNumber cs with
  | none => .error .badOperand
  | some n => if n < 2 ^ w then .ok (BitVec.ofNat w n) else .error .doesNotFit

/-- A one-bit operand. -/
def asmBit (cs : List Char) : Except AsmError Bool :=
  match asmField 1 cs with
  | .ok b => .ok (b == 1)
  | .error e => .error e

/-- "kind is WC, RC, MWC, MRC, NACK or 0..4" (R91). -/
def asmKind (cs : List Char) : Except AsmError CbKind :=
  if cs = ['W', 'C'] then .ok .writeComplete
  else if cs = ['R', 'C'] then .ok .readComplete
  else if cs = ['M', 'W', 'C'] then .ok .memoryWriteComplete
  else if cs = ['M', 'R', 'C'] then .ok .memoryReadComplete
  else if cs = ['N', 'A', 'C', 'K'] then .ok .notAcknowledged
  else
    match asmField 3 cs with
    | .error e => .error e
    | .ok k =>
      match kindOfCode k with
      | some k => .ok k
      | none => .error .reserved

/-! ## Lines -/

/-- `dev, buf, len` (R91). -/
def asmTransfer (mk : BitVec 7 → Word → BitVec 8 → Instr) : List (List Char) → Except AsmError Instr
  | [d, b, l] => do return mk (← asmField 7 d) (← asmField 32 b) (← asmField 8 l)
  | _ => .error .operandCount

/-- `dev, reg, width, buf, len` (R91). -/
def asmMemory (mk : BitVec 7 → Word → BitVec 3 → Word → BitVec 8 → Instr) : List (List Char) → Except AsmError Instr
  | [d, r, w, b, l] => do
    return mk (← asmField 7 d) (← asmField 32 r) (← asmField 3 w) (← asmField 32 b) (← asmField 8 l)
  | _ => .error .operandCount

/-- The command of a mnemonic and its operands, before the checks of R75 (R91, R92). -/
def asmInstr (mnemonic : List Char) (ops : List (List Char)) : Except AsmError Instr :=
  if mnemonic = ['I', 'N', 'I', 'T'] then
    match ops with
    | [p] => do return .init (← asmField 8 p)
    | _ => .error .operandCount
  else if mnemonic = ['S', 'E', 'T', 'C', 'B'] then
    match ops with
    | [k, i, e, h] => do return .setcb (← asmKind k) (← asmBit i) (← asmBit e) (← asmField 32 h)
    | _ => .error .operandCount
  else if mnemonic = ['W', 'R', 'I', 'T', 'E'] then asmTransfer .write ops
  else if mnemonic = ['R', 'E', 'A', 'D'] then asmTransfer .read ops
  else if mnemonic = ['W', 'R', 'I', 'T', 'E', 'A'] then asmTransfer .writea ops
  else if mnemonic = ['R', 'E', 'A', 'D', 'A'] then asmTransfer .reada ops
  else if mnemonic = ['M', 'E', 'M', 'W', 'R', 'A'] then asmMemory .memwra ops
  else if mnemonic = ['M', 'E', 'M', 'R', 'D', 'A'] then asmMemory .memrda ops
  else if mnemonic = ['E', 'V', 'E', 'N', 'T'] then
    match ops with
    | [] => .ok .event
    | _ => .error .operandCount
  else if mnemonic = ['O', 'N', 'C', 'B'] then
    match ops with
    | [k, h] => do return oncb (← asmKind k) (← asmField 32 h)
    | _ => .error .operandCount
  else if mnemonic = ['M', 'U', 'T', 'E', 'C', 'B'] then
    match ops with
    | [k, h] => do return mutecb (← asmKind k) (← asmField 32 h)
    | _ => .error .operandCount
  else if mnemonic = ['O', 'F', 'F', 'C', 'B'] then
    match ops with
    | [k] => do return offcb (← asmKind k)
    | _ => .error .operandCount
  else if mnemonic = ['R', 'D', 'R', 'E', 'G'] then asmMemory rdreg ops
  else if mnemonic = ['W', 'R', 'R', 'E', 'G'] then asmMemory wrreg ops
  else .error .unknownMnemonic

/-- The words of the command read from a line, which must spell one (R75). -/
def asmWords (r : Except AsmError Instr) : Except AsmError (Option (List Word)) :=
  match r with
  | .error e => .error e
  | .ok i => if i.wellFormed then .ok (some (encode i)) else .error .reserved

/-- One line of assembler text: no command where it holds a comment or nothing, else the words of its command (R91). -/
def assembleLine (line : List Char) : Except AsmError (Option (List Word)) :=
  if (asmTrim (asmCode line)).isEmpty then .ok none
  else asmWords (asmInstr (asmSplit (asmCode line)).1 (asmOperands (asmSplit (asmCode line)).2))

end Sys2Proof.Machine
end

