-- ==== Sys2Proof/Safety.lean ====
section
/-! DEFINITION. The terms claims are made in: the invariant of the handle (10_state.md R38 and the legal values of R20), the
invariant of the machine, runs, the refusal premise (60_exceptions.md R203), the transition table (43_async.md R155) and what
"unchanged" means in a frame. -/

namespace Sys2Proof.Machine

/-- The handle's invariant: the six points of 10_state.md R38, the legal values of R20, and what makes them inductive (a byte wait
has a byte to move, the end wait has none, the buffer of a transfer in flight does not wrap). -/
structure Handle.Inv (tPoll : Nat) (h : Handle) : Prop where
  /-- R38 point 1 -/
  blocking : h.blkStage ≠ .idle ↔ h.state ≠ .ready ∧ h.operation.isBlocking = true
  /-- R38 point 2 -/
  addressing : h.state = .busyAddressingSubphase →
    h.operation.isMemory = true ∧ 1 ≤ h.regWidth.toNat ∧ h.regWidth.toNat ≤ 4 ∧ h.dataCount = 0
  /-- R38 point 3 -/
  transmitting : h.state = .busyTransmitting →
    h.operation = .write ∨ h.operation = .writeAsync ∨ h.operation = .memoryWrite
  /-- R38 point 3 -/
  receiving : h.state = .busyReceiving →
    h.operation = .read ∨ h.operation = .readAsync ∨ h.operation = .memoryRead
  /-- R38 point 4, and R111: the buffer does not wrap -/
  inFlight : h.state ≠ .ready → 1 ≤ h.len.toNat ∧ h.bound = true ∧ bufferFits h.bufBase h.len = true
  /-- R20: OffsetCount is 0..RegWidth (R38 points 4 and 5) -/
  offsetLe : h.offsetCount.toNat ≤ h.regWidth.toNat
  /-- R20: DataCount is 0..Len (R38 point 4) -/
  dataLe : h.dataCount.toNat ≤ h.len.toNat
  /-- R20: RegWidth is 0..4 -/
  widthLe : h.regWidth.toNat ≤ 4
  /-- R38 point 6 -/
  errorNotBusy : h.error ≠ .busy
  /-- R33: the block waits for the ready flag of payload byte DataCount -/
  byteLeft : h.blkStage = .byte → h.dataCount.toNat < h.len.toNat
  /-- R33: the block waits for the transfer-complete flag after the last byte -/
  noByteLeft : h.blkStage = .ending → h.dataCount = h.len
  /-- R20: PollCount is 0..T_POLL-1 -/
  pollLt : h.pollCount < tPoll

/-- The machine's invariant, between steps. -/
structure State.Inv (s : State) : Prop where
  /-- R8: T_POLL is positive -/
  tPollPos : 0 < s.params.tPoll
  /-- R38, for every instance -/
  handlesInv : ∀ n, (s.handleAt n).Inv s.params.tPoll
  /-- an instance that N_INST does not reach does not exist: nothing has written it -/
  noMore : ∀ n, s.params.nInst ≤ n → s.handleAt n = Handle.powerOn
  /-- host memory is canonical -/
  memory : Memory.wf s.hostMem
  /-- the handles are canonical -/
  handlesForm : Store.Rising s.handles ∧ Store.NoDefault Handle.powerOn s.handles
  /-- the register views are canonical -/
  viewsForm : Store.Rising s.views ∧ Store.NoDefault PeriphView.powerOn s.views
  /-- no callback body runs between steps (20_memory.md R60) -/
  noNest : s.calls = []
  /-- no EVENT of an instance runs inside another EVENT of the same instance (60_exceptions.md R210) -/
  bodiesDistinct : (s.suspended.flatMap fun w => w.runs.map fun r => r.port.inst).Nodup
  /-- every entry of those that wait holds a body, and their instances exist (00_scope.md R7) -/
  bodiesExist : ∀ w ∈ s.suspended, w.runs ≠ [] ∧ ∀ r ∈ w.runs, r.port.inst < s.params.nInst
  /-- callback bodies wait only for a blocking transfer in progress -/
  bodyWaits : ∀ w ∈ s.suspended, ∀ n, w.waits = some n → (s.handleAt n).blkStage ≠ .idle
  /-- a blocking transfer of an instance inside an EVENT of which a body waits is the one that the body waits for -/
  bodyBlocks : ∀ w ∈ s.suspended, ∀ r ∈ w.runs, (s.handleAt r.port.inst).blkStage ≠ .idle → w.waits = some r.port.inst
  /-- the foreground waits only for a blocking transfer in progress (00_scope.md R6) -/
  fgWaits : ∀ n, s.fgCall = some n → (s.handleAt n).blkStage ≠ .idle

/-- A state the machine can start from: power-on, with any parameters, any environment and any steps of the agents to come
(70_reset_and_hazards.md R230). -/
def State.Start (s : State) : Prop :=
  0 < s.params.tPoll ∧ Memory.wf s.hostMem ∧ s.handles = [] ∧ s.views = [] ∧ s.refusalMark = false ∧ s.calls = []
    ∧ s.suspended = [] ∧ s.fgCall = none

/-- `t` is reached from `s` by steps of the machine. -/
inductive Reaches (s : State) : State → Prop where
  | here : Reaches s s
  | step {t u : State} (h : Reaches s t) (e : Sys2Proof.Machine.step t = .next u) : Reaches s u

/-- The premise of a claim about a run: "no refusal recorded" (60_exceptions.md R203). -/
def State.NoRefusal (s : State) : Prop := s.refusalMark = false

/-- Nothing outside the instance on the port and the peripheral it is bound to has changed, and no agent's step to come. -/
def SameOutside (s t : State) : Prop :=
  t.params = s.params ∧ t.inbox = s.inbox ∧ t.port = s.port ∧ t.calls = s.calls
    ∧ (∀ n, n ≠ s.port.inst → t.handleAt n = s.handleAt n)
    ∧ (∀ p, p ≠ s.h.periphRef → t.viewAt p = s.viewAt p)

/-- Every byte of host memory reads as before, and no byte was allocated or freed. -/
def SameMemory (s t : State) : Prop := ∀ a, Memory.byteAt t.hostMem a = Memory.byteAt s.hostMem a

/-- Every byte of host memory but the one at `a` reads as before. -/
def SameMemoryBut (a : Word) (s t : State) : Prop := ∀ b, b ≠ a → Memory.byteAt t.hostMem b = Memory.byteAt s.hostMem b

/-- Neither the foreground nor a callback body started or stopped to wait for a blocking transfer. -/
def SameCalls (s t : State) : Prop := t.fgCall = s.fgCall ∧ t.suspended = s.suspended

/-- The blocking transfer of the instance `n` is over: those who waited for it, the foreground or callback bodies, wait no more. -/
def CallReturned (n : Nat) (s t : State) : Prop :=
  t.fgCall = (if s.fgCall = some n then none else s.fgCall)
    ∧ t.suspended = s.suspended.map fun w => if w.waits = some n then { w with waits := none } else w

/-- The transition table of State (43_async.md R155), per trigger and guard: from, to, for a command `i` carried out on a handle `h`;
`v` is the status word it reads. "CheckIdle passes" is Ready and the busy flag clear (40_framing.md R109); the rows of EVENT go by the
branch taken (44_dispatcher.md R170). -/
def transitionRow (h : Handle) (v : Word) (i : Instr) (dest : BusState) : Prop :=
  let idle := h.state = .ready ∧ v.getLsbD 15 = false
  match i with
  | .init _ => h.blkStage = .idle ∧ dest = .ready
  | .setcb _ _ _ _ => False
  | .write _ _ _ => idle ∧ dest = .busyTransmitting
  | .writea _ _ _ => idle ∧ dest = .busyTransmitting
  | .read _ _ _ => idle ∧ dest = .busyReceiving
  | .reada _ _ _ => idle ∧ dest = .busyReceiving
  | .memwra _ _ _ _ _ => idle ∧ dest = .busyAddressingSubphase
  | .memrda _ _ _ _ _ => idle ∧ dest = .busyAddressingSubphase
  | .event =>
    let cp := takenBranch h v = some .cp
    (cp ∧ h.state = .busyAddressingSubphase ∧ h.operation = .memoryWrite ∧ dest = .busyTransmitting)
      ∨ (cp ∧ h.state = .busyAddressingSubphase ∧ h.operation = .memoryRead ∧ dest = .busyReceiving)
      ∨ (cp ∧ (h.state = .busyTransmitting ∨ h.state = .busyReceiving) ∧ h.operation.isAsync = true ∧ dest = .ready)
      ∨ (takenBranch h v = some .nack ∧ h.state ≠ .ready ∧ h.operation.isAsync = true ∧ dest = .ready)

/-- A command that arms a transfer (40_framing.md R110), its buffer and its length. -/
def transferBuffer : Instr → Option (Word × BitVec 8)
  | .init _ => none
  | .setcb _ _ _ _ => none
  | .write _ buf len => some (buf, len)
  | .read _ buf len => some (buf, len)
  | .writea _ buf len => some (buf, len)
  | .reada _ buf len => some (buf, len)
  | .memwra _ _ _ buf len => some (buf, len)
  | .memrda _ _ _ buf len => some (buf, len)
  | .event => none

/-- What one item of the trace leaves in the register view of peripheral `p` (20_memory.md R56): only an access to `p` changes it. -/
def TraceItem.leavesIn (p : BitVec 8) (w : PeriphView) : TraceItem → PeriphView
  | .regRead q r v => if q = p then w.afterRead r v else w
  | .regWrite q r v => if q = p then w.afterWrite r v else w
  | .memRead _ _ => w
  | .memWrite _ _ => w
  | .notify _ _ _ => w
  | .answer _ _ => w
  | .refused _ _ => w

/-- The item without the value of a status word: what is put out beside it. -/
def TraceItem.blindStatus (x : TraceItem) : TraceItem :=
  match x with
  | .regRead p .isr _ => .regRead p .isr 0
  | _ => x

/-- A read of the register `r`. -/
def TraceItem.reads (r : PReg) (x : TraceItem) : Bool :=
  match x with
  | .regRead _ q _ => q == r
  | _ => false

/-- A write of the register `r`. -/
def TraceItem.writes (r : PReg) (x : TraceItem) : Bool :=
  match x with
  | .regWrite _ q _ => q == r
  | _ => false

/-- A host byte access. -/
def TraceItem.touchesHost (x : TraceItem) : Bool :=
  match x with
  | .memRead _ _ => true
  | .memWrite _ _ => true
  | _ => false

/-- `k` BLKPOLL steps of the instance on the port, stopping at a fault (42_blocking.md R133). -/
def blkPolls : Nat → State → Out
  | 0, s => .next s
  | k + 1, s => andThen (blkPoll s) (blkPolls k)

/-! ## Words of the statements -/

/-- Point 1 to 5 of 30_encoding.md R75, on word 0 and word 1 as numbers. -/
def spellsNoCommand (w0 w1 : Word) : Prop :=
  let op := w0.toNat % 16
  9 ≤ op
    ∨ (op = 0 ∧ w0.toNat / 2 ^ 12 ≠ 0) ∨ (op = 8 ∧ w0.toNat / 2 ^ 4 ≠ 0) ∨ (op = 1 ∧ w0.toNat / 2 ^ 9 ≠ 0)
    ∨ (2 ≤ op ∧ op ≤ 5 ∧ (w0.toNat / 2 ^ 22 ≠ 0 ∨ w0.toNat / 2 ^ 11 % 8 ≠ 0))
    ∨ (6 ≤ op ∧ op ≤ 7 ∧ w0.toNat / 2 ^ 22 ≠ 0)
    ∨ (op = 1 ∧ (5 ≤ w0.toNat / 2 ^ 4 % 8 ∨ (w0.toNat / 2 ^ 8 % 2 = 0 ∧ (w0.toNat / 2 ^ 7 % 2 = 1 ∨ w1 ≠ 0))))
    ∨ (2 ≤ op ∧ op ≤ 7 ∧ w0.toNat / 2 ^ 14 % 256 = 0)
    ∨ (6 ≤ op ∧ op ≤ 7 ∧ (w0.toNat / 2 ^ 11 % 8 = 0 ∨ 4 < w0.toNat / 2 ^ 11 % 8))

/-- What lets a transfer command arm (40_framing.md R109, R111): bound, a buffer that fits, Ready, and the busy flag clear in the
status word it reads. -/
def mayArm (s : State) (buf : Word) (len : BitVec 8) : Prop :=
  len ≠ 0 ∧ s.h.bound = true ∧ buf.toNat + len.toNat ≤ 2 ^ 32 ∧ s.h.state = .ready ∧ (s.nextAnswer .isr).getLsbD 15 = false

/-- The handle a transfer command leaves (40_framing.md R104). -/
def armedHandle (h : Handle) (op : Operation) (st : BusState) (dev : BitVec 7) (reg : Word) (w : BitVec 3)
    (buf : Word) (len : BitVec 8) : Handle :=
  { h with operation := op, devAddr := dev, regAddr := reg, regWidth := w, bufBase := buf, len := len, offsetCount := 0,
           dataCount := 0, error := .none, state := st, previousState := .ready }

/-- The accesses of an async arming (43_async.md R151 to R154): ISR, ICR, CR1 read and written with a mask set, CR2, then Ok. -/
def asyncAccesses (s : State) (mask cr2 : Word) : List TraceItem :=
  let c := (s.afterPrd .isr).nextAnswer .cr1
  [.regRead s.h.periphRef .isr (s.nextAnswer .isr), .regWrite s.h.periphRef .icr 0x30, .regRead s.h.periphRef .cr1 c,
    .regWrite s.h.periphRef .cr1 (c ||| mask), .regWrite s.h.periphRef .cr2 cr2, .answer s.port.inst .ok]

/-- What every ending poll leaves in the handle (42_blocking.md R133, BlkEnd). -/
def polledOut (h : Handle) (e : ErrCode) : Handle :=
  { h with state := .ready, previousState := h.state, error := e, blkStage := .idle, pollCount := 0 }

/-- A status word that shows no progress to a poll (42_blocking.md R133, its corner cases). -/
def noProgress (h : Handle) (v : Word) : Prop :=
  v.getLsbD 4 = false ∧ (h.blkStage = .byte → h.operation = .write → v.getLsbD 1 = false)
    ∧ (h.blkStage = .byte → h.operation ≠ .write → v.getLsbD 2 = false)
    ∧ (h.blkStage = .ending → v.getLsbD 5 = false ∧ v.getLsbD 6 = false ∧ v.getLsbD 7 = false)

/-- 44_dispatcher.md R170: EVENT takes the branch `b` of the state, chosen by the raised flags in the fixed precedence and applicable
by R171 (`takenBranch`), on a bound instance no EVENT of which is in progress. The bodies of other instances may run around it: an EVENT
that a callback body issues to another instance is an ordinary atomic step of that instance (60_exceptions.md R210). -/
def takes (s : State) (b : Branch) : Prop :=
  s.inBody s.port.inst = false ∧ s.midEvent s.port.inst = false ∧ s.h.bound = true ∧ takenBranch s.h (s.nextAnswer .isr) = some b

/-- An EVENT ends in `t`: where no callback body runs around it, exec answers `t`; where bodies of other instances do, as it was issued by
one of them (60_exceptions.md R210), they go on from `t`. -/
def eventAnswers (s t : State) : Prop :=
  (s.calls = [] → exec .event s = .next t) ∧ exec .event s = t.runCallbacks

/-- The notification item of a kind, where its entry is installed and enabled (40_framing.md R108). -/
def notification (s : State) (k : CbKind) : List TraceItem :=
  if (s.h.cb.get k).installed = true ∧ (s.h.cb.get k).enabled = true then [.notify s.port.inst k (s.h.cb.get k).handler] else []

/-- The accesses of Terminate (40_framing.md R106): CR1 read, and written with the mask 0x76 cleared. -/
def terminateAccesses (s : State) : List TraceItem :=
  let c := (s.afterPrd .isr).nextAnswer .cr1
  [.regRead s.h.periphRef .cr1 c, .regWrite s.h.periphRef .cr1 (c &&& 0xFFFFFF89)]

/-! ## Callback bodies -/

/-- EVENT ends an async transfer and notifies the kind `k` (44_dispatcher.md R172, R177): the NACK branch, or the CP branch outside the
addressing phase with the kind of the recorded Operation. -/
def endsWith (s : State) (k : CbKind) : Prop :=
  (takes s .nack ∧ k = .notAcknowledged)
    ∨ (takes s .cp ∧ s.h.state ≠ .busyAddressingSubphase ∧ completionKind s.h.operation = some k)

/-- Such an EVENT, where the kind is installed and enabled, so that a callback body runs (40_framing.md R108). -/
def callsBack (s : State) (k : CbKind) : Prop :=
  endsWith s k ∧ (s.h.cb.get k).installed = true ∧ (s.h.cb.get k).enabled = true

/-- The Error field at the notification: R172 writes it, R177 does not. -/
def endingError (h : Handle) (k : CbKind) : ErrCode := if k = .notAcknowledged then .notAcknowledged else h.error

/-- No callback body issues a command at a notification of the kind `k`: the next scripted body is empty, or the kind is not both installed
and enabled, so that no body runs, whatever the script holds (40_framing.md R108). -/
def quietNotice (s : State) (k : CbKind) : Prop :=
  s.script.nextBody = [] ∨ (s.h.cb.get k).installed = false ∨ (s.h.cb.get k).enabled = false

/-- What is put out up to the callback body: the ISR read, ICR 0x10 (R172) or 0x20 (R177), the notification. -/
def endingAccesses (s : State) (k : CbKind) : List TraceItem :=
  [.regRead s.h.periphRef .isr (s.nextAnswer .isr), .regWrite s.h.periphRef .icr (if k = .notAcknowledged then 0x10 else 0x20),
    .notify s.port.inst k (s.h.cb.get k).handler]

/-- The state in which the callback body `b` of such an EVENT begins, innermost of those that run, with the rest of the scripted bodies
still to come. -/
def bodyStart (s : State) (k : CbKind) (b : List BodyStep) : State :=
  let r := s.afterPrd .isr
  let t := if k = .notAcknowledged then (r.modifyH fun h => { h with error := .notAcknowledged }).pwr .icr 0x10 else r.pwr .icr 0x20
  { t with trace := s.trace ++ endingAccesses s k, script := { t.script with bodies := s.script.bodies.tail },
           calls := { port := s.port, body := b } :: s.calls }

/-! ## Lines of assembler text (30_encoding.md R91) -/

/-- A line: the mnemonic, a blank, and the operands separated by commas. -/
def asmLine (mnemonic : List Char) (ops : List (List Char)) : List Char := mnemonic ++ ' ' :: List.intercalate [','] ops

/-- The text of a callback kind and its code: a name of R91, or a number. -/
def kindText (cs : List Char) (n : Nat) : Prop :=
  (cs = ['W', 'C'] ∧ n = 0) ∨ (cs = ['R', 'C'] ∧ n = 1) ∨ (cs = ['M', 'W', 'C'] ∧ n = 2) ∨ (cs = ['M', 'R', 'C'] ∧ n = 3)
    ∨ (cs = ['N', 'A', 'C', 'K'] ∧ n = 4) ∨ asmNumber cs = some n

/-- A line gives these words, each as its number, where its operands are right, and is refused where they are not. -/
def lineGives (mnemonic : List Char) (ops : List (List Char)) (right : Prop) (ws : List Nat) : Prop :=
  (right → assembleLine (asmLine mnemonic ops) = .ok (some (ws.map (BitVec.ofNat 32))))
    ∧ (¬ right → ∃ e, assembleLine (asmLine mnemonic ops) = .error e)

/-- DEV, BUF and LEN fit their fields, and LEN is not 0 (R72, R75). -/
def transferFits (dev buf len : Nat) : Prop := dev < 2 ^ 7 ∧ buf < 2 ^ 32 ∧ 1 ≤ len ∧ len < 2 ^ 8

end Sys2Proof.Machine
end

