-- ==== Sys2Proof/Certificates/Slice0/Obligations.lean ====
section
/-! DEFINITION. The statements for the provers. Each docstring names the rule of spec/ it formalises. -/

open Sys2Proof Sys2Proof.Machine

/-! ## Encoding -/

/-- 30_encoding.md R72 to R76: a well-formed command's words, whatever follows them, decode to that command and leave the rest. -/
def Obligations.DecodeOfEncode : Prop :=
  ∀ (i : Instr) (rest : List Word), i.wellFormed = true → decode (encode i ++ rest) = .ok (i, rest)

/-- 30_encoding.md R72 to R76: a command has one spelling: what decodes to `i` begins with the words of `i`, and `i` is well-formed. -/
def Obligations.DecodedWordsAreItsEncoding : Prop :=
  ∀ (ws rest : List Word) (i : Instr), decode ws = .ok (i, rest) → ws = encode i ++ rest ∧ i.wellFormed = true

/-- 30_encoding.md R75: of the words of the right number (R76), exactly those of its five points spell no command; delivered to a
block they set the refusal mark and change nothing else of the machine. -/
def Obligations.ReservedWordsAreRefused : Prop :=
  ∀ (w0 w1 w2 : Word), let ws := [w0, w1, w2].take (commandLength (w0.extractLsb' 0 4))
    ((∃ i, decodeCommand ws = .ok i) ↔ ¬ spellsNoCommand w0 w1)
    ∧ ∀ (a : Agent) (n : Nat) (s : State), spellsNoCommand w0 w1 → n < s.params.nInst →
        deliver a n ws s = .next { s with port := ⟨n, a⟩, refusalMark := true, trace := s.trace ++ [.refused n .reservedEncoding] }

/-- 95_test_vectors.md section 2: words of the encoding table decode to the commands beside them, for every family. -/
def Obligations.EncodingVectorsDecode : Prop :=
  decodeCommand [0x00000FF0] = .ok (.init 0xFF)
    ∧ decodeCommand [0x000001B1, 0x08000123] = .ok (.setcb .memoryReadComplete true true 0x08000123)
    ∧ decodeCommand [0x00000111, 0x00001000] = .ok (.setcb .readComplete true false 0x1000)
    ∧ decodeCommand [0x000085F2, 0x20000000] = .ok (.write 0x5F 0x20000000 2)
    ∧ decodeCommand [0x000105F3, 0x20000100] = .ok (.read 0x5F 0x20000100 4)
    ∧ decodeCommand [0x003FC7F4, 0x20000000] = .ok (.writea 0x7F 0x20000000 255)
    ∧ decodeCommand [0x000105F5, 0x20000100] = .ok (.reada 0x5F 0x20000100 4)
    ∧ decodeCommand [0x000095F6, 0x20000200, 0x00001234] = .ok (.memwra 0x5F 0x1234 2 0x20000200 2)
    ∧ decodeCommand [0x00005D07, 0x20000100, 0x11223344] = .ok (.memrda 0x50 0x11223344 3 0x20000100 1)
    ∧ decodeCommand [0x00000008] = .ok .event

/-- 30_encoding.md R91, R92: the assembler, line by line. Whatever it emits is the words of a well-formed command; each mnemonic gives the
command of its name, each pseudo-instruction that of its expansion, with every operand in the field of its name (R72, written out as
arithmetic); an operand that does not fit is refused, and so is what spells no command (R75); numbers are decimal or `0x` hexadecimal, and
`;` starts a comment. -/
def Obligations.AssembledLineDecodes : Prop :=
  (∀ (line : List Char) (ws : List Word), assembleLine line = .ok (some ws) →
    ∃ i, decodeCommand ws = .ok i ∧ i.wellFormed = true)
  ∧ (∀ (per dev reg wid buf len hd ins en kd : List Char) (nPer nDev nReg nWid nBuf nLen nHd nIns nEn nKd : Nat),
    asmNumber per = some nPer → asmNumber dev = some nDev → asmNumber reg = some nReg → asmNumber wid = some nWid →
    asmNumber buf = some nBuf → asmNumber len = some nLen → asmNumber hd = some nHd → asmNumber ins = some nIns →
    asmNumber en = some nEn → kindText kd nKd →
    lineGives ['I', 'N', 'I', 'T'] [per] (nPer < 2 ^ 8) [0 + 2 ^ 4 * nPer]
    ∧ lineGives ['S', 'E', 'T', 'C', 'B'] [kd, ins, en, hd]
        (nKd < 5 ∧ nIns < 2 ∧ nEn < 2 ∧ nHd < 2 ^ 32 ∧ (nIns = 1 ∨ (nEn = 0 ∧ nHd = 0)))
        [1 + 2 ^ 4 * nKd + 2 ^ 7 * nEn + 2 ^ 8 * nIns, nHd]
    ∧ (∀ m ∈ [(['W', 'R', 'I', 'T', 'E'], 2), (['R', 'E', 'A', 'D'], 3), (['W', 'R', 'I', 'T', 'E', 'A'], 4),
          (['R', 'E', 'A', 'D', 'A'], 5)],
        lineGives m.1 [dev, buf, len] (transferFits nDev nBuf nLen) [m.2 + 2 ^ 4 * nDev + 2 ^ 14 * nLen, nBuf])
    ∧ (∀ m ∈ [(['M', 'E', 'M', 'W', 'R', 'A'], 6), (['M', 'E', 'M', 'R', 'D', 'A'], 7), (['W', 'R', 'R', 'E', 'G'], 6),
          (['R', 'D', 'R', 'E', 'G'], 7)],
        lineGives m.1 [dev, reg, wid, buf, len] (transferFits nDev nBuf nLen ∧ nReg < 2 ^ 32 ∧ 1 ≤ nWid ∧ nWid ≤ 4)
          [m.2 + 2 ^ 4 * nDev + 2 ^ 11 * nWid + 2 ^ 14 * nLen, nBuf, nReg])
    ∧ lineGives ['E', 'V', 'E', 'N', 'T'] [] True [8]
    ∧ lineGives ['O', 'N', 'C', 'B'] [kd, hd] (nKd < 5 ∧ nHd < 2 ^ 32) [1 + 2 ^ 4 * nKd + 2 ^ 7 * 1 + 2 ^ 8 * 1, nHd]
    ∧ lineGives ['M', 'U', 'T', 'E', 'C', 'B'] [kd, hd] (nKd < 5 ∧ nHd < 2 ^ 32) [1 + 2 ^ 4 * nKd + 2 ^ 7 * 0 + 2 ^ 8 * 1, nHd]
    ∧ lineGives ['O', 'F', 'F', 'C', 'B'] [kd] (nKd < 5) [1 + 2 ^ 4 * nKd + 2 ^ 7 * 0 + 2 ^ 8 * 0, 0])
  ∧ (∀ n : Nat, asmNumber (Nat.toDigits 10 n) = some n ∧ asmNumber ('0' :: 'x' :: Nat.toDigits 16 n) = some n)
  ∧ ∀ line comment : List Char, assembleLine (line ++ ';' :: comment) = assembleLine line

/-- 30_encoding.md R79 to R83: the codes of the enumerations, as the host's read port shows them (10_state.md R36). -/
def Obligations.EnumerationCodesAtReadPort : Prop :=
  ∀ (s : State) (n : Nat), let h := s.handleAt n
    s.readPort n .state = (match h.state with
      | .ready => 0 | .busyAddressingSubphase => 1 | .busyTransmitting => 2 | .busyReceiving => 3)
    ∧ s.readPort n .operation = (match h.operation with
      | .write => 0 | .read => 1 | .writeAsync => 2 | .readAsync => 3 | .memoryWrite => 4 | .memoryRead => 5)
    ∧ s.readPort n .error = (match h.error with | .none => 0 | .busy => 1 | .timeout => 2 | .notAcknowledged => 3)
    ∧ s.readPort n .blkStage = (match h.blkStage with | .idle => 0 | .byte => 1 | .ending => 2)
    ∧ ∀ k : CbKind, k.code.toNat = (match k with
      | .writeComplete => 0 | .readComplete => 1 | .memoryWriteComplete => 2 | .memoryReadComplete => 3 | .notAcknowledged => 4)

/-! ## Framing, offset bytes, SetState, side effects of register accesses -/

/-- 30_encoding.md R85, 40_framing.md R100: every bit of the control word of a phase. -/
def Obligations.ControlWordBits : Prop :=
  ∀ (dev : BitVec 7) (n : BitVec 8) (dir : Dir) (mode : FrameMode) (b : Nat), b < 32 →
    (frame dev n dir mode).getLsbD b =
      (if 1 ≤ b ∧ b ≤ 7 then dev.getLsbD (b - 1)
       else if b = 10 then decide (dir = .read)
       else if b = 13 then true
       else if 16 ≤ b ∧ b ≤ 23 then n.getLsbD (b - 16)
       else if b = 24 then decide (mode = .hold)
       else if b = 25 then decide (mode = .autoEnd)
       else false)

/-- 40_framing.md R102: offset byte k is bits [8·(w-k)-1 : 8·(w-1-k)] of RegAddr, so byte 0 on the bus is the most significant of
the RegWidth bytes and bits at or above 8·RegWidth are never sent. -/
def Obligations.OffsetBytesMostSignificantFirst : Prop :=
  ∀ (h : Handle) (k j : Nat), 1 ≤ h.regWidth.toNat → h.regWidth.toNat ≤ 4 → k < h.regWidth.toNat → j < 8 →
    (offByte h k).getLsbD j = h.regAddr.getLsbD (8 * (h.regWidth.toNat - 1 - k) + j)
    ∧ 8 * (h.regWidth.toNat - 1 - k) + j < 8 * h.regWidth.toNat

/-- 40_framing.md R103: SetState copies the old State into PreviousState when State changes, and changes nothing else; "Writing the
current value changes nothing, PreviousState included." -/
def Obligations.SetStateKeepsOldState : Prop :=
  ∀ (st : BusState) (s : State),
    (s.setState st).h = (if st ≠ s.h.state then { s.h with previousState := s.h.state, state := st } else s.h)
    ∧ (∀ n, n ≠ s.port.inst → (s.setState st).handleAt n = s.handleAt n)
    ∧ (s.setState st).trace = s.trace

/-- 20_memory.md R56, 30_encoding.md R87: what an access leaves in the register view of the bound peripheral, its flags bit by bit. A write
of ICR clears the flag of each set bit that R87 names; of CR1 the block changes the bits of R88 only. That no other flag changes, since the
view is a record of the block's accesses, is the model's reading (entry 7): the peripheral sets its flags itself (10_state.md R39), and no
read is answered from the view. -/
def Obligations.RegisterAccessSideEffects : Prop :=
  ∀ (s : State) (v : Word) (b : Nat), b < 32 → let p := s.h.periphRef; let f := (s.viewAt p).isr
    (((s.afterPrd .isr).viewAt p).isr = s.nextAnswer .isr)
    ∧ (((s.afterPrd .rxdr).viewAt p).rxdr = s.nextAnswer .rxdr
        ∧ ((s.afterPrd .rxdr).viewAt p).isr.getLsbD b = (if b = 2 then false else f.getLsbD b))
    ∧ (((s.afterPrd .cr1).viewAt p).cr1 = s.nextAnswer .cr1 ∧ ((s.afterPrd .cr1).viewAt p).isr = f)
    ∧ (((s.pwr .txdr v).viewAt p).txdr = v
        ∧ ((s.pwr .txdr v).viewAt p).isr.getLsbD b = (if b = 1 then false else f.getLsbD b))
    ∧ (((s.pwr .icr v).viewAt p).icr = v
        ∧ ((s.pwr .icr v).viewAt p).isr.getLsbD b
            = (if b ∈ [3, 4, 5, 8, 9, 10, 11, 12, 13] ∧ v.getLsbD b = true then false else f.getLsbD b))
    ∧ (((s.pwr .cr2 v).viewAt p).cr2 = v
        ∧ ((s.pwr .cr2 v).viewAt p).isr.getLsbD b
            = (if (b = 6 ∨ b = 7) ∧ v.getLsbD 13 = true then false else f.getLsbD b))
    ∧ (v &&& 0xFFFFFF89 = (s.viewAt p).cr1 &&& 0xFFFFFF89 →
        ((s.pwr .cr1 v).viewAt p).cr1 = v ∧ ((s.pwr .cr1 v).viewAt p).isr = f)

/-! ## Configuration commands -/

/-- 41_control.md R120: INIT outside a blocking transfer, in every State, leaves every handle field at its idle value but the
registry, makes no access and returns Ok. -/
def Obligations.InitResetsHandle : Prop :=
  ∀ (p : BitVec 8) (s : State), s.h.blkStage = .idle →
    ∃ t, exec (.init p) s = .next t
      ∧ t.h = { bound := true, periphRef := p, state := .ready, previousState := .ready, operation := .write, devAddr := 0,
                regAddr := 0, regWidth := 0, bufBase := 0, len := 0, offsetCount := 0, dataCount := 0, error := .none,
                blkStage := .idle, pollCount := 0, cb := s.h.cb }
      ∧ t.trace = s.trace ++ [.answer s.port.inst .ok] ∧ t.views = s.views ∧ t.script = s.script ∧ t.draws = s.draws
      ∧ SameOutside s t ∧ SameMemory s t ∧ SameCalls s t ∧ t.refusalMark = s.refusalMark

/-- 41_control.md R120: INIT during a blocking transfer is refused: the mark is set, nothing else of the machine changes. -/
def Obligations.InitRefusedDuringBlocking : Prop :=
  ∀ (p : BitVec 8) (s : State), s.h.blkStage ≠ .idle →
    exec (.init p) s
      = .next { s with refusalMark := true, trace := s.trace ++ [.refused s.port.inst .initDuringBlocking] }

/-- 41_control.md R120: INIT is idempotent: a second INIT with the same PERIPH leaves every handle as the first did. -/
def Obligations.InitIsIdempotent : Prop :=
  ∀ (p : BitVec 8) (s t : State), exec (.init p) s = .next t → t.refusalMark = false →
    ∃ u, exec (.init p) t = .next u ∧ u.refusalMark = false ∧ ∀ n, u.handleAt n = t.handleAt n

/-- 41_control.md R121: SETCB that installs (in any State) or removes (in Ready) writes the entry of its kind and no other field,
makes no access and returns Ok. -/
def Obligations.SetcbWritesOneEntry : Prop :=
  ∀ (k : CbKind) (inst en : Bool) (hd : Word) (s : State),
    (inst = true ∨ (en = false ∧ hd = 0 ∧ s.h.state = .ready)) →
    ∃ t, exec (.setcb k inst en hd) s = .next t
      ∧ t.h.cb.get k = (if inst then ⟨true, en, hd⟩ else ⟨false, false, 0⟩)
      ∧ (∀ k', k' ≠ k → t.h.cb.get k' = s.h.cb.get k') ∧ { t.h with cb := s.h.cb } = s.h
      ∧ t.trace = s.trace ++ [.answer s.port.inst .ok] ∧ t.views = s.views ∧ t.script = s.script ∧ t.draws = s.draws
      ∧ SameOutside s t ∧ SameMemory s t ∧ SameCalls s t ∧ t.refusalMark = s.refusalMark

/-- 41_control.md R121: a removal while State ≠ Ready is refused; so is a removal that carries EN or a handler (30_encoding.md
R75). -/
def Obligations.SetcbRemovalRefused : Prop :=
  ∀ (k : CbKind) (en : Bool) (hd : Word) (s : State),
    (s.h.state ≠ .ready → exec (.setcb k false false 0) s
      = .next { s with refusalMark := true, trace := s.trace ++ [.refused s.port.inst .removalInFlight] })
    ∧ ((en = true ∨ hd ≠ 0) → exec (.setcb k false en hd) s
      = .next { s with refusalMark := true, trace := s.trace ++ [.refused s.port.inst .reservedEncoding] })

/-! ## Transfer commands -/

/-- 42_blocking.md R130, R131: WRITE arms: the fields, the accesses in order, no result yet, the foreground waits if it issued it. That it does
not wait for another agent's is the model's choice (entry 18). -/
def Obligations.WriteArms : Prop :=
  ∀ (dev : BitVec 7) (buf : Word) (len : BitVec 8) (s : State), mayArm s buf len →
    ∃ t, exec (.write dev buf len) s = .next t
      ∧ t.h = { armedHandle s.h .write .busyTransmitting dev 0 0 buf len with blkStage := .byte, pollCount := 0 }
      ∧ t.trace = s.trace ++ [.regRead s.h.periphRef .isr (s.nextAnswer .isr), .regWrite s.h.periphRef .icr 0x30,
          .regWrite s.h.periphRef .cr2 (frame dev len .write .autoEnd)]
      ∧ t.fgCall = (if s.port.agent = .foreground then some s.port.inst else s.fgCall) ∧ t.suspended = s.suspended
      ∧ SameOutside s t ∧ SameMemory s t ∧ t.refusalMark = s.refusalMark

/-- 42_blocking.md R130, R132: READ arms. That the foreground does not wait for another agent's is the model's choice (entry 18). -/
def Obligations.ReadArms : Prop :=
  ∀ (dev : BitVec 7) (buf : Word) (len : BitVec 8) (s : State), mayArm s buf len →
    ∃ t, exec (.read dev buf len) s = .next t
      ∧ t.h = { armedHandle s.h .read .busyReceiving dev 0 0 buf len with blkStage := .byte, pollCount := 0 }
      ∧ t.trace = s.trace ++ [.regRead s.h.periphRef .isr (s.nextAnswer .isr), .regWrite s.h.periphRef .icr 0x30,
          .regWrite s.h.periphRef .cr2 (frame dev len .read .autoEnd)]
      ∧ t.fgCall = (if s.port.agent = .foreground then some s.port.inst else s.fgCall) ∧ t.suspended = s.suspended
      ∧ SameOutside s t ∧ SameMemory s t ∧ t.refusalMark = s.refusalMark

/-- 43_async.md R150, R151: WRITEA arms and returns Ok. -/
def Obligations.WriteaArms : Prop :=
  ∀ (dev : BitVec 7) (buf : Word) (len : BitVec 8) (s : State), mayArm s buf len →
    ∃ t, exec (.writea dev buf len) s = .next t
      ∧ t.h = armedHandle s.h .writeAsync .busyTransmitting dev 0 0 buf len
      ∧ t.trace = s.trace ++ asyncAccesses s 0x72 (frame dev len .write .autoEnd)
      ∧ SameOutside s t ∧ SameMemory s t ∧ SameCalls s t ∧ t.refusalMark = s.refusalMark

/-- 43_async.md R150, R152: READA arms and returns Ok. -/
def Obligations.ReadaArms : Prop :=
  ∀ (dev : BitVec 7) (buf : Word) (len : BitVec 8) (s : State), mayArm s buf len →
    ∃ t, exec (.reada dev buf len) s = .next t
      ∧ t.h = armedHandle s.h .readAsync .busyReceiving dev 0 0 buf len
      ∧ t.trace = s.trace ++ asyncAccesses s 0x74 (frame dev len .read .autoEnd)
      ∧ SameOutside s t ∧ SameMemory s t ∧ SameCalls s t ∧ t.refusalMark = s.refusalMark

/-- 43_async.md R150, R153: MEMWRA arms: its first control word counts the offset bytes and holds the bus. -/
def Obligations.MemwraArms : Prop :=
  ∀ (dev : BitVec 7) (reg : Word) (w : BitVec 3) (buf : Word) (len : BitVec 8) (s : State),
    1 ≤ w.toNat → w.toNat ≤ 4 → mayArm s buf len →
    ∃ t, exec (.memwra dev reg w buf len) s = .next t
      ∧ t.h = armedHandle s.h .memoryWrite .busyAddressingSubphase dev reg w buf len
      ∧ t.trace = s.trace ++ asyncAccesses s 0x72 (frame dev (w.zeroExtend 8) .write .hold)
      ∧ SameOutside s t ∧ SameMemory s t ∧ SameCalls s t ∧ t.refusalMark = s.refusalMark

/-- 43_async.md R150, R154: MEMRDA arms: its first control word has write direction although the operation reads. -/
def Obligations.MemrdaArms : Prop :=
  ∀ (dev : BitVec 7) (reg : Word) (w : BitVec 3) (buf : Word) (len : BitVec 8) (s : State),
    1 ≤ w.toNat → w.toNat ≤ 4 → mayArm s buf len →
    ∃ t, exec (.memrda dev reg w buf len) s = .next t
      ∧ t.h = armedHandle s.h .memoryRead .busyAddressingSubphase dev reg w buf len
      ∧ t.trace = s.trace ++ asyncAccesses s 0x76 (frame dev (w.zeroExtend 8) .write .hold)
      ∧ SameOutside s t ∧ SameMemory s t ∧ SameCalls s t ∧ t.refusalMark = s.refusalMark

/-- 40_framing.md R109, 43_async.md R156: in a Busy* state every transfer command that is not refused returns Busy, with no access
and no field written. -/
def Obligations.SecondTransferReturnsBusy : Prop :=
  ∀ (i : Instr) (buf : Word) (len : BitVec 8) (s : State), transferBuffer i = some (buf, len) → i.wellFormed = true →
    s.h.bound = true → buf.toNat + len.toNat ≤ 2 ^ 32 → s.h.state ≠ .ready →
    exec i s = .next { s with trace := s.trace ++ [.answer s.port.inst .busy] }

/-- 40_framing.md R109: in Ready, a set busy flag makes a transfer command return Busy after its one ISR read; no handle field is
written. -/
def Obligations.BusyPeripheralReturnsBusy : Prop :=
  ∀ (i : Instr) (buf : Word) (len : BitVec 8) (s : State), transferBuffer i = some (buf, len) → i.wellFormed = true →
    s.h.bound = true → buf.toNat + len.toNat ≤ 2 ^ 32 → s.h.state = .ready → (s.nextAnswer .isr).getLsbD 15 = true →
    ∃ t, exec i s = .next t
      ∧ t.trace = s.trace ++ [.regRead s.h.periphRef .isr (s.nextAnswer .isr), .answer s.port.inst .busy]
      ∧ t.handles = s.handles ∧ SameOutside s t ∧ SameMemory s t ∧ SameCalls s t ∧ t.refusalMark = s.refusalMark

/-- 40_framing.md R110, R111: a transfer command before INIT, or with a buffer that wraps, is refused with no access, whatever State
and the peripheral are. -/
def Obligations.TransferValueChecksRefuse : Prop :=
  ∀ (i : Instr) (buf : Word) (len : BitVec 8) (s : State), transferBuffer i = some (buf, len) → i.wellFormed = true →
    (s.h.bound = false → exec i s
      = .next { s with refusalMark := true, trace := s.trace ++ [.refused s.port.inst .unbound] })
    ∧ (s.h.bound = true → 2 ^ 32 < buf.toNat + len.toNat → exec i s
      = .next { s with refusalMark := true, trace := s.trace ++ [.refused s.port.inst .bufferWraps] })

/-! ## Blocking polls -/

/-- 42_blocking.md R133: NACKF ends the transfer with NotAcknowledged in every stage, before every other flag; no callback fires. -/
def Obligations.PollNackEndsTransfer : Prop :=
  ∀ (s : State), s.h.blkStage ≠ .idle → s.h.state ≠ .ready → (s.nextAnswer .isr).getLsbD 4 = true →
    ∃ t, blkPoll s = .next t ∧ t.h = polledOut s.h .notAcknowledged
      ∧ t.trace = s.trace ++ [.regRead s.h.periphRef .isr (s.nextAnswer .isr), .regWrite s.h.periphRef .icr 0x10,
          .answer s.port.inst .notAcknowledged]
      ∧ CallReturned s.port.inst s t
      ∧ SameOutside s t ∧ SameMemory s t ∧ t.refusalMark = s.refusalMark

/-- 42_blocking.md R133: a ready poll of a WRITE sends the host byte at BufBase + DataCount, read at that moment; after the last byte
the stage is End. -/
def Obligations.PollSendsByte : Prop :=
  ∀ (s : State) (v : Byte), s.h.blkStage = .byte → s.h.operation = .write → (s.nextAnswer .isr).getLsbD 4 = false →
    (s.nextAnswer .isr).getLsbD 1 = true → Memory.byteAt s.hostMem (s.h.bufBase + s.h.dataCount.zeroExtend 32) = some v →
    ∃ t, blkPoll s = .next t
      ∧ t.h = { s.h with dataCount := s.h.dataCount + 1, pollCount := 0,
                         blkStage := if s.h.dataCount + 1 = s.h.len then .ending else .byte }
      ∧ t.trace = s.trace ++ [.regRead s.h.periphRef .isr (s.nextAnswer .isr),
          .memRead (s.h.bufBase + s.h.dataCount.zeroExtend 32) v, .regWrite s.h.periphRef .txdr (v.zeroExtend 32)]
      ∧ SameOutside s t ∧ SameMemory s t ∧ SameCalls s t ∧ t.refusalMark = s.refusalMark

/-- 42_blocking.md R133: a ready poll of a READ stores the received byte at BufBase + DataCount and nowhere else. -/
def Obligations.PollReceivesByte : Prop :=
  ∀ (s : State) (old : Byte), s.h.blkStage = .byte → s.h.operation = .read → (s.nextAnswer .isr).getLsbD 4 = false →
    (s.nextAnswer .isr).getLsbD 2 = true → Memory.byteAt s.hostMem (payloadAddr s.h) = some old →
    let w := (s.afterPrd .isr).nextAnswer .rxdr
    ∃ t, blkPoll s = .next t
      ∧ t.h = { s.h with dataCount := s.h.dataCount + 1, pollCount := 0,
                         blkStage := if s.h.dataCount + 1 = s.h.len then .ending else .byte }
      ∧ t.trace = s.trace ++ [.regRead s.h.periphRef .isr (s.nextAnswer .isr), .regRead s.h.periphRef .rxdr w,
          .memWrite (payloadAddr s.h) (w.setWidth 8)]
      ∧ Memory.byteAt t.hostMem (payloadAddr s.h) = some (w.setWidth 8) ∧ SameMemoryBut (payloadAddr s.h) s t
      ∧ SameOutside s t ∧ SameCalls s t ∧ t.refusalMark = s.refusalMark

/-- 42_blocking.md R133: in the End stage a complete flag (STOPF, TC or TCR) ends the transfer with Ok and clears STOPF. -/
def Obligations.PollCompletesTransfer : Prop :=
  ∀ (s : State), s.h.blkStage = .ending → s.h.state ≠ .ready → (s.nextAnswer .isr).getLsbD 4 = false →
    ((s.nextAnswer .isr).getLsbD 5 = true ∨ (s.nextAnswer .isr).getLsbD 6 = true ∨ (s.nextAnswer .isr).getLsbD 7 = true) →
    ∃ t, blkPoll s = .next t ∧ t.h = polledOut s.h s.h.error
      ∧ t.trace = s.trace ++ [.regRead s.h.periphRef .isr (s.nextAnswer .isr), .regWrite s.h.periphRef .icr 0x20,
          .answer s.port.inst .ok]
      ∧ CallReturned s.port.inst s t
      ∧ SameOutside s t ∧ SameMemory s t ∧ t.refusalMark = s.refusalMark

/-- 42_blocking.md R133: a poll without progress counts, and the one that reaches T_POLL ends the transfer with Timeout, with no
access but its ISR read. -/
def Obligations.PollWithoutProgress : Prop :=
  ∀ (s : State), s.h.blkStage ≠ .idle → s.h.state ≠ .ready → noProgress s.h (s.nextAnswer .isr) →
    (s.h.pollCount + 1 ≠ s.params.tPoll →
      ∃ t, blkPoll s = .next t ∧ t.h = { s.h with pollCount := s.h.pollCount + 1 }
        ∧ t.trace = s.trace ++ [.regRead s.h.periphRef .isr (s.nextAnswer .isr)]
        ∧ SameOutside s t ∧ SameMemory s t ∧ SameCalls s t ∧ t.refusalMark = s.refusalMark)
    ∧ (s.h.pollCount + 1 = s.params.tPoll →
      ∃ t, blkPoll s = .next t ∧ t.h = polledOut s.h .timeout
        ∧ t.trace = s.trace ++ [.regRead s.h.periphRef .isr (s.nextAnswer .isr), .answer s.port.inst .timeout]
        ∧ CallReturned s.port.inst s t
        ∧ SameOutside s t ∧ SameMemory s t ∧ t.refusalMark = s.refusalMark)

/-- 20_memory.md R52: an access to a byte the host has not allocated is stuck: the poll or the dispatcher step that makes it is not
taken. -/
def Obligations.RefusedHostAccessIsStuck : Prop :=
  ∀ (s : State), Memory.byteAt s.hostMem (payloadAddr s.h) = none →
    (s.h.blkStage = .byte → (s.nextAnswer .isr).getLsbD 4 = false →
      readyFlag s.h.operation (s.nextAnswer .isr) = true → blkPoll s = .fault (.hostAccessStuck (payloadAddr s.h)))
    ∧ (takes s .rx ∨ (takes s .tx ∧ s.h.state = .busyTransmitting) →
        exec .event s = .fault (.hostAccessStuck (payloadAddr s.h)))

/-- 42_blocking.md R134: from its arming, a blocking command is over after at most (Len + 1) · T_POLL BLKPOLL steps, unless a host
access is stuck. -/
def Obligations.BlockingEndsWithinBound : Prop :=
  ∀ (s : State), 0 < s.params.tPoll → s.h.blkStage = .byte → s.h.pollCount = 0 → s.h.dataCount.toNat < s.h.len.toNat →
    (∃ a, blkPolls ((s.h.len.toNat + 1) * s.params.tPoll) s = .fault (.hostAccessStuck a))
    ∨ ∃ t, blkPolls ((s.h.len.toNat + 1) * s.params.tPoll) s = .next t ∧ t.h.blkStage = .idle

/-- 42_blocking.md R134: against a peripheral that never raises a flag, a blocking command returns Timeout on exactly its T_POLL-th
BLKPOLL step, and moves no byte. -/
def Obligations.SilentPeripheralTimesOut : Prop :=
  ∀ (s : State), 0 < s.params.tPoll → s.h.blkStage = .byte → s.h.state ≠ .ready → s.h.pollCount = 0 →
    (∀ k, k < s.params.tPoll → s.script.isr[k]? = some 0) →
    (∀ k, k < s.params.tPoll → ∃ t, blkPolls k s = .next t ∧ t.h = { s.h with pollCount := k })
    ∧ ∃ t, blkPolls s.params.tPoll s = .next t ∧ t.h = polledOut s.h .timeout
        ∧ t.trace.getLast? = some (.answer s.port.inst .timeout) ∧ SameMemory s t

/-! ## The dispatcher -/

/-- 44_dispatcher.md R170, R171: which branch an invocation takes, flag by flag: the highest raised flag selects it, and it is taken
only if it is applicable; there is no fall-through. -/
def Obligations.BranchOfEvent : Prop :=
  ∀ (h : Handle) (v : Word),
    let nack := v.getLsbD 4; let rx := v.getLsbD 2; let tx := v.getLsbD 1
    let cp := v.getLsbD 5 || v.getLsbD 6 || v.getLsbD 7
    let busy := h.state ≠ .ready ∧ h.operation ≠ .write ∧ h.operation ≠ .read
    (takenBranch h v = some .nack ↔ nack = true ∧ busy)
    ∧ (takenBranch h v = some .rx ↔ nack = false ∧ rx = true ∧ busy ∧ h.state = .busyReceiving ∧ h.dataCount < h.len)
    ∧ (takenBranch h v = some .tx ↔ nack = false ∧ rx = false ∧ tx = true
        ∧ ((h.state = .busyAddressingSubphase ∧ h.offsetCount < h.regWidth)
          ∨ (busy ∧ h.state = .busyTransmitting ∧ h.dataCount < h.len)))
    ∧ (takenBranch h v = some .cp ↔ nack = false ∧ rx = false ∧ tx = false ∧ cp = true ∧ busy)

/-- 44_dispatcher.md R172: the NACK branch, where no callback body issues a command (an empty body, or a kind not both installed and
enabled, of which no body runs, whatever the script holds): Error, ICR, the notification if installed and
enabled, then the interrupt disable and Ready; no STOP is written. -/
def Obligations.EventNackBranch : Prop :=
  ∀ (s : State), takes s .nack → quietNotice s .notAcknowledged →
    ∃ t, eventAnswers s t
      ∧ t.h = { s.h with error := .notAcknowledged, previousState := s.h.state, state := .ready }
      ∧ t.trace = s.trace ++ [.regRead s.h.periphRef .isr (s.nextAnswer .isr), .regWrite s.h.periphRef .icr 0x10]
          ++ notification s .notAcknowledged ++ terminateAccesses s ++ [.answer s.port.inst .ok]
      ∧ SameOutside s t ∧ SameMemory s t ∧ SameCalls s t ∧ t.refusalMark = s.refusalMark

/-- 44_dispatcher.md R173: the RX branch stores the received byte at BufBase + DataCount and advances DataCount. -/
def Obligations.EventRxBranch : Prop :=
  ∀ (s : State) (old : Byte), takes s .rx → Memory.byteAt s.hostMem (payloadAddr s.h) = some old →
    let w := (s.afterPrd .isr).nextAnswer .rxdr
    ∃ t, eventAnswers s t ∧ t.h = { s.h with dataCount := s.h.dataCount + 1 }
      ∧ t.trace = s.trace ++ [.regRead s.h.periphRef .isr (s.nextAnswer .isr), .regRead s.h.periphRef .rxdr w,
          .memWrite (payloadAddr s.h) (w.setWidth 8), .answer s.port.inst .ok]
      ∧ Memory.byteAt t.hostMem (payloadAddr s.h) = some (w.setWidth 8) ∧ SameMemoryBut (payloadAddr s.h) s t
      ∧ SameOutside s t ∧ SameCalls s t ∧ t.refusalMark = s.refusalMark

/-- 44_dispatcher.md R174: the TX branch in the addressing phase writes the next offset byte and advances OffsetCount. -/
def Obligations.EventTxOffsetBranch : Prop :=
  ∀ (s : State), takes s .tx → s.h.state = .busyAddressingSubphase →
    ∃ t, eventAnswers s t ∧ t.h = { s.h with offsetCount := s.h.offsetCount + 1 }
      ∧ t.trace = s.trace ++ [.regRead s.h.periphRef .isr (s.nextAnswer .isr),
          .regWrite s.h.periphRef .txdr
            (((s.h.regAddr >>> (8 * (s.h.regWidth.toNat - 1 - s.h.offsetCount.toNat))).setWidth 8).zeroExtend 32),
          .answer s.port.inst .ok]
      ∧ SameOutside s t ∧ SameMemory s t ∧ SameCalls s t ∧ t.refusalMark = s.refusalMark

/-- 44_dispatcher.md R175: the TX branch in the data phase sends the host byte at BufBase + DataCount, read at that moment. -/
def Obligations.EventTxDataBranch : Prop :=
  ∀ (s : State) (v : Byte), takes s .tx → s.h.state = .busyTransmitting →
    Memory.byteAt s.hostMem (s.h.bufBase + s.h.dataCount.zeroExtend 32) = some v →
    ∃ t, eventAnswers s t ∧ t.h = { s.h with dataCount := s.h.dataCount + 1 }
      ∧ t.trace = s.trace ++ [.regRead s.h.periphRef .isr (s.nextAnswer .isr),
          .memRead (s.h.bufBase + s.h.dataCount.zeroExtend 32) v, .regWrite s.h.periphRef .txdr (v.zeroExtend 32),
          .answer s.port.inst .ok]
      ∧ SameOutside s t ∧ SameMemory s t ∧ SameCalls s t ∧ t.refusalMark = s.refusalMark

/-- 44_dispatcher.md R176: the CP branch in the addressing phase starts the data phase with Len and the true direction, whatever
OffsetCount is; no callback fires. -/
def Obligations.EventCpOffsetBranch : Prop :=
  ∀ (s : State), takes s .cp → s.h.state = .busyAddressingSubphase →
    ∃ t, eventAnswers s t
      ∧ t.h = { s.h with previousState := .busyAddressingSubphase,
                         state := if s.h.operation = .memoryWrite then .busyTransmitting else .busyReceiving }
      ∧ t.trace = s.trace ++ [.regRead s.h.periphRef .isr (s.nextAnswer .isr), .regWrite s.h.periphRef .icr 0x20,
          .regWrite s.h.periphRef .cr2
            (frame s.h.devAddr s.h.len (if s.h.operation = .memoryWrite then .write else .read) .autoEnd),
          .answer s.port.inst .ok]
      ∧ SameOutside s t ∧ SameMemory s t ∧ SameCalls s t ∧ t.refusalMark = s.refusalMark

/-- 44_dispatcher.md R177: the CP branch in the data phase, where no callback body issues a command (an empty body, or a kind not both
installed and enabled): STOPF cleared, the completion
notification of the recorded Operation, then the interrupt disable and Ready, whatever DataCount is. -/
def Obligations.EventCpDataBranch : Prop :=
  ∀ (s : State) (k : CbKind), takes s .cp → s.h.state ≠ .busyAddressingSubphase →
    completionKind s.h.operation = some k → quietNotice s k →
    ∃ t, eventAnswers s t ∧ t.h = { s.h with previousState := s.h.state, state := .ready }
      ∧ t.trace = s.trace ++ [.regRead s.h.periphRef .isr (s.nextAnswer .isr), .regWrite s.h.periphRef .icr 0x20]
          ++ notification s k ++ terminateAccesses s ++ [.answer s.port.inst .ok]
      ∧ SameOutside s t ∧ SameMemory s t ∧ SameCalls s t ∧ t.refusalMark = s.refusalMark

/-- 44_dispatcher.md R178: an invocation that takes no branch performs only its ISR read, answers Ok and writes nothing; it clears no
flag. While nothing is bound it performs no access at all. -/
def Obligations.EventWithoutBranch : Prop :=
  ∀ (s : State), s.inBody s.port.inst = false → s.midEvent s.port.inst = false →
    (s.h.bound = true → takenBranch s.h (s.nextAnswer .isr) = none →
      ∃ t, eventAnswers s t ∧ t.handles = s.handles
        ∧ t.trace = s.trace ++ [.regRead s.h.periphRef .isr (s.nextAnswer .isr), .answer s.port.inst .ok]
        ∧ (t.viewAt s.h.periphRef).isr = s.nextAnswer .isr
        ∧ SameOutside s t ∧ SameMemory s t ∧ SameCalls s t ∧ t.refusalMark = s.refusalMark)
    ∧ (s.h.bound = false → let t := { s with trace := s.trace ++ [.answer s.port.inst .ok] }
        eventAnswers s t)

/-- 44_dispatcher.md R179: one EVENT, with no callback body that issues commands: how many accesses of each kind at most; it fails to
complete only on a stuck host access. -/
def Obligations.EventIsBounded : Prop :=
  ∀ (s : State), s.script.bodies = [] →
    (∃ a, exec .event s = .fault (.hostAccessStuck a))
    ∨ ∃ t l, eventAnswers s t ∧ t.trace = s.trace ++ l
      ∧ l.countP (TraceItem.reads .isr) ≤ 1 ∧ l.countP (TraceItem.reads .rxdr) + l.countP (TraceItem.writes .txdr) ≤ 1
      ∧ l.countP TraceItem.touchesHost ≤ 1 ∧ l.countP (TraceItem.writes .icr) + l.countP (TraceItem.writes .cr2) ≤ 2
      ∧ l.countP (TraceItem.reads .cr1) ≤ 1 ∧ l.countP (TraceItem.writes .cr1) ≤ 1

/-- 60_exceptions.md R210, R203: EVENT issued by the callback body of an EVENT (the NotAcknowledged callback's or a completion callback's) to
the same instance is refused: the mark is set and the refusal put out between the notification and the interrupt disable, nothing else comes
of it, and the transfer ends as it would without it. -/
def Obligations.NestedEventRefused : Prop :=
  ∀ (s : State) (k : CbKind), callsBack s k → s.port.inst < s.params.nInst →
    s.script.nextBody = [.command s.port.inst [0x00000008]] →
    ∃ t, eventAnswers s t
      ∧ t.h = { s.h with error := endingError s.h k, previousState := s.h.state, state := .ready }
      ∧ t.trace = s.trace ++ endingAccesses s k ++ [.refused s.port.inst .nestedEvent] ++ terminateAccesses s
          ++ [.answer s.port.inst .ok]
      ∧ t.refusalMark = true ∧ SameOutside s t ∧ SameMemory s t ∧ SameCalls s t

/-- 40_framing.md R108, 70_reset_and_hazards.md R237: a transfer command issued by the callback body of an ending transfer (the
NotAcknowledged callback's or a completion callback's) to the same instance returns Busy with no access, and the transfer ends as it would
without it. -/
def Obligations.CallbackTransferReturnsBusy : Prop :=
  ∀ (s : State) (k : CbKind) (i : Instr) (buf : Word) (len : BitVec 8), callsBack s k →
    s.port.inst < s.params.nInst → s.script.nextBody = [.command s.port.inst (encode i)] →
    transferBuffer i = some (buf, len) → i.wellFormed = true → buf.toNat + len.toNat ≤ 2 ^ 32 →
    ∃ t, eventAnswers s t
      ∧ t.h = { s.h with error := endingError s.h k, previousState := s.h.state, state := .ready }
      ∧ t.trace = s.trace ++ endingAccesses s k ++ [.answer s.port.inst .busy] ++ terminateAccesses s ++ [.answer s.port.inst .ok]
      ∧ t.refusalMark = s.refusalMark ∧ SameOutside s t ∧ SameMemory s t ∧ SameCalls s t

/-- 40_framing.md R108, 60_exceptions.md R219: an EVENT that notifies runs the callback body from the state the notification leaves. Where the
body is one command other than EVENT, to any instance (SETCB, INIT, a transfer), the command is carried out there as exec carries it out, and
then the interrupt disable and Ready end the EVENT. Where the command arms a blocking transfer, the body waits for it and the EVENT is not over
(20_memory.md R60; entry 11). A body that does not return stops the step. -/
def Obligations.CallbackCommandsRun : Prop :=
  ∀ (s : State) (k : CbKind), callsBack s k →
    exec .event s = (bodyStart s k s.script.nextBody).runCallbacks
    ∧ (∀ (n : Nat) (i : Instr), s.script.nextBody = [.command n (encode i)] → i.wellFormed = true → i ≠ .event →
        n < s.params.nInst → s.midEvent n = false →
        let b := { bodyStart s k [] with port := ⟨n, .callback⟩ }
        let arms := fun u : State => b.h.blkStage = .idle ∧ u.h.blkStage ≠ .idle
        ∃ u, exec i b = .next u
          ∧ (¬ arms u → eventAnswers s (({ u with port := s.port, calls := s.calls } : State).terminate.answer .ok))
          ∧ (arms u → exec .event s
              = .next { u with calls := [], suspended := s.suspended ++ [⟨some n, ⟨s.port, []⟩ :: s.calls⟩] }))
    ∧ (∀ rest, s.script.nextBody = .neverReturns :: rest → exec .event s = .fault .callbackNeverReturns)

/-- 40_framing.md R108, 60_exceptions.md R203, R210: what the callback bodies that run do next, for each next step of the innermost. A command
is one atomic step of the instance it is delivered to, on the state as it stands; EVENT to an instance inside whose EVENT the body runs is
refused. The model's choice (entry 8): words of the wrong number for their opcode (too few, too many, none) are refused like the reserved
encodings of 30_encoding.md R75. The model's choice (entry 11): a body that armed a blocking transfer waits for it, and so does one with a
command for an instance inside an EVENT of which other bodies wait. -/
def Obligations.CallbackBodyStep : Prop :=
  ∀ (s : State) (p : Port) (rest : List BodyRun),
    (s.calls = [] → s.runCallbacks = .next s)
    ∧ (s.calls = ⟨p, []⟩ :: rest →
        s.runCallbacks = (({ s with port := p, calls := rest } : State).terminate.answer .ok).runCallbacks)
    ∧ ∀ (x : BodyStep) (left : List BodyStep), s.calls = ⟨p, x :: left⟩ :: rest → let t := { s with calls := ⟨p, left⟩ :: rest }
      (∀ a v, x = .hostStore a v → s.runCallbacks = State.runCallbacks { t with hostMem := Memory.store s.hostMem a v })
      ∧ (∀ a, x = .hostRelease a → s.runCallbacks = State.runCallbacks { t with hostMem := Memory.release s.hostMem a })
      ∧ (x = .neverReturns → s.runCallbacks = .fault .callbackNeverReturns)
      ∧ ∀ n ws, x = .command n ws →
        (s.midEvent n = true → s.runCallbacks = .next { s with calls := [], suspended := s.suspended ++ [⟨none, s.calls⟩] })
        ∧ (s.midEvent n = false → n < s.params.nInst → let c := { t with port := ⟨n, .callback⟩ }
          ((∀ i, decodeCommand ws ≠ .ok i) → s.runCallbacks
            = State.runCallbacks { c with refusalMark := true, trace := s.trace ++ [.refused n .reservedEncoding] })
          ∧ (decodeCommand ws = .ok .event → s.runCallbacks = exec .event c
            ∧ ((∃ r ∈ s.calls, r.port.inst = n) → s.runCallbacks
                = State.runCallbacks { c with refusalMark := true, trace := s.trace ++ [.refused n .nestedEvent] }))
          ∧ (∀ i, decodeCommand ws = .ok i → i ≠ .event → ∃ u, exec i c = .next u
            ∧ (c.h.blkStage = .idle ∧ u.h.blkStage ≠ .idle → s.runCallbacks
                = .next { u with calls := [], suspended := s.suspended ++ [⟨some n, ⟨p, left⟩ :: rest⟩] })
            ∧ (¬ (c.h.blkStage = .idle ∧ u.h.blkStage ≠ .idle) → s.runCallbacks = u.runCallbacks)))

/-! ## Steps of the agents -/

/-- 30_encoding.md R70, 20_memory.md R60, 60_exceptions.md R206: when the command first in the inbox decodes, it is the interrupt context's
or the foreground's while that is not waiting for a blocking transfer, and no EVENT of the instance it is delivered to is in progress, the
step is exec of it on that instance, the command taken from the inbox and nothing else done. That this holds of an EVENT delivered by the
foreground too is the model's choice (entry 17). -/
def Obligations.StepRunsDecodedCommand : Prop :=
  ∀ (s : State) (n : Nat) (ws : List Word) (rest : List Input) (i : Instr),
    n < s.params.nInst → decodeCommand ws = .ok i → s.midEvent n = false →
    (s.inbox = .foreground n ws :: rest → s.fgCall = none →
      Sys2Proof.Machine.step s = exec i { s with inbox := rest, port := ⟨n, .foreground⟩ })
    ∧ (s.inbox = .interrupt n ws :: rest →
      Sys2Proof.Machine.step s = exec i { s with inbox := rest, port := ⟨n, .interrupt⟩ })

/-- 00_scope.md R6, 20_memory.md R60: who steps while a blocking transfer is in progress. A foreground that waits for one issues nothing else:
its step is a BLKPOLL of that transfer, and its command stays in the inbox. At their turn callback bodies that wait poll the transfer they wait
for, or go on where it is over (entry 11); a command for an instance inside an EVENT of which bodies wait stays in the inbox, and those bodies
take their turn. The model's choice (entry 2): with no step offered, the first of the bodies that wait take their turn, else the first instance
with a blocking transfer in progress is polled, and where there is none nothing changes. -/
def Obligations.WaitingForegroundPolls : Prop :=
  ∀ (s : State) (m : Nat), m < s.params.nInst → let polled := blkPoll { s with port := ⟨m, .foreground⟩ }
    (∀ n ws rest, s.fgCall = some m → s.inbox = .foreground n ws :: rest → Sys2Proof.Machine.step s = polled)
    ∧ (s.inbox = [] → s.suspended = [] → s.pollable = some m → Sys2Proof.Machine.step s = polled)
    ∧ (s.inbox = [] → s.suspended = [] → s.pollable = none → Sys2Proof.Machine.step s = .next s)
    ∧ (s.inbox = [] → s.suspended ≠ [] → Sys2Proof.Machine.step s = bodyTurn 0 s)
    ∧ (∀ k rest, s.inbox = .callback k :: rest → Sys2Proof.Machine.step s = bodyTurn k { s with inbox := rest })
    ∧ (∀ n ws rest, s.midEvent n = true →
        (s.inbox = .interrupt n ws :: rest ∨ (s.inbox = .foreground n ws :: rest ∧ s.fgCall = none)) →
        ∃ k w, s.suspended[k]? = some w ∧ (∃ r ∈ w.runs, r.port.inst = n) ∧ Sys2Proof.Machine.step s = bodyTurn k s)
    ∧ (∀ k w, s.suspended[k]? = some w → (w.waits = some m → bodyTurn k s = polled)
        ∧ (w.waits = none → bodyTurn k s = State.runCallbacks { s with calls := w.runs, suspended := s.suspended.eraseIdx k }))

/-- 20_memory.md R61, R52: a host store is seen by every later read and changes no other byte and no handle. The model's choices (entry 5): a
host store allocates its byte, and a host release takes the allocation back, so that an access to the byte is refused from then on. -/
def Obligations.HostStoreIsSeen : Prop :=
  ∀ (s : State) (a : Word) (rest : List Input),
    (∀ v, s.inbox = .hostStore a v :: rest →
      ∃ t, Sys2Proof.Machine.step s = .next t ∧ Memory.byteAt t.hostMem a = some v ∧ SameMemoryBut a s t
        ∧ t.handles = s.handles ∧ t.trace = s.trace ∧ t.inbox = rest)
    ∧ (s.inbox = .hostRelease a :: rest →
      ∃ t, Sys2Proof.Machine.step s = .next t ∧ Memory.byteAt t.hostMem a = none ∧ SameMemoryBut a s t
        ∧ t.handles = s.handles ∧ t.trace = s.trace ∧ t.inbox = rest)

/-! ## Reset and invariants -/

/-- 70_reset_and_hazards.md R230: power-on: every field of every instance, no command in progress, the refusal mark clear, no access;
the machine then waits for a command. -/
def Obligations.PowerOnState : Prop :=
  (∀ n, State.reset.handleAt n =
    { bound := false, periphRef := 0, state := .ready, previousState := .ready, operation := .write, devAddr := 0, regAddr := 0,
      regWidth := 0, bufBase := 0, len := 0, offsetCount := 0, dataCount := 0, error := .none, blkStage := .idle, pollCount := 0,
      cb := ⟨⟨false, false, 0⟩, ⟨false, false, 0⟩, ⟨false, false, 0⟩, ⟨false, false, 0⟩, ⟨false, false, 0⟩⟩ })
  ∧ State.reset.refusalMark = false ∧ State.reset.trace = [] ∧ State.reset.fgCall = none
  ∧ State.reset.calls = [] ∧ State.reset.suspended = [] ∧ Sys2Proof.Machine.step State.reset = .next State.reset

/-- 70_reset_and_hazards.md R230: power-on of one instance during a run: its handle and no other, no command of it in progress (nobody
waits for a transfer of it, no EVENT of it is left), no access. The model's choices (entry 10): the refusal mark stays, the bodies of an EVENT of
it are dropped, and bodies of other instances that wait stay. -/
def Obligations.PowerOnStepResetsOneInstance : Prop :=
  ∀ (s : State) (n : Nat) (rest : List Input), s.inbox = .powerOn n :: rest → n < s.params.nInst →
    ∃ t, Sys2Proof.Machine.step s = .next t ∧ t.handleAt n = Handle.powerOn ∧ (∀ m, m ≠ n → t.handleAt m = s.handleAt m)
      ∧ t.fgCall = (if s.fgCall = some n then none else s.fgCall)
      ∧ t.midEvent n = false ∧ (∀ w ∈ t.suspended, w.waits ≠ some n)
      ∧ (∀ w ∈ s.suspended, w.waits ≠ some n → w.runs ≠ [] → (∀ r ∈ w.runs, r.port.inst ≠ n) → w ∈ t.suspended)
      ∧ t.views = s.views ∧ t.trace = s.trace ∧ SameMemory s t ∧ t.refusalMark = s.refusalMark ∧ t.inbox = rest

/-- The invariant of the machine holds at power-on. -/
def Obligations.ResetMeetsInvariant : Prop := State.reset.Inv

/-- 10_state.md R38, R20, 20_memory.md R60: from every state that meets the invariant, a step of any agent, with any environment and
any callback bodies, gives a state that meets it. -/
def Obligations.StepKeepsInvariant : Prop :=
  ∀ (s t : State), s.Inv → Sys2Proof.Machine.step s = .next t → t.Inv

/-- 10_state.md R38: every state reachable from power-on, with any parameters, environment and steps of the agents, satisfies its six
points, in every instance. -/
def Obligations.ReachableStatesSatisfyR38 : Prop :=
  ∀ (s t : State) (n : Nat), s.Start → Reaches s t → let h := t.handleAt n
    (h.blkStage ≠ .idle ↔ h.state ≠ .ready ∧ (h.operation = .write ∨ h.operation = .read))
    ∧ (h.state = .busyAddressingSubphase → (h.operation = .memoryWrite ∨ h.operation = .memoryRead)
        ∧ 1 ≤ h.regWidth.toNat ∧ h.regWidth.toNat ≤ 4 ∧ h.dataCount = 0)
    ∧ (h.state = .busyTransmitting → h.operation = .write ∨ h.operation = .writeAsync ∨ h.operation = .memoryWrite)
    ∧ (h.state = .busyReceiving → h.operation = .read ∨ h.operation = .readAsync ∨ h.operation = .memoryRead)
    ∧ (h.state ≠ .ready → 1 ≤ h.len.toNat ∧ h.len.toNat ≤ 255 ∧ h.offsetCount.toNat ≤ h.regWidth.toNat
        ∧ h.dataCount.toNat ≤ h.len.toNat ∧ h.bound = true)
    ∧ ((h.operation = .memoryWrite ∨ h.operation = .memoryRead) → (h.state = .busyTransmitting ∨ h.state = .busyReceiving) →
        h.offsetCount.toNat ≤ h.regWidth.toNat)
    ∧ h.error ≠ .busy

/-- 60_exceptions.md R203: no step clears the refusal mark, and no step takes back what was put out. That a power-on of an instance during a
run keeps the mark, where 70_reset_and_hazards.md R230 says that it is clear at power-on, is the model's choice (entry 10); that what was put
out is kept as a record is the model's own too (entry 12). -/
def Obligations.StepOnlyAdds : Prop :=
  ∀ (s t : State), Sys2Proof.Machine.step s = .next t →
    (s.refusalMark = true → t.refusalMark = true) ∧ (∃ l, t.trace = s.trace ++ l) ∧ t.params = s.params

/-- 20_memory.md R55, R56, as the model records them (entry 7): the register view of every peripheral after a step, whatever callback bodies
ran in it, is what the step's register accesses, in their order, leave in the view before. The view is a record of the block's accesses: by
10_state.md R39 the peripheral sets its flags itself, at times the block does not control, and every read takes a fresh answer (R57), never
one from the view. -/
def Obligations.ViewsAreWhatAccessesLeave : Prop :=
  ∀ (s t : State), Sys2Proof.Machine.step s = .next t →
    ∃ l, t.trace = s.trace ++ l ∧ ∀ p, t.viewAt p = l.foldl (TraceItem.leavesIn p) (s.viewAt p)

/-- 00_scope.md R7: "instances share no state": a command, and a poll, of one instance leaves every other instance's handle alone,
where no callback body issues commands of its own. -/
def Obligations.InstancesShareNoState : Prop :=
  ∀ (i : Instr) (s t : State) (n : Nat), n ≠ s.port.inst → s.calls = [] → s.script.bodies = [] →
    (exec i s = .next t ∨ blkPoll s = .next t) → t.handleAt n = s.handleAt n

/-- 43_async.md R155: every change of State by a command is a row of the transition table, with its trigger (for EVENT the branch its status
word makes it take) and its guard (for a transfer command that CheckIdle passes on that word), where no callback body issues commands of its
own; a change by a poll leads from BusyTransmitting or BusyReceiving to Ready, for a blocking Operation. -/
def Obligations.StateChangesAreTableRows : Prop :=
  ∀ (i : Instr) (s t : State), s.Inv → s.script.bodies = [] →
    (exec i s = .next t → t.h.state = s.h.state ∨ transitionRow s.h (s.nextAnswer .isr) i t.h.state)
    ∧ (blkPoll s = .next t → t.h.state = s.h.state
        ∨ ((s.h.state = .busyTransmitting ∨ s.h.state = .busyReceiving) ∧ s.h.operation.isBlocking = true ∧ t.h.state = .ready))

/-- 20_memory.md R51: the block writes host memory only inside the buffer of the transfer in flight, where no callback body stores of
its own. -/
def Obligations.BlockWritesOnlyItsBuffer : Prop :=
  ∀ (i : Instr) (s t : State) (a : Word), s.Inv → s.script.bodies = [] →
    (exec i s = .next t ∨ blkPoll s = .next t) → Memory.byteAt t.hostMem a ≠ Memory.byteAt s.hostMem a →
    s.h.state = .busyReceiving ∧ s.h.bufBase.toNat ≤ a.toNat ∧ a.toNat ≤ s.h.bufBase.toNat + s.h.len.toNat - 1
      ∧ a.toNat = s.h.bufBase.toNat + s.h.dataCount.toNat

/-- 44_dispatcher.md R180: after the NACK branch the transfer is over: whatever status words later invocations read, they move no byte,
notify nobody and leave the handle alone, until a command other than EVENT is carried out. -/
def Obligations.NackEndsByteTraffic : Prop :=
  ∀ (s t u : State) (v : Word), takes s .nack → s.calls = [] → s.script.bodies = [] → exec .event s = .next t →
    u.port = t.port → u.handles = t.handles → u.calls = [] → u.midEvent u.port.inst = false → u.nextAnswer .isr = v →
    ∃ x, exec .event u = .next x ∧ x.handles = u.handles ∧ SameMemory u x
      ∧ x.trace = u.trace ++ [.regRead u.h.periphRef .isr v, .answer u.port.inst .ok]

/-- 20_memory.md R57: "The block's rules depend on the returned value only through the predicates of 30_encoding.md rule R90": two
status words that agree in the five predicates lead every command, and a poll, to the same outcome: the same handles, memory, refusal mark and
waits, and the same accesses, notifications and results put out beside the status word itself; and to the same fault. -/
def Obligations.OnlyTheFiveFlagsMatter : Prop :=
  ∀ (s : State) (v w : Word) (l : List Word) (i : Instr),
    v.getLsbD 1 = w.getLsbD 1 → v.getLsbD 2 = w.getLsbD 2 → v.getLsbD 4 = w.getLsbD 4 → v.getLsbD 15 = w.getLsbD 15 →
    (v.getLsbD 5 || v.getLsbD 6 || v.getLsbD 7) = (w.getLsbD 5 || w.getLsbD 6 || w.getLsbD 7) →
    s.calls = [] → s.script.bodies = [] →
    let a : State := { s with script := { s.script with isr := v :: l } }
    let b : State := { s with script := { s.script with isr := w :: l } }
    let same := fun o p : Out =>
      (∀ t, o = .next t → ∃ u, p = .next u ∧ u.handles = t.handles ∧ u.hostMem = t.hostMem ∧ u.refusalMark = t.refusalMark
        ∧ u.fgCall = t.fgCall ∧ u.suspended = t.suspended ∧ u.calls = t.calls
        ∧ u.trace.map TraceItem.blindStatus = t.trace.map TraceItem.blindStatus)
      ∧ ∀ f, o = .fault f → p = .fault f
    same (exec i a) (exec i b) ∧ same (blkPoll a) (blkPoll b)
end

