-- ==== Sys2Proof/Laws/Assembler.lean ====
section
/-! SUPPORT. What the assembler reads from a line that is a mnemonic, a blank and operands between commas, all of characters with no
meaning of their own in a line. -/

namespace Sys2Proof.Machine

/-- A text with no blank, no comma and no comment sign, and not empty: a mnemonic, a number, a kind. -/
def CleanText (cs : List Char) : Prop := cs ≠ [] ∧ ∀ c ∈ cs, asmBlank c = false ∧ c ≠ ',' ∧ c ≠ ';'

/-! ## Numbers are clean -/

theorem asmDigit_clean {c : Char} {d : Nat} (h : asmDigit c = some d) : asmBlank c = false ∧ c ≠ ',' ∧ c ≠ ';' := by
  refine ⟨?_, ?_, ?_⟩
  · unfold asmBlank
    rw [Bool.or_eq_false_iff]
    constructor <;> (rw [beq_eq_false_iff_ne]; rintro rfl; revert h; simp [asmDigit])
  · rintro rfl; revert h; simp [asmDigit]
  · rintro rfl; revert h; simp [asmDigit]

theorem asmDigits_clean (b : Nat) : ∀ (cs : List Char) (acc n : Nat), asmDigits b acc cs = some n →
    ∀ c ∈ cs, asmBlank c = false ∧ c ≠ ',' ∧ c ≠ ';' := by
  intro cs
  induction cs with
  | nil => intro _ _ _ c hc; cases hc
  | cons x t ih =>
    intro acc n h
    simp only [asmDigits] at h
    split at h
    · rename_i d hd
      split at h
      · intro c hc
        rcases List.mem_cons.1 hc with rfl | hc
        · exact asmDigit_clean hd
        · exact ih _ _ h c hc
      · cases h
    · cases h

/-- A number's text is clean. -/
theorem asmNumber_clean {cs : List Char} {n : Nat} (h : asmNumber cs = some n) : CleanText cs := by
  unfold asmNumber at h
  split at h
  · cases h
  · refine ⟨by simp, fun c hc => ?_⟩
    rcases List.mem_cons.1 hc with rfl | hc
    · decide
    · rcases List.mem_cons.1 hc with rfl | hc
      · decide
      · exact asmDigits_clean 16 _ _ _ h c hc
  · rename_i hne _
    exact ⟨fun e => hne e, asmDigits_clean 10 _ _ _ h⟩

/-- A kind's text is clean. -/
theorem kindText_clean {cs : List Char} {n : Nat} (h : kindText cs n) : CleanText cs := by
  rcases h with ⟨rfl, _⟩ | ⟨rfl, _⟩ | ⟨rfl, _⟩ | ⟨rfl, _⟩ | ⟨rfl, _⟩ | h
  · exact ⟨by decide, by simp [asmBlank]⟩
  · exact ⟨by decide, by simp [asmBlank]⟩
  · exact ⟨by decide, by simp [asmBlank]⟩
  · exact ⟨by decide, by simp [asmBlank]⟩
  · exact ⟨by decide, by simp [asmBlank]⟩
  · exact asmNumber_clean h

/-! ## Trimming and splitting -/

theorem asmTrim_clean {cs : List Char} (h : CleanText cs) : asmTrim cs = cs := by
  have front : ∀ l : List Char, (∀ c ∈ l, asmBlank c = false) → l.dropWhile asmBlank = l := by
    intro l hl
    cases l with
    | nil => rfl
    | cons x t => simp [hl x]
  have hb : ∀ c ∈ cs, asmBlank c = false := fun c hc => (h.2 c hc).1
  unfold asmTrim
  rw [front cs hb, front cs.reverse fun c hc => hb c (List.mem_reverse.1 hc), List.reverse_reverse]

/-- Blanks in front of a text that ends in no blank are trimmed. -/
theorem asmTrim_blank_cons (cs : List Char) : asmTrim (' ' :: cs) = asmTrim cs := by
  simp [asmTrim, asmBlank]

theorem asmParts_append {a : List Char} (h : ∀ c ∈ a, c ≠ ',') (b : List Char) :
    asmParts (a ++ ',' :: b) = a :: asmParts b := by
  induction a with
  | nil => simp [asmParts]
  | cons x t ih =>
    have hx : (x == ',') = false := by simpa using h x List.mem_cons_self
    simp [asmParts, hx, ih fun c hc => h c (List.mem_cons_of_mem _ hc)]

theorem asmParts_single {a : List Char} (h : ∀ c ∈ a, c ≠ ',') : asmParts a = [a] := by
  induction a with
  | nil => rfl
  | cons x t ih =>
    have hx : (x == ',') = false := by simpa using h x List.mem_cons_self
    simp [asmParts, hx, ih fun c hc => h c (List.mem_cons_of_mem _ hc)]

theorem intercalate_comma_cons (a b : List Char) (l : List (List Char)) :
    List.intercalate [','] (a :: b :: l) = a ++ ',' :: List.intercalate [','] (b :: l) := by
  simp [List.intercalate, List.intersperse]

/-- The operands of a line come apart at the commas. -/
theorem asmParts_intercalate : ∀ (a : List Char) (l : List (List Char)), (∀ x ∈ a :: l, ∀ c ∈ x, c ≠ ',') →
    asmParts (List.intercalate [','] (a :: l)) = a :: l := by
  intro a l
  induction l generalizing a with
  | nil =>
    intro h
    have : List.intercalate [','] [a] = a := by simp [List.intercalate, List.intersperse]
    rw [this]
    exact asmParts_single (h a List.mem_cons_self)
  | cons b l ih =>
    intro h
    rw [intercalate_comma_cons, asmParts_append (h a List.mem_cons_self), ih b fun x hx => h x (List.mem_cons_of_mem _ hx)]

/-- A text between two clean ones has no blank at either end. -/
theorem asmTrim_between {a b : List Char} (ha : CleanText a) (hb : CleanText b) (z : List Char) :
    asmTrim (a ++ z ++ b) = a ++ z ++ b := by
  obtain ⟨x, a, rfl⟩ := List.exists_cons_of_ne_nil ha.1
  obtain ⟨y, b', hy⟩ := List.exists_cons_of_ne_nil (mt List.reverse_eq_nil_iff.1 hb.1)
  have hx := (ha.2 x List.mem_cons_self).1
  have hyb := (hb.2 y (List.mem_reverse.1 (hy ▸ List.mem_cons_self))).1
  have h1 : (x :: a ++ z ++ b).dropWhile asmBlank = x :: a ++ z ++ b := by simp [hx]
  unfold asmTrim
  rw [h1, List.reverse_append, hy, List.cons_append, List.dropWhile_cons_of_neg (by simp [hyb]), ← List.cons_append, ← hy,
    ← List.reverse_append, List.reverse_reverse]

/-- The operands between commas end in a clean text. -/
theorem intercalate_ends : ∀ (a : List Char) (l : List (List Char)), (∀ x ∈ a :: l, CleanText x) →
    ∃ z b, CleanText b ∧ List.intercalate [','] (a :: l) = z ++ b := by
  intro a l
  induction l generalizing a with
  | nil => exact fun h => ⟨[], a, h a List.mem_cons_self, by simp [List.intercalate, List.intersperse]⟩
  | cons b l ih =>
    intro h
    obtain ⟨z, e, he, hz⟩ := ih b fun x hx => h x (List.mem_cons_of_mem _ hx)
    exact ⟨a ++ ',' :: z, e, he, by rw [intercalate_comma_cons, hz]; simp⟩

theorem intercalate_no_comment : ∀ (l : List (List Char)), (∀ x ∈ l, CleanText x) →
    ∀ c ∈ List.intercalate [','] l, c ≠ ';' := by
  intro l
  induction l with
  | nil => intro _ c hc; cases hc
  | cons a l ih =>
    intro h c hc
    cases l with
    | nil =>
      have : List.intercalate [','] [a] = a := by simp [List.intercalate, List.intersperse]
      rw [this] at hc
      exact ((h a List.mem_cons_self).2 c hc).2.2
    | cons b l =>
      rw [intercalate_comma_cons] at hc
      rcases List.mem_append.1 hc with hc | hc
      · exact ((h a List.mem_cons_self).2 c hc).2.2
      · rcases List.mem_cons.1 hc with rfl | hc
        · decide
        · exact ih (fun x hx => h x (List.mem_cons_of_mem _ hx)) c hc

/-! ## A line -/

/-- The operands of a line, read behind the blank after the mnemonic. -/
theorem asmOperands_intercalate {a : List Char} {l : List (List Char)} (h : ∀ x ∈ a :: l, CleanText x) :
    asmOperands (' ' :: List.intercalate [','] (a :: l)) = a :: l := by
  have ha := h a List.mem_cons_self
  have hne : (asmTrim (' ' :: List.intercalate [','] (a :: l))).isEmpty = false := by
    rw [asmTrim_blank_cons]
    cases l with
    | nil =>
      have : List.intercalate [','] [a] = a := by simp [List.intercalate, List.intersperse]
      rw [this, asmTrim_clean ha]
      simpa using ha.1
    | cons b l =>
      obtain ⟨z, e, he, hz⟩ := intercalate_ends b l fun x hx => h x (List.mem_cons_of_mem _ hx)
      rw [intercalate_comma_cons, hz]
      have e1 : a ++ ',' :: (z ++ e) = a ++ (',' :: z) ++ e := by simp
      rw [e1, asmTrim_between ha he]
      simp [ha.1]
  have hp : asmParts (' ' :: List.intercalate [','] (a :: l)) = (' ' :: a) :: l := by
    rw [asmParts, asmParts_intercalate a l fun x hx c hc => ((h x hx).2 c hc).2.1]
    simp
  unfold asmOperands
  rw [if_neg (by simp [hne]), hp, List.map_cons, asmTrim_blank_cons, asmTrim_clean ha]
  congr 1
  exact List.map_congr_left (fun x hx => asmTrim_clean (h x (List.mem_cons_of_mem _ hx))) |>.trans (List.map_id _)

/-- A line of a mnemonic and operands, all clean, is read as that mnemonic and those operands. -/
theorem assembleLine_asmLine {m : List Char} {ops : List (List Char)} (hm : CleanText m) (ho : ∀ x ∈ ops, CleanText x) :
    assembleLine (asmLine m ops) = asmWords (asmInstr m ops) := by
  have hcode : asmCode (asmLine m ops) = asmLine m ops := by
    unfold asmCode
    rw [List.takeWhile_eq_self_iff]
    intro c hc
    have : c ≠ ';' := by
      rcases List.mem_append.1 hc with hc | hc
      · exact (hm.2 c hc).2.2
      · rcases List.mem_cons.1 hc with rfl | hc
        · decide
        · exact intercalate_no_comment ops ho c hc
    simpa using this
  have htake : ∀ r, (m ++ ' ' :: r).takeWhile (fun c => !asmBlank c) = m ∧ (m ++ ' ' :: r).dropWhile (fun c => !asmBlank c) = ' ' :: r := by
    intro r
    have hb : ∀ c ∈ m, (!asmBlank c) = true := fun c hc => by simp [(hm.2 c hc).1]
    rw [List.takeWhile_append_of_pos hb, List.dropWhile_append_of_pos hb]
    simp [asmBlank]
  have hsplit : asmTrim (asmLine m ops) ≠ [] ∧ (asmSplit (asmLine m ops)).1 = m
      ∧ asmOperands (asmSplit (asmLine m ops)).2 = ops := by
    cases ops with
    | nil =>
      have ht : asmTrim (asmLine m []) = m := by
        have h0 := asmTrim_clean hm
        obtain ⟨x, a, rfl⟩ := List.exists_cons_of_ne_nil hm.1
        have hx := (hm.2 x List.mem_cons_self).1
        unfold asmTrim at h0 ⊢
        rw [List.dropWhile_cons_of_neg (by simp [hx])] at h0
        show (((x :: a ++ [' ']).dropWhile asmBlank).reverse.dropWhile asmBlank).reverse = _
        rw [List.cons_append, List.dropWhile_cons_of_neg (by simp [hx]), ← List.cons_append, List.reverse_append]
        simpa [asmBlank] using h0
      have hb : ∀ c ∈ m, (!asmBlank c) = true := fun c hc => by simp [(hm.2 c hc).1]
      refine ⟨by rw [ht]; exact hm.1, ?_, ?_⟩
      · simp only [asmSplit, ht]
        exact List.takeWhile_eq_self_iff.2 hb
      · simp only [asmSplit, ht]
        rw [List.dropWhile_eq_nil_iff.2 hb]
        rfl
    | cons a l =>
      obtain ⟨z, e, he, hz⟩ := intercalate_ends a l ho
      have hl : asmLine m (a :: l) = m ++ (' ' :: z) ++ e := by simp [asmLine, hz]
      have ht : asmTrim (asmLine m (a :: l)) = asmLine m (a :: l) := by rw [hl, asmTrim_between hm he]
      refine ⟨by rw [ht, hl]; simp [hm.1], ?_, ?_⟩
      · simp only [asmSplit, ht]
        exact (htake _).1
      · simp only [asmSplit, ht]
        rw [show (asmLine m (a :: l)).dropWhile (fun c => !asmBlank c) = ' ' :: List.intercalate [','] (a :: l) from (htake _).2]
        exact asmOperands_intercalate ho
  unfold assembleLine
  rw [hcode, if_neg (by simpa using hsplit.1), hsplit.2.1, hsplit.2.2]

/-! ## Operands -/

/-- A number that fits its field is in it. -/
theorem asmField_fits {cs : List Char} {n w : Nat} (h : asmNumber cs = some n) (hn : n < 2 ^ w) :
    asmField w cs = .ok (BitVec.ofNat w n) := by
  simp [asmField, h, hn]

/-- A number that does not fit its field is refused. -/
theorem asmField_overflow {cs : List Char} {n w : Nat} (h : asmNumber cs = some n) (hn : ¬ n < 2 ^ w) :
    asmField w cs = .error .doesNotFit := by
  simp only [asmField, h, if_neg hn]

end Sys2Proof.Machine
end

