-- ==== Sys2Proof/Laws/State.lean ====
section
/-! SUPPORT. What each update of the state leaves in each field it does not write, and the trace it leaves: one lemma per field per
update, true by unfolding, so that no later proof unfolds a record update. -/

namespace Sys2Proof.Machine

variable (s : State)

@[simp] theorem State.setHandleAt_params (n : Nat) (h : Handle) : (s.setHandleAt n h).params = s.params := rfl
@[simp] theorem State.setHandleAt_views (n : Nat) (h : Handle) : (s.setHandleAt n h).views = s.views := rfl
@[simp] theorem State.setHandleAt_hostMem (n : Nat) (h : Handle) : (s.setHandleAt n h).hostMem = s.hostMem := rfl
@[simp] theorem State.setHandleAt_refusalMark (n : Nat) (h : Handle) : (s.setHandleAt n h).refusalMark = s.refusalMark := rfl
@[simp] theorem State.setHandleAt_script (n : Nat) (h : Handle) : (s.setHandleAt n h).script = s.script := rfl
@[simp] theorem State.setHandleAt_draws (n : Nat) (h : Handle) : (s.setHandleAt n h).draws = s.draws := rfl
@[simp] theorem State.setHandleAt_inbox (n : Nat) (h : Handle) : (s.setHandleAt n h).inbox = s.inbox := rfl
@[simp] theorem State.setHandleAt_port (n : Nat) (h : Handle) : (s.setHandleAt n h).port = s.port := rfl
@[simp] theorem State.setHandleAt_calls (n : Nat) (h : Handle) : (s.setHandleAt n h).calls = s.calls := rfl
@[simp] theorem State.setHandleAt_suspended (n : Nat) (h : Handle) : (s.setHandleAt n h).suspended = s.suspended := rfl
@[simp] theorem State.setHandleAt_fgCall (n : Nat) (h : Handle) : (s.setHandleAt n h).fgCall = s.fgCall := rfl
@[simp] theorem State.setHandleAt_trace (n : Nat) (h : Handle) : (s.setHandleAt n h).trace = s.trace := rfl

@[simp] theorem State.modifyH_params (f : Handle → Handle) : (s.modifyH f).params = s.params := rfl
@[simp] theorem State.modifyH_views (f : Handle → Handle) : (s.modifyH f).views = s.views := rfl
@[simp] theorem State.modifyH_hostMem (f : Handle → Handle) : (s.modifyH f).hostMem = s.hostMem := rfl
@[simp] theorem State.modifyH_refusalMark (f : Handle → Handle) : (s.modifyH f).refusalMark = s.refusalMark := rfl
@[simp] theorem State.modifyH_script (f : Handle → Handle) : (s.modifyH f).script = s.script := rfl
@[simp] theorem State.modifyH_draws (f : Handle → Handle) : (s.modifyH f).draws = s.draws := rfl
@[simp] theorem State.modifyH_inbox (f : Handle → Handle) : (s.modifyH f).inbox = s.inbox := rfl
@[simp] theorem State.modifyH_port (f : Handle → Handle) : (s.modifyH f).port = s.port := rfl
@[simp] theorem State.modifyH_calls (f : Handle → Handle) : (s.modifyH f).calls = s.calls := rfl
@[simp] theorem State.modifyH_suspended (f : Handle → Handle) : (s.modifyH f).suspended = s.suspended := rfl
@[simp] theorem State.modifyH_fgCall (f : Handle → Handle) : (s.modifyH f).fgCall = s.fgCall := rfl
@[simp] theorem State.modifyH_trace (f : Handle → Handle) : (s.modifyH f).trace = s.trace := rfl

@[simp] theorem State.setState_params (st : BusState) : (s.setState st).params = s.params := rfl
@[simp] theorem State.setState_views (st : BusState) : (s.setState st).views = s.views := rfl
@[simp] theorem State.setState_hostMem (st : BusState) : (s.setState st).hostMem = s.hostMem := rfl
@[simp] theorem State.setState_refusalMark (st : BusState) : (s.setState st).refusalMark = s.refusalMark := rfl
@[simp] theorem State.setState_script (st : BusState) : (s.setState st).script = s.script := rfl
@[simp] theorem State.setState_draws (st : BusState) : (s.setState st).draws = s.draws := rfl
@[simp] theorem State.setState_inbox (st : BusState) : (s.setState st).inbox = s.inbox := rfl
@[simp] theorem State.setState_port (st : BusState) : (s.setState st).port = s.port := rfl
@[simp] theorem State.setState_calls (st : BusState) : (s.setState st).calls = s.calls := rfl
@[simp] theorem State.setState_suspended (st : BusState) : (s.setState st).suspended = s.suspended := rfl
@[simp] theorem State.setState_fgCall (st : BusState) : (s.setState st).fgCall = s.fgCall := rfl
@[simp] theorem State.setState_trace (st : BusState) : (s.setState st).trace = s.trace := rfl

@[simp] theorem State.log_params (x : TraceItem) : (s.log x).params = s.params := rfl
@[simp] theorem State.log_handles (x : TraceItem) : (s.log x).handles = s.handles := rfl
@[simp] theorem State.log_views (x : TraceItem) : (s.log x).views = s.views := rfl
@[simp] theorem State.log_hostMem (x : TraceItem) : (s.log x).hostMem = s.hostMem := rfl
@[simp] theorem State.log_refusalMark (x : TraceItem) : (s.log x).refusalMark = s.refusalMark := rfl
@[simp] theorem State.log_script (x : TraceItem) : (s.log x).script = s.script := rfl
@[simp] theorem State.log_draws (x : TraceItem) : (s.log x).draws = s.draws := rfl
@[simp] theorem State.log_inbox (x : TraceItem) : (s.log x).inbox = s.inbox := rfl
@[simp] theorem State.log_port (x : TraceItem) : (s.log x).port = s.port := rfl
@[simp] theorem State.log_calls (x : TraceItem) : (s.log x).calls = s.calls := rfl
@[simp] theorem State.log_suspended (x : TraceItem) : (s.log x).suspended = s.suspended := rfl
@[simp] theorem State.log_fgCall (x : TraceItem) : (s.log x).fgCall = s.fgCall := rfl

@[simp] theorem State.answer_params (r : Result) : (s.answer r).params = s.params := rfl
@[simp] theorem State.answer_handles (r : Result) : (s.answer r).handles = s.handles := rfl
@[simp] theorem State.answer_views (r : Result) : (s.answer r).views = s.views := rfl
@[simp] theorem State.answer_hostMem (r : Result) : (s.answer r).hostMem = s.hostMem := rfl
@[simp] theorem State.answer_refusalMark (r : Result) : (s.answer r).refusalMark = s.refusalMark := rfl
@[simp] theorem State.answer_script (r : Result) : (s.answer r).script = s.script := rfl
@[simp] theorem State.answer_draws (r : Result) : (s.answer r).draws = s.draws := rfl
@[simp] theorem State.answer_inbox (r : Result) : (s.answer r).inbox = s.inbox := rfl
@[simp] theorem State.answer_port (r : Result) : (s.answer r).port = s.port := rfl
@[simp] theorem State.answer_calls (r : Result) : (s.answer r).calls = s.calls := rfl
@[simp] theorem State.answer_suspended (r : Result) : (s.answer r).suspended = s.suspended := rfl
@[simp] theorem State.answer_fgCall (r : Result) : (s.answer r).fgCall = s.fgCall := rfl

@[simp] theorem State.refuse_params (w : RefuseReason) : (s.refuse w).params = s.params := rfl
@[simp] theorem State.refuse_handles (w : RefuseReason) : (s.refuse w).handles = s.handles := rfl
@[simp] theorem State.refuse_views (w : RefuseReason) : (s.refuse w).views = s.views := rfl
@[simp] theorem State.refuse_hostMem (w : RefuseReason) : (s.refuse w).hostMem = s.hostMem := rfl
@[simp] theorem State.refuse_script (w : RefuseReason) : (s.refuse w).script = s.script := rfl
@[simp] theorem State.refuse_draws (w : RefuseReason) : (s.refuse w).draws = s.draws := rfl
@[simp] theorem State.refuse_inbox (w : RefuseReason) : (s.refuse w).inbox = s.inbox := rfl
@[simp] theorem State.refuse_port (w : RefuseReason) : (s.refuse w).port = s.port := rfl
@[simp] theorem State.refuse_calls (w : RefuseReason) : (s.refuse w).calls = s.calls := rfl
@[simp] theorem State.refuse_suspended (w : RefuseReason) : (s.refuse w).suspended = s.suspended := rfl
@[simp] theorem State.refuse_fgCall (w : RefuseReason) : (s.refuse w).fgCall = s.fgCall := rfl

@[simp] theorem State.setViewAt_params (p : BitVec 8) (v : PeriphView) : (s.setViewAt p v).params = s.params := rfl
@[simp] theorem State.setViewAt_handles (p : BitVec 8) (v : PeriphView) : (s.setViewAt p v).handles = s.handles := rfl
@[simp] theorem State.setViewAt_hostMem (p : BitVec 8) (v : PeriphView) : (s.setViewAt p v).hostMem = s.hostMem := rfl
@[simp] theorem State.setViewAt_refusalMark (p : BitVec 8) (v : PeriphView) : (s.setViewAt p v).refusalMark = s.refusalMark := rfl
@[simp] theorem State.setViewAt_script (p : BitVec 8) (v : PeriphView) : (s.setViewAt p v).script = s.script := rfl
@[simp] theorem State.setViewAt_draws (p : BitVec 8) (v : PeriphView) : (s.setViewAt p v).draws = s.draws := rfl
@[simp] theorem State.setViewAt_inbox (p : BitVec 8) (v : PeriphView) : (s.setViewAt p v).inbox = s.inbox := rfl
@[simp] theorem State.setViewAt_port (p : BitVec 8) (v : PeriphView) : (s.setViewAt p v).port = s.port := rfl
@[simp] theorem State.setViewAt_calls (p : BitVec 8) (v : PeriphView) : (s.setViewAt p v).calls = s.calls := rfl
@[simp] theorem State.setViewAt_suspended (p : BitVec 8) (v : PeriphView) : (s.setViewAt p v).suspended = s.suspended := rfl
@[simp] theorem State.setViewAt_fgCall (p : BitVec 8) (v : PeriphView) : (s.setViewAt p v).fgCall = s.fgCall := rfl
@[simp] theorem State.setViewAt_trace (p : BitVec 8) (v : PeriphView) : (s.setViewAt p v).trace = s.trace := rfl

@[simp] theorem State.afterPrd_params (r : PReg) : (s.afterPrd r).params = s.params := rfl
@[simp] theorem State.afterPrd_handles (r : PReg) : (s.afterPrd r).handles = s.handles := rfl
@[simp] theorem State.afterPrd_hostMem (r : PReg) : (s.afterPrd r).hostMem = s.hostMem := rfl
@[simp] theorem State.afterPrd_refusalMark (r : PReg) : (s.afterPrd r).refusalMark = s.refusalMark := rfl
@[simp] theorem State.afterPrd_inbox (r : PReg) : (s.afterPrd r).inbox = s.inbox := rfl
@[simp] theorem State.afterPrd_port (r : PReg) : (s.afterPrd r).port = s.port := rfl
@[simp] theorem State.afterPrd_calls (r : PReg) : (s.afterPrd r).calls = s.calls := rfl
@[simp] theorem State.afterPrd_suspended (r : PReg) : (s.afterPrd r).suspended = s.suspended := rfl
@[simp] theorem State.afterPrd_fgCall (r : PReg) : (s.afterPrd r).fgCall = s.fgCall := rfl

@[simp] theorem State.pwr_params (r : PReg) (v : Word) : (s.pwr r v).params = s.params := rfl
@[simp] theorem State.pwr_handles (r : PReg) (v : Word) : (s.pwr r v).handles = s.handles := rfl
@[simp] theorem State.pwr_hostMem (r : PReg) (v : Word) : (s.pwr r v).hostMem = s.hostMem := rfl
@[simp] theorem State.pwr_refusalMark (r : PReg) (v : Word) : (s.pwr r v).refusalMark = s.refusalMark := rfl
@[simp] theorem State.pwr_script (r : PReg) (v : Word) : (s.pwr r v).script = s.script := rfl
@[simp] theorem State.pwr_draws (r : PReg) (v : Word) : (s.pwr r v).draws = s.draws := rfl
@[simp] theorem State.pwr_inbox (r : PReg) (v : Word) : (s.pwr r v).inbox = s.inbox := rfl
@[simp] theorem State.pwr_port (r : PReg) (v : Word) : (s.pwr r v).port = s.port := rfl
@[simp] theorem State.pwr_calls (r : PReg) (v : Word) : (s.pwr r v).calls = s.calls := rfl
@[simp] theorem State.pwr_suspended (r : PReg) (v : Word) : (s.pwr r v).suspended = s.suspended := rfl
@[simp] theorem State.pwr_fgCall (r : PReg) (v : Word) : (s.pwr r v).fgCall = s.fgCall := rfl

@[simp] theorem State.enableInts_params (m : Word) : (s.enableInts m).params = s.params := rfl
@[simp] theorem State.enableInts_handles (m : Word) : (s.enableInts m).handles = s.handles := rfl
@[simp] theorem State.enableInts_hostMem (m : Word) : (s.enableInts m).hostMem = s.hostMem := rfl
@[simp] theorem State.enableInts_refusalMark (m : Word) : (s.enableInts m).refusalMark = s.refusalMark := rfl
@[simp] theorem State.enableInts_inbox (m : Word) : (s.enableInts m).inbox = s.inbox := rfl
@[simp] theorem State.enableInts_port (m : Word) : (s.enableInts m).port = s.port := rfl
@[simp] theorem State.enableInts_calls (m : Word) : (s.enableInts m).calls = s.calls := rfl
@[simp] theorem State.enableInts_suspended (m : Word) : (s.enableInts m).suspended = s.suspended := rfl
@[simp] theorem State.enableInts_fgCall (m : Word) : (s.enableInts m).fgCall = s.fgCall := rfl

@[simp] theorem State.disableInts_params (m : Word) : (s.disableInts m).params = s.params := rfl
@[simp] theorem State.disableInts_handles (m : Word) : (s.disableInts m).handles = s.handles := rfl
@[simp] theorem State.disableInts_hostMem (m : Word) : (s.disableInts m).hostMem = s.hostMem := rfl
@[simp] theorem State.disableInts_refusalMark (m : Word) : (s.disableInts m).refusalMark = s.refusalMark := rfl
@[simp] theorem State.disableInts_inbox (m : Word) : (s.disableInts m).inbox = s.inbox := rfl
@[simp] theorem State.disableInts_port (m : Word) : (s.disableInts m).port = s.port := rfl
@[simp] theorem State.disableInts_calls (m : Word) : (s.disableInts m).calls = s.calls := rfl
@[simp] theorem State.disableInts_suspended (m : Word) : (s.disableInts m).suspended = s.suspended := rfl
@[simp] theorem State.disableInts_fgCall (m : Word) : (s.disableInts m).fgCall = s.fgCall := rfl

@[simp] theorem State.terminate_params : (s.terminate).params = s.params := rfl
@[simp] theorem State.terminate_hostMem : (s.terminate).hostMem = s.hostMem := rfl
@[simp] theorem State.terminate_refusalMark : (s.terminate).refusalMark = s.refusalMark := rfl
@[simp] theorem State.terminate_inbox : (s.terminate).inbox = s.inbox := rfl
@[simp] theorem State.terminate_port : (s.terminate).port = s.port := rfl
@[simp] theorem State.terminate_calls : (s.terminate).calls = s.calls := rfl
@[simp] theorem State.terminate_suspended : (s.terminate).suspended = s.suspended := rfl
@[simp] theorem State.terminate_fgCall : (s.terminate).fgCall = s.fgCall := rfl

@[simp] theorem State.endCall_params (n : Nat) : (s.endCall n).params = s.params := rfl
@[simp] theorem State.endCall_handles (n : Nat) : (s.endCall n).handles = s.handles := rfl
@[simp] theorem State.endCall_views (n : Nat) : (s.endCall n).views = s.views := rfl
@[simp] theorem State.endCall_hostMem (n : Nat) : (s.endCall n).hostMem = s.hostMem := rfl
@[simp] theorem State.endCall_refusalMark (n : Nat) : (s.endCall n).refusalMark = s.refusalMark := rfl
@[simp] theorem State.endCall_script (n : Nat) : (s.endCall n).script = s.script := rfl
@[simp] theorem State.endCall_draws (n : Nat) : (s.endCall n).draws = s.draws := rfl
@[simp] theorem State.endCall_inbox (n : Nat) : (s.endCall n).inbox = s.inbox := rfl
@[simp] theorem State.endCall_port (n : Nat) : (s.endCall n).port = s.port := rfl
@[simp] theorem State.endCall_calls (n : Nat) : (s.endCall n).calls = s.calls := rfl
@[simp] theorem State.endCall_trace (n : Nat) : (s.endCall n).trace = s.trace := rfl

@[simp] theorem State.log_trace (x : TraceItem) : (s.log x).trace = s.trace ++ [x] := rfl
@[simp] theorem State.answer_trace (r : Result) : (s.answer r).trace = s.trace ++ [.answer s.port.inst r] := rfl
@[simp] theorem State.refuse_trace (w : RefuseReason) : (s.refuse w).trace = s.trace ++ [.refused s.port.inst w] := rfl
@[simp] theorem State.refuse_refusalMark (w : RefuseReason) : (s.refuse w).refusalMark = true := rfl
@[simp] theorem State.afterPrd_trace (r : PReg) :
    (s.afterPrd r).trace = s.trace ++ [.regRead s.h.periphRef r (s.nextAnswer r)] := rfl
@[simp] theorem State.afterPrd_script (r : PReg) : (s.afterPrd r).script = s.script.dropAnswer r := rfl
@[simp] theorem State.pwr_trace (r : PReg) (v : Word) :
    (s.pwr r v).trace = s.trace ++ [.regWrite s.h.periphRef r v] := rfl

@[simp] theorem Script.dropAnswer_bodies (c : Script) (r : PReg) : (c.dropAnswer r).bodies = c.bodies := by
  cases r <;> rfl
@[simp] theorem Script.answers_drop_ne (c : Script) {r q : PReg} (h : q ≠ r) :
    (c.dropAnswer r).answers q = c.answers q := by
  cases r <;> cases q <;> first | rfl | exact absurd rfl h

/-! The issuer's note of a blocking call writes the call field only. -/

@[simp] theorem State.noteCall_params : s.noteCall.params = s.params := by unfold State.noteCall; split <;> rfl
@[simp] theorem State.noteCall_handles : s.noteCall.handles = s.handles := by unfold State.noteCall; split <;> rfl
@[simp] theorem State.noteCall_views : s.noteCall.views = s.views := by unfold State.noteCall; split <;> rfl
@[simp] theorem State.noteCall_hostMem : s.noteCall.hostMem = s.hostMem := by unfold State.noteCall; split <;> rfl
@[simp] theorem State.noteCall_refusalMark : s.noteCall.refusalMark = s.refusalMark := by
  unfold State.noteCall; split <;> rfl
@[simp] theorem State.noteCall_script : s.noteCall.script = s.script := by unfold State.noteCall; split <;> rfl
@[simp] theorem State.noteCall_draws : s.noteCall.draws = s.draws := by unfold State.noteCall; split <;> rfl
@[simp] theorem State.noteCall_inbox : s.noteCall.inbox = s.inbox := by unfold State.noteCall; split <;> rfl
@[simp] theorem State.noteCall_port : s.noteCall.port = s.port := by unfold State.noteCall; split <;> rfl
@[simp] theorem State.noteCall_calls : s.noteCall.calls = s.calls := by unfold State.noteCall; split <;> rfl
@[simp] theorem State.noteCall_suspended : s.noteCall.suspended = s.suspended := by unfold State.noteCall; split <;> rfl
@[simp] theorem State.noteCall_trace : s.noteCall.trace = s.trace := by unfold State.noteCall; split <;> rfl

end Sys2Proof.Machine
end

