-- ==== Sys2Proof/Laws/Store.lean ====
section
/-! SUPPORT. Read after write for the sparse stores, their canonical form, and the same for host memory, handles and views. -/

namespace Sys2Proof.Machine

section
variable {α : Type}

theorem Store.find_put (m : List (Nat × α)) (a b : Nat) (x : α) :
    Store.find (Store.put m a x) b = if a = b then some x else Store.find m b := by
  induction m with
  | nil => rfl
  | cons e t ih =>
    obtain ⟨k, v⟩ := e
    simp only [Store.put]
    split
    · simp only [Store.find]
    · split
      · subst_vars; simp only [Store.find]; split <;> rfl
      · simp only [Store.find, ih]
        rename_i hka
        by_cases hb : k = b
        · simp [hb, show ¬ a = b from fun h => hka (hb.trans h.symm)]
        · simp [hb]

theorem Store.find_erase (m : List (Nat × α)) (a b : Nat) :
    Store.find (Store.erase m a) b = if a = b then none else Store.find m b := by
  induction m with
  | nil => simp [Store.erase, Store.find]
  | cons e t ih =>
    obtain ⟨k, v⟩ := e
    unfold Store.erase at ih ⊢
    by_cases hk : k = a
    · subst hk
      simp only [List.filter_cons, bne_self_eq_false, Bool.false_eq_true, if_false, ih, Store.find]
      split <;> rfl
    · simp only [List.filter_cons, bne_iff_ne, ne_eq, hk, not_false_eq_true, if_true, Store.find, ih]
      by_cases hb : k = b
      · subst hb; simp [Ne.symm hk]
      · simp [hb]

theorem Store.getD_putD [DecidableEq α] (d : α) (m : List (Nat × α)) (a b : Nat) (x : α) :
    Store.getD d (Store.putD d m a x) b = if a = b then x else Store.getD d m b := by
  unfold Store.getD Store.putD
  split
  · subst_vars; rw [Store.find_erase]; split <;> rfl
  · rw [Store.find_put]; split <;> rfl

theorem Store.mem_put {m : List (Nat × α)} {a : Nat} {x : α} {e : Nat × α} (h : e ∈ Store.put m a x) :
    e = (a, x) ∨ e ∈ m := by
  induction m with
  | nil => simpa [Store.put] using h
  | cons f t ih =>
    obtain ⟨k, v⟩ := f
    simp only [Store.put] at h
    split at h
    · simpa using h
    · split at h
      · rcases List.mem_cons.1 h with h | h
        · exact .inl h
        · exact .inr (List.mem_cons_of_mem _ h)
      · rcases List.mem_cons.1 h with h | h
        · exact .inr (h ▸ List.mem_cons_self)
        · rcases ih h with h | h
          · exact .inl h
          · exact .inr (List.mem_cons_of_mem _ h)

theorem Store.put_rising {m : List (Nat × α)} (a : Nat) (x : α) (h : Store.Rising m) : Store.Rising (Store.put m a x) := by
  induction m with
  | nil => simp [Store.put, Store.Rising]
  | cons f t ih =>
    obtain ⟨k, v⟩ := f
    have hk : ∀ e ∈ t, k < e.1 := by
      intro e he
      exact (List.pairwise_cons.1 h).1 e.1 (List.mem_map_of_mem he)
    have ht : Store.Rising t := (List.pairwise_cons.1 h).2
    simp only [Store.put]
    split
    · rename_i hlt
      refine List.pairwise_cons.2 ⟨?_, h⟩
      intro b hb
      simp only [List.map_cons, List.mem_cons, List.mem_map] at hb
      rcases hb with rfl | ⟨e, he, rfl⟩
      · exact hlt
      · exact lt_trans hlt (hk e he)
    · split
      · rename_i hka
        subst hka
        exact h
      · rename_i h1 h2
        refine List.pairwise_cons.2 ⟨?_, ih ht⟩
        intro b hb
        obtain ⟨e, he, rfl⟩ := List.mem_map.1 hb
        rcases Store.mem_put he with rfl | he
        · show k < a
          omega
        · exact hk e he

theorem Store.erase_rising {m : List (Nat × α)} (a : Nat) (h : Store.Rising m) : Store.Rising (Store.erase m a) := by
  unfold Store.Rising Store.erase at *
  exact h.sublist (List.filter_sublist.map _)

theorem Store.putD_rising [DecidableEq α] {m : List (Nat × α)} (d : α) (a : Nat) (x : α) (h : Store.Rising m) :
    Store.Rising (Store.putD d m a x) := by
  unfold Store.putD
  split
  · exact Store.erase_rising a h
  · exact Store.put_rising a x h

theorem Store.putD_noDefault [DecidableEq α] {m : List (Nat × α)} {d : α} (a : Nat) (x : α) (h : Store.NoDefault d m) :
    Store.NoDefault d (Store.putD d m a x) := by
  unfold Store.putD
  split
  · intro e he
    exact h e (List.mem_filter.1 he).1
  · rename_i hx
    intro e he
    rcases Store.mem_put he with rfl | he
    · exact hx
    · exact h e he

end

/-! ## Host memory -/

theorem Memory.byteAt_store (m : List Host.Cell) (a b : Word) (v : Byte) :
    Memory.byteAt (Memory.store m a v) b = if a = b then some v else Memory.byteAt m b := by
  unfold Memory.byteAt Memory.store
  rw [Store.find_put]
  by_cases h : a = b
  · simp [h]
  · have : a.toNat ≠ b.toNat := fun e => h (BitVec.eq_of_toNat_eq e)
    simp [h, this]

theorem Memory.byteAt_release (m : List Host.Cell) (a b : Word) :
    Memory.byteAt (Memory.release m a) b = if a = b then none else Memory.byteAt m b := by
  unfold Memory.byteAt Memory.release
  rw [Store.find_erase]
  by_cases h : a = b
  · simp [h, Memory.unlisted]
  · have : a.toNat ≠ b.toNat := fun e => h (BitVec.eq_of_toNat_eq e)
    simp [h, this]

theorem Memory.store_wf {m : List Host.Cell} (a : Word) (v : Byte) (h : Memory.wf m) : Memory.wf (Memory.store m a v) := by
  refine ⟨Store.put_rising _ _ h.1, ?_⟩
  intro e he
  rcases Store.mem_put he with rfl | he
  · exact a.isLt
  · exact h.2 e he

theorem Memory.release_wf {m : List Host.Cell} (a : Word) (h : Memory.wf m) : Memory.wf (Memory.release m a) :=
  ⟨Store.erase_rising _ h.1, fun e he => h.2 e (List.mem_filter.1 he).1⟩

theorem State.reset_memory_wf : Memory.wf State.reset.hostMem := by
  exact ⟨List.Pairwise.nil, fun e he => absurd he List.not_mem_nil⟩

/-! ## Handles -/

section
variable (s : State)

@[simp] theorem State.handleAt_setHandleAt (n m : Nat) (h : Handle) :
    (s.setHandleAt n h).handleAt m = if n = m then h else s.handleAt m :=
  Store.getD_putD _ _ _ _ _

theorem State.h_def : s.h = s.handleAt s.port.inst := rfl

@[simp] theorem State.handleAt_modifyH (f : Handle → Handle) (m : Nat) :
    (s.modifyH f).handleAt m = if s.port.inst = m then f s.h else s.handleAt m := by
  simp [State.modifyH]

@[simp] theorem State.h_modifyH (f : Handle → Handle) : (s.modifyH f).h = f s.h := by
  rw [State.h_def]; simp

@[simp] theorem State.h_setState (st : BusState) : (s.setState st).h = Handle.setState st s.h := by
  simp [State.setState]

@[simp] theorem State.handleAt_setState (st : BusState) (m : Nat) :
    (s.setState st).handleAt m = if s.port.inst = m then Handle.setState st s.h else s.handleAt m := by
  simp [State.setState]

@[simp] theorem State.h_log (x : TraceItem) : (s.log x).h = s.h := rfl
@[simp] theorem State.h_answer (r : Result) : (s.answer r).h = s.h := rfl
@[simp] theorem State.h_refuse (w : RefuseReason) : (s.refuse w).h = s.h := rfl
@[simp] theorem State.h_setViewAt (p : BitVec 8) (v : PeriphView) : (s.setViewAt p v).h = s.h := rfl
@[simp] theorem State.h_afterPrd (r : PReg) : (s.afterPrd r).h = s.h := rfl
@[simp] theorem State.h_pwr (r : PReg) (v : Word) : (s.pwr r v).h = s.h := rfl
@[simp] theorem State.h_enableInts (m : Word) : (s.enableInts m).h = s.h := rfl
@[simp] theorem State.h_disableInts (m : Word) : (s.disableInts m).h = s.h := rfl
@[simp] theorem State.h_endCall (n : Nat) : (s.endCall n).h = s.h := rfl
@[simp] theorem State.h_noteCall : s.noteCall.h = s.h := by rw [State.h_def, State.h_def]; simp [State.handleAt]
@[simp] theorem State.h_terminate : s.terminate.h = Handle.setState .ready s.h := by simp [State.terminate]

@[simp] theorem State.handleAt_log (x : TraceItem) (m : Nat) : (s.log x).handleAt m = s.handleAt m := rfl
@[simp] theorem State.handleAt_answer (r : Result) (m : Nat) : (s.answer r).handleAt m = s.handleAt m := rfl
@[simp] theorem State.handleAt_refuse (w : RefuseReason) (m : Nat) : (s.refuse w).handleAt m = s.handleAt m := rfl
@[simp] theorem State.handleAt_setViewAt (p : BitVec 8) (v : PeriphView) (m : Nat) :
    (s.setViewAt p v).handleAt m = s.handleAt m := rfl
@[simp] theorem State.handleAt_afterPrd (r : PReg) (m : Nat) : (s.afterPrd r).handleAt m = s.handleAt m := rfl
@[simp] theorem State.handleAt_pwr (r : PReg) (v : Word) (m : Nat) : (s.pwr r v).handleAt m = s.handleAt m := rfl
@[simp] theorem State.handleAt_enableInts (x : Word) (m : Nat) : (s.enableInts x).handleAt m = s.handleAt m := rfl
@[simp] theorem State.handleAt_disableInts (x : Word) (m : Nat) : (s.disableInts x).handleAt m = s.handleAt m := rfl
@[simp] theorem State.handleAt_endCall (n m : Nat) : (s.endCall n).handleAt m = s.handleAt m := rfl
@[simp] theorem State.handleAt_noteCall (m : Nat) : s.noteCall.handleAt m = s.handleAt m := by simp [State.handleAt]
@[simp] theorem State.handleAt_terminate (m : Nat) :
    s.terminate.handleAt m = if s.port.inst = m then Handle.setState .ready s.h else s.handleAt m :=
  State.handleAt_setState (s.disableInts ieALL) .ready m

/-! ## Register views -/

@[simp] theorem State.viewAt_setViewAt (p q : BitVec 8) (v : PeriphView) :
    (s.setViewAt p v).viewAt q = if p = q then v else s.viewAt q := by
  show Store.getD _ (Store.putD _ _ _ _) _ = _
  rw [Store.getD_putD]
  by_cases h : p = q
  · simp [h]
  · have : p.toNat ≠ q.toNat := fun e => h (BitVec.eq_of_toNat_eq e)
    simp [h, this, State.viewAt]

@[simp] theorem State.viewAt_log (x : TraceItem) (q : BitVec 8) : (s.log x).viewAt q = s.viewAt q := rfl
@[simp] theorem State.viewAt_answer (r : Result) (q : BitVec 8) : (s.answer r).viewAt q = s.viewAt q := rfl
@[simp] theorem State.viewAt_refuse (w : RefuseReason) (q : BitVec 8) : (s.refuse w).viewAt q = s.viewAt q := rfl
@[simp] theorem State.viewAt_modifyH (f : Handle → Handle) (q : BitVec 8) : (s.modifyH f).viewAt q = s.viewAt q := rfl
@[simp] theorem State.viewAt_setState (st : BusState) (q : BitVec 8) : (s.setState st).viewAt q = s.viewAt q := rfl
@[simp] theorem State.viewAt_endCall (n : Nat) (q : BitVec 8) : (s.endCall n).viewAt q = s.viewAt q := rfl
@[simp] theorem State.viewAt_noteCall (q : BitVec 8) : s.noteCall.viewAt q = s.viewAt q := by simp [State.viewAt]

theorem State.viewAt_afterPrd (r : PReg) (q : BitVec 8) :
    (s.afterPrd r).viewAt q
      = if s.h.periphRef = q then (s.viewAt s.h.periphRef).afterRead r (s.nextAnswer r) else s.viewAt q :=
  State.viewAt_setViewAt { s with script := s.script.dropAnswer r, draws := s.draws + s.drawCost r } _ _ _

theorem State.viewAt_pwr (r : PReg) (v : Word) (q : BitVec 8) :
    (s.pwr r v).viewAt q
      = if s.h.periphRef = q then (s.viewAt s.h.periphRef).afterWrite r v else s.viewAt q :=
  State.viewAt_setViewAt s _ _ _

/-! ## Answers -/

@[simp] theorem State.nextAnswer_log (x : TraceItem) (r : PReg) : (s.log x).nextAnswer r = s.nextAnswer r := rfl
@[simp] theorem State.nextAnswer_answer (c : Result) (r : PReg) : (s.answer c).nextAnswer r = s.nextAnswer r := rfl
@[simp] theorem State.nextAnswer_modifyH (f : Handle → Handle) (r : PReg) :
    (s.modifyH f).nextAnswer r = s.nextAnswer r := rfl
@[simp] theorem State.nextAnswer_setState (st : BusState) (r : PReg) :
    (s.setState st).nextAnswer r = s.nextAnswer r := rfl
@[simp] theorem State.nextAnswer_pwr (q : PReg) (v : Word) (r : PReg) : (s.pwr q v).nextAnswer r = s.nextAnswer r := rfl
@[simp] theorem State.nextAnswer_endCall (n : Nat) (r : PReg) : (s.endCall n).nextAnswer r = s.nextAnswer r := rfl

end

end Sys2Proof.Machine
end

