-- ==== Sys2Proof/Laws/Ops.lean ====
section
/-! SUPPORT. For each shared operation, once, everything it can do: sequencing, host accesses, the checks of a transfer command,
arming, termination, and what "the same outside" composes to. -/

namespace Sys2Proof.Machine

/-! ## Sequencing -/

@[simp] theorem andThen_next (s : State) (k : State → Out) : andThen (.next s) k = k s := rfl
@[simp] theorem andThen_fault (f : Fault) (k : State → Out) : andThen (.fault f) k = .fault f := rfl
@[simp] theorem andThen_refused (r : Refusal) (k : State → Out) : andThen (.refused r) k = .refused r := rfl

/-- A sequence answers a next state only through a next state of its first part. -/
theorem andThen_eq_next {o : Out} {k : State → Out} {t : State} :
    andThen o k = .next t ↔ ∃ u, o = .next u ∧ k u = .next t := by
  cases o <;> simp [andThen]

/-! ## Host accesses (20_memory.md R52) -/

/-- A host read that is not refused goes on with the byte; it writes the trace only. -/
theorem memRead_some {a : Word} {s : State} {v : Byte} (h : Memory.byteAt s.hostMem a = some v) (k : Byte → State → Out) :
    memRead a s k = k v (s.log (.memRead a v)) := by
  simp [memRead, h]

theorem memRead_none {a : Word} {s : State} (h : Memory.byteAt s.hostMem a = none) (k : Byte → State → Out) :
    memRead a s k = .fault (.hostAccessStuck a) := by
  simp [memRead, h]

/-- A host read answers a next state only for an allocated byte. -/
theorem memRead_eq_next {a : Word} {s t : State} {k : Byte → State → Out} :
    memRead a s k = .next t ↔ ∃ v, Memory.byteAt s.hostMem a = some v ∧ k v (s.log (.memRead a v)) = .next t := by
  unfold memRead
  cases h : Memory.byteAt s.hostMem a <;> simp

theorem memWrite_some {a : Word} {s : State} {old : Byte} (v : Byte) (h : Memory.byteAt s.hostMem a = some old) :
    memWrite a v s = .next (({ s with hostMem := Memory.store s.hostMem a v }).log (.memWrite a v)) := by
  simp [memWrite, h]

theorem memWrite_none {a : Word} {s : State} (v : Byte) (h : Memory.byteAt s.hostMem a = none) :
    memWrite a v s = .fault (.hostAccessStuck a) := by
  simp [memWrite, h]

/-- A host write answers a next state only for an allocated byte, and that state is `s` with the byte stored. -/
theorem memWrite_eq_next {a : Word} {v : Byte} {s t : State} :
    memWrite a v s = .next t ↔ (∃ old, Memory.byteAt s.hostMem a = some old)
      ∧ t = ({ s with hostMem := Memory.store s.hostMem a v }).log (.memWrite a v) := by
  unfold memWrite
  cases h : Memory.byteAt s.hostMem a <;> simp [eq_comm]

/-! ## SetState (40_framing.md R103) -/

@[simp] theorem Handle.setState_state (st : BusState) (h : Handle) : (h.setState st).state = st := by
  unfold Handle.setState; split <;> simp_all

theorem Handle.setState_ne {st : BusState} {h : Handle} (e : h.state ≠ st) :
    h.setState st = { h with previousState := h.state, state := st } := by
  unfold Handle.setState; rw [if_pos (Ne.symm e)]

theorem Handle.setState_self (h : Handle) : h.setState h.state = h := by
  unfold Handle.setState; simp

/-! ## The same outside -/

theorem SameOutside.refl (s : State) : SameOutside s s := ⟨rfl, rfl, rfl, rfl, fun _ _ => rfl, fun _ _ => rfl⟩

/-- The frame composes as long as the instance keeps its peripheral (every command but INIT). -/
theorem SameOutside.trans {s t u : State} (a : SameOutside s t) (hp : t.h.periphRef = s.h.periphRef) (b : SameOutside t u) :
    SameOutside s u := by
  obtain ⟨a1, a2, a3, a4, a5, a6⟩ := a
  obtain ⟨b1, b2, b3, b4, b5, b6⟩ := b
  refine ⟨b1.trans a1, b2.trans a2, b3.trans a3, b4.trans a4, fun n hn => ?_, fun p hp' => ?_⟩
  · rw [b5 n (a3 ▸ hn), a5 n hn]
  · rw [b6 p (hp ▸ hp'), a6 p hp']

theorem SameOutside.log (s : State) (x : TraceItem) : SameOutside s (s.log x) :=
  ⟨rfl, rfl, rfl, rfl, fun _ _ => rfl, fun _ _ => rfl⟩

theorem SameOutside.answer (s : State) (r : Result) : SameOutside s (s.answer r) := SameOutside.log s _

theorem SameOutside.afterPrd (s : State) (r : PReg) : SameOutside s (s.afterPrd r) :=
  ⟨rfl, rfl, rfl, rfl, fun _ _ => rfl, fun p hp => by rw [State.viewAt_afterPrd, if_neg (Ne.symm hp)]⟩

theorem SameOutside.pwr (s : State) (r : PReg) (v : Word) : SameOutside s (s.pwr r v) :=
  ⟨rfl, rfl, rfl, rfl, fun _ _ => rfl, fun p hp => by rw [State.viewAt_pwr, if_neg (Ne.symm hp)]⟩

theorem SameOutside.modifyH (s : State) (f : Handle → Handle) : SameOutside s (s.modifyH f) :=
  ⟨rfl, rfl, rfl, rfl, fun n hn => by simp [Ne.symm hn], fun _ _ => rfl⟩

theorem SameOutside.setState (s : State) (st : BusState) : SameOutside s (s.setState st) := SameOutside.modifyH s _

theorem SameOutside.noteCall (s : State) : SameOutside s s.noteCall :=
  ⟨by simp, by simp, by simp, by simp, fun _ _ => by simp, fun _ _ => by simp⟩

theorem SameOutside.endCall (s : State) (n : Nat) : SameOutside s (s.endCall n) :=
  ⟨rfl, rfl, rfl, rfl, fun _ _ => rfl, fun _ _ => rfl⟩

theorem SameCalls.refl (s : State) : SameCalls s s := ⟨rfl, rfl⟩

/-- Ending a call says who waited for it and waits no more, and nothing else. -/
theorem CallReturned.endCall (s : State) (n : Nat) : CallReturned n s (s.endCall n) := ⟨rfl, rfl⟩

theorem SameOutside.enableInts (s : State) (m : Word) : SameOutside s (s.enableInts m) :=
  (SameOutside.afterPrd s _).trans rfl (SameOutside.pwr _ _ _)

theorem SameOutside.disableInts (s : State) (m : Word) : SameOutside s (s.disableInts m) :=
  (SameOutside.afterPrd s _).trans rfl (SameOutside.pwr _ _ _)

theorem SameOutside.terminate (s : State) : SameOutside s s.terminate :=
  (SameOutside.disableInts s _).trans rfl (SameOutside.setState _ _)

/-- SetState leaves the peripheral binding alone. -/
@[simp] theorem Handle.setState_periphRef (st : BusState) (h : Handle) : (h.setState st).periphRef = h.periphRef := by
  unfold Handle.setState; split <;> rfl

/-! ## Arming (40_framing.md R104) and its checks (R110) -/

/-- Arming writes the handle and the peripheral; of the rest of the machine nothing, not a byte of host memory. -/
theorem State.arm_frame (op : Operation) (dev : BitVec 7) (reg : Word) (w : BitVec 3) (buf : Word) (len : BitVec 8) (s : State) :
    (s.arm op dev reg w buf len).h = Handle.armed op dev reg w buf len s.h
      ∧ SameOutside s (s.arm op dev reg w buf len) ∧ (s.arm op dev reg w buf len).hostMem = s.hostMem
      ∧ (s.arm op dev reg w buf len).refusalMark = s.refusalMark ∧ SameCalls s (s.arm op dev reg w buf len)
      ∧ (s.arm op dev reg w buf len).script.bodies = s.script.bodies := by
  have hp : (Handle.armed op dev reg w buf len s.h).periphRef = s.h.periphRef := by simp [Handle.armed]
  have h1 := SameOutside.modifyH s (Handle.armed op dev reg w buf len)
  have h2 := h1.trans (by simp [hp]) (SameOutside.pwr _ .icr icrBOTH)
  unfold State.arm
  dsimp only
  split
  · exact ⟨by simp, (h2.trans (by simp [hp]) (SameOutside.enableInts _ _)).trans (by simp [hp]) (SameOutside.pwr _ _ _),
      rfl, rfl, ⟨rfl, rfl⟩, by simp [State.enableInts]⟩
  · exact ⟨by simp, h2.trans (by simp [hp]) (SameOutside.pwr _ _ _), rfl, rfl, ⟨rfl, rfl⟩, rfl⟩

/-- A transfer command does one of five things, in this order of checks (40_framing.md R110). -/
theorem transfer_cases (ok : Bool) (buf : Word) (len : BitVec 8) (start : State → State) (s : State) :
    (ok = false ∧ transfer ok buf len start s = s.refuse .reservedEncoding)
    ∨ (ok = true ∧ s.h.bound = false ∧ transfer ok buf len start s = s.refuse .unbound)
    ∨ (ok = true ∧ s.h.bound = true ∧ bufferFits buf len = false ∧ transfer ok buf len start s = s.refuse .bufferWraps)
    ∨ (ok = true ∧ s.h.bound = true ∧ bufferFits buf len = true ∧ s.isBusy = true
        ∧ transfer ok buf len start s = s.afterCheckIdle.answer .busy)
    ∨ (ok = true ∧ s.h.bound = true ∧ bufferFits buf len = true ∧ s.isBusy = false
        ∧ transfer ok buf len start s = start s.afterCheckIdle) := by
  unfold transfer
  cases ok <;> cases s.h.bound <;> cases bufferFits buf len <;> cases s.isBusy <;> simp

/-- Not busy means Ready with the busy flag clear in the status word read, and CheckIdle has then read ISR (R109). -/
theorem State.isBusy_eq_false {s : State} :
    s.isBusy = false ↔ s.h.state = .ready ∧ busyF (s.nextAnswer .isr) = false := by
  unfold State.isBusy
  cases s.h.state <;> simp

theorem State.afterCheckIdle_ready {s : State} (h : s.h.state = .ready) : s.afterCheckIdle = s.afterPrd .isr := by
  simp [State.afterCheckIdle, h]

theorem State.afterCheckIdle_busy {s : State} (h : s.h.state ≠ .ready) : s.afterCheckIdle = s := by
  simp [State.afterCheckIdle, h]

/-- CheckIdle writes no handle, whatever it finds (R109). -/
theorem State.afterCheckIdle_frame (s : State) :
    s.afterCheckIdle.handles = s.handles ∧ s.afterCheckIdle.hostMem = s.hostMem
      ∧ s.afterCheckIdle.refusalMark = s.refusalMark ∧ SameOutside s s.afterCheckIdle ∧ SameCalls s s.afterCheckIdle
      ∧ s.afterCheckIdle.script.bodies = s.script.bodies := by
  unfold State.afterCheckIdle
  split
  · exact ⟨rfl, rfl, rfl, SameOutside.refl s, ⟨rfl, rfl⟩, rfl⟩
  · exact ⟨rfl, rfl, rfl, SameOutside.afterPrd s _, ⟨rfl, rfl⟩, by simp⟩

end Sys2Proof.Machine
end

