-- ==== Sys2Proof/Laws/Events.lean ====
section
/-! SUPPORT. What a dispatcher invocation and a poll can do, once each: the branch as one chain of flags, EVENT as its branch, a
notification whose body issues nothing, the ends of a blocking call, and the five outcomes of a poll. -/

namespace Sys2Proof.Machine

/-! ## The dispatcher (44_dispatcher.md R170, R171) -/

theorem Operation.isAsync_iff (op : Operation) : op.isAsync = true ↔ op ≠ .write ∧ op ≠ .read := by
  cases op <;> simp [Operation.isAsync]

/-- The branch taken, as one chain of the raised flags. -/
theorem takenBranch_eq (h : Handle) (v : Word) :
    takenBranch h v =
      if nackEv v then (if applicable h .nack then some .nack else none)
      else if rxEv v then (if applicable h .rx then some .rx else none)
      else if txEv v then (if applicable h .tx then some .tx else none)
      else if cpEv v then (if applicable h .cp then some .cp else none) else none := by
  unfold takenBranch selectBranch
  cases nackEv v <;> cases rxEv v <;> cases txEv v <;> cases cpEv v <;> rfl

/-- Every branch but the first TX needs State ≠ Ready, and so does that one: an EVENT in Ready takes no branch. -/
theorem takenBranch_ready {h : Handle} {v : Word} (hr : h.state = .ready) : takenBranch h v = none := by
  rw [takenBranch_eq]
  simp [applicable, hr]

/-- Where no EVENT of the instance is in progress and something is bound, EVENT reads ISR and goes on with the branch. -/
theorem eventStep_bound {s : State} (hc : s.inBody s.port.inst = false) (hm : s.midEvent s.port.inst = false)
    (hb : s.h.bound = true) : eventStep s = eventOn (s.nextAnswer .isr) (s.afterPrd .isr) := by
  simp [eventStep, hc, hm, hb]

/-- EVENT that takes a branch is that branch, and then the callback body it began. -/
theorem exec_event_takes {s : State} {b : Branch} (h : takes s b) :
    exec .event s = andThen (runBranch b (s.afterPrd .isr)) State.runCallbacks := by
  obtain ⟨hc, hm, hb, ht⟩ := h
  show andThen (eventStep s) _ = _
  rw [eventStep_bound hc hm hb]
  simp [eventOn, ht]

/-- A kind that is not both installed and enabled is not delivered ("default behavior if unset is a no-op"): the EVENT ends at once. -/
theorem notify_muted {k : CbKind} {s : State} (h : ((s.h.cb.get k).installed && (s.h.cb.get k).enabled) = false) :
    notify k s = finishEvent s := by
  simp [notify, h]

/-- A delivered kind puts its notification out and begins its body. -/
theorem notify_delivered {k : CbKind} {s : State} (h : (s.h.cb.get k).installed = true ∧ (s.h.cb.get k).enabled = true) :
    notify k s = s.beginBody k := by
  simp [notify, h]

/-! ## Blocking polls (42_blocking.md R133) -/

/-- Once a call has ended, the foreground does not wait for that instance. -/
theorem State.endCall_done (s : State) (n : Nat) : (s.endCall n).fgCall ≠ some n := by
  unfold State.endCall
  dsimp only
  split <;> simp_all

/-- A poll of a transfer in progress does one of five things, in this order. -/
theorem pollOn_cases (v : Word) (s : State) :
    (nackEv v = true
      ∧ pollOn v s = .next (((s.pwr .icr icrNACK).modifyH (Handle.withError .notAcknowledged)).blkEnd .notAcknowledged))
    ∨ (nackEv v = false ∧ s.h.blkStage = .byte ∧ readyFlag s.h.operation v = true ∧ pollOn v s = pollByte s)
    ∨ (nackEv v = false ∧ s.h.blkStage = .ending ∧ cpEv v = true ∧ pollOn v s = .next ((s.pwr .icr icrSTOP).blkEnd .ok))
    ∨ (nackEv v = false ∧ s.h.pollCount + 1 = s.params.tPoll
      ∧ pollOn v s = .next ((s.modifyH (Handle.withError .timeout)).blkEnd .timeout))
    ∨ (nackEv v = false ∧ s.h.pollCount + 1 ≠ s.params.tPoll ∧ pollOn v s = .next (s.modifyH Handle.pollMissed)) := by
  unfold pollOn
  cases hn : nackEv v
  · by_cases h1 : s.h.blkStage = .byte ∧ readyFlag s.h.operation v = true
    · simp [h1]
    · by_cases h2 : s.h.blkStage = .ending ∧ cpEv v = true
      · simp [h2]
      · by_cases h3 : s.h.pollCount + 1 = s.params.tPoll
        · simp [h1, h2, h3]
        · simp [h1, h2, h3]
  · simp

/-- A poll answers a next state for the byte it moves only where the host byte is allocated; the handle it leaves counts the byte. -/
theorem pollByte_eq_next {s t : State} (h : pollByte s = .next t) :
    (∃ old, Memory.byteAt s.hostMem (payloadAddr s.h) = some old) ∧ t.h = Handle.bytePolled s.h := by
  unfold pollByte at h
  split at h
  · rw [memRead_eq_next] at h
    obtain ⟨v, hv, h⟩ := h
    cases h
    exact ⟨⟨v, hv⟩, by simp⟩
  · rw [andThen_eq_next] at h
    obtain ⟨u, hu, h⟩ := h
    rw [memWrite_eq_next] at hu
    obtain ⟨hold, rfl⟩ := hu
    cases h
    exact ⟨hold, by rw [State.h_modifyH]; rfl⟩

end Sys2Proof.Machine
end

