-- ==== Sys2Proof/Laws/Callbacks.lean ====
section
/-! SUPPORT. The callback bodies that run, without the bound on their steps: what one step does to the bodies, that the bound always
suffices, and what follows, one equation for each thing a body can do next. -/

namespace Sys2Proof.Machine

/-! ## What waiting and beginning a body leave in each field -/

section
variable (s : State)

@[simp] theorem State.suspend_params (w : Option Nat) : (s.suspend w).params = s.params := rfl
@[simp] theorem State.suspend_handles (w : Option Nat) : (s.suspend w).handles = s.handles := rfl
@[simp] theorem State.suspend_views (w : Option Nat) : (s.suspend w).views = s.views := rfl
@[simp] theorem State.suspend_hostMem (w : Option Nat) : (s.suspend w).hostMem = s.hostMem := rfl
@[simp] theorem State.suspend_refusalMark (w : Option Nat) : (s.suspend w).refusalMark = s.refusalMark := rfl
@[simp] theorem State.suspend_script (w : Option Nat) : (s.suspend w).script = s.script := rfl
@[simp] theorem State.suspend_draws (w : Option Nat) : (s.suspend w).draws = s.draws := rfl
@[simp] theorem State.suspend_inbox (w : Option Nat) : (s.suspend w).inbox = s.inbox := rfl
@[simp] theorem State.suspend_port (w : Option Nat) : (s.suspend w).port = s.port := rfl
@[simp] theorem State.suspend_fgCall (w : Option Nat) : (s.suspend w).fgCall = s.fgCall := rfl
@[simp] theorem State.suspend_trace (w : Option Nat) : (s.suspend w).trace = s.trace := rfl
@[simp] theorem State.suspend_calls (w : Option Nat) : (s.suspend w).calls = [] := rfl
@[simp] theorem State.suspend_suspended (w : Option Nat) : (s.suspend w).suspended = s.suspended ++ [{ waits := w, runs := s.calls }] := rfl

@[simp] theorem State.beginBody_params (k : CbKind) : (s.beginBody k).params = s.params := rfl
@[simp] theorem State.beginBody_handles (k : CbKind) : (s.beginBody k).handles = s.handles := rfl
@[simp] theorem State.beginBody_views (k : CbKind) : (s.beginBody k).views = s.views := rfl
@[simp] theorem State.beginBody_hostMem (k : CbKind) : (s.beginBody k).hostMem = s.hostMem := rfl
@[simp] theorem State.beginBody_refusalMark (k : CbKind) : (s.beginBody k).refusalMark = s.refusalMark := rfl
@[simp] theorem State.beginBody_draws (k : CbKind) : (s.beginBody k).draws = s.draws := rfl
@[simp] theorem State.beginBody_inbox (k : CbKind) : (s.beginBody k).inbox = s.inbox := rfl
@[simp] theorem State.beginBody_port (k : CbKind) : (s.beginBody k).port = s.port := rfl
@[simp] theorem State.beginBody_suspended (k : CbKind) : (s.beginBody k).suspended = s.suspended := rfl
@[simp] theorem State.beginBody_fgCall (k : CbKind) : (s.beginBody k).fgCall = s.fgCall := rfl
@[simp] theorem State.beginBody_calls (k : CbKind) : (s.beginBody k).calls = { port := s.port, body := s.script.nextBody } :: s.calls := rfl
@[simp] theorem State.beginBody_trace (k : CbKind) : (s.beginBody k).trace = s.trace ++ [.notify s.port.inst k (s.h.cb.get k).handler] := rfl

end

@[simp] theorem Waiting.ended_runs (n : Nat) (w : Waiting) : (w.ended n).runs = w.runs := by
  unfold Waiting.ended; split <;> rfl

/-- Nobody waits for a transfer that is over. -/
theorem Waiting.ended_waits (n : Nat) (w : Waiting) : (w.ended n).waits ≠ some n := by
  unfold Waiting.ended; split <;> simp_all

/-- Who waited for another transfer, or for the turn only, is as before. -/
theorem Waiting.ended_other {n : Nat} {w : Waiting} (h : w.waits ≠ some n) : w.ended n = w := by
  simp [Waiting.ended, h]

@[simp] theorem Waiting.holds_ended (n m : Nat) (w : Waiting) : (w.ended n).holds m = w.holds m := by
  simp [Waiting.holds]

/-- The end of a blocking transfer ends no EVENT. -/
@[simp] theorem State.midEvent_endCall (s : State) (n m : Nat) : (s.endCall n).midEvent m = s.midEvent m := by
  simp [State.midEvent, State.endCall, Function.comp_def]

/-! ## What a command leaves of the bodies -/

/-- The bodies that run and the scripted bodies are as before. -/
def SameBodies (s t : State) : Prop := t.calls = s.calls ∧ t.script.bodies = s.script.bodies

/-- One notification was delivered: the next scripted body runs, innermost. -/
def OneBegun (s t : State) : Prop :=
  t.calls = { port := s.port, body := s.script.nextBody } :: s.calls ∧ t.script.bodies = s.script.bodies.tail

theorem SameBodies.refl (s : State) : SameBodies s s := ⟨rfl, rfl⟩

theorem SameBodies.trans {s t u : State} (a : SameBodies s t) (b : SameBodies t u) : SameBodies s u :=
  ⟨b.1.trans a.1, b.2.trans a.2⟩

theorem SameBodies.afterPrd (s : State) (r : PReg) : SameBodies s (s.afterPrd r) := ⟨rfl, by simp⟩

theorem SameBodies.pwr (s : State) (r : PReg) (v : Word) : SameBodies s (s.pwr r v) := ⟨rfl, rfl⟩

theorem SameBodies.terminate (s : State) : SameBodies s s.terminate := ⟨rfl, by simp [State.terminate, State.disableInts]⟩

theorem SameBodies.finishEvent (s : State) : SameBodies s (finishEvent s) := SameBodies.terminate s

/-- A transfer command that starts nothing else touches no body. -/
theorem SameBodies.transfer (ok : Bool) (buf : Word) (len : BitVec 8) {start : State → State} (s : State)
    (h : ∀ t, SameBodies t (start t)) : SameBodies s (transfer ok buf len start s) := by
  have hf := s.afterCheckIdle_frame
  have hi : SameBodies s s.afterCheckIdle := ⟨hf.2.2.2.1.2.2.2.1, hf.2.2.2.2.2⟩
  rcases transfer_cases ok buf len start s with ⟨_, e⟩ | ⟨_, _, e⟩ | ⟨_, _, _, e⟩ | ⟨_, _, _, _, e⟩ | ⟨_, _, _, _, e⟩ <;> rw [e]
  · exact SameBodies.refl s
  · exact SameBodies.refl s
  · exact SameBodies.refl s
  · exact hi
  · exact hi.trans (h _)

theorem SameBodies.arm (op : Operation) (dev : BitVec 7) (reg : Word) (w : BitVec 3) (buf : Word) (len : BitVec 8) (s : State) :
    SameBodies s (s.arm op dev reg w buf len) :=
  have h := State.arm_frame op dev reg w buf len s
  ⟨h.2.1.2.2.2.1, h.2.2.2.2.2⟩

theorem SameBodies.blkStart (op : Operation) (dev : BitVec 7) (buf : Word) (len : BitVec 8) (s : State) :
    SameBodies s (s.blkStart op dev buf len) :=
  (SameBodies.arm op dev 0 0 buf len s).trans ⟨by simp [State.blkStart], by simp [State.blkStart]⟩

theorem SameBodies.asyncStart (op : Operation) (dev : BitVec 7) (reg : Word) (w : BitVec 3) (buf : Word) (len : BitVec 8) (s : State) :
    SameBodies s (s.asyncStart op dev reg w buf len) := SameBodies.arm op dev reg w buf len s

/-- A notification begins one body or none. -/
theorem notify_bodies (k : CbKind) (s : State) : SameBodies s (notify k s) ∨ OneBegun s (notify k s) := by
  unfold notify
  split
  · exact .inr ⟨rfl, rfl⟩
  · exact .inl (SameBodies.finishEvent s)

/-- EVENT begins one body or none. -/
theorem eventStep_bodies {s t : State} (h : eventStep s = .next t) : SameBodies s t ∨ OneBegun s t := by
  unfold eventStep at h
  split at h
  · cases h; exact .inl (SameBodies.refl s)
  · split at h
    · cases h; exact .inl (SameBodies.refl s)
    · have h0 := SameBodies.afterPrd s .isr
      have lift : ∀ {u v : State}, SameBodies s u → u.script.nextBody = s.script.nextBody → u.port = s.port →
          SameBodies u v ∨ OneBegun u v → SameBodies s v ∨ OneBegun s v := by
        rintro u v a hn hp (b | b)
        · exact .inl (a.trans b)
        · exact .inr ⟨by rw [b.1, a.1, hn, hp], by rw [b.2, a.2]⟩
      have hn : ∀ u : State, SameBodies s u → u.script.nextBody = s.script.nextBody := by
        intro u a; unfold Script.nextBody; rw [a.2]
      unfold eventOn at h
      split at h
      · cases h; exact .inl h0
      · rename_i b _
        cases b with
        | nack =>
          simp only [runBranch, Host.Outcome.next.injEq] at h
          subst h
          exact lift h0 (hn _ h0) rfl (notify_bodies _ _)
        | rx =>
          simp only [runBranch, rxBranch, andThen_eq_next, memWrite_eq_next] at h
          obtain ⟨u, ⟨_, rfl⟩, h⟩ := h
          cases h
          exact .inl (h0.trans (SameBodies.afterPrd _ .rxdr))
        | tx =>
          simp only [runBranch] at h
          split at h
          · cases h; exact .inl h0
          · simp only [txDataBranch, memRead_eq_next] at h
            obtain ⟨v, _, h⟩ := h
            cases h
            exact .inl h0
        | cp =>
          simp only [runBranch] at h
          split at h
          · cases h; exact .inl h0
          · cases h
            unfold cpDataBranch
            split
            · exact .inl (h0.trans (SameBodies.finishEvent _))
            · exact lift h0 (hn _ h0) rfl (notify_bodies _ _)

/-- A nested command begins one body or none. -/
theorem nestedExec_bodies {i : Instr} {s t : State} (h : nestedExec i s = .next t) : SameBodies s t ∨ OneBegun s t := by
  cases i with
  | init p =>
    left
    simp only [nestedExec, execInit] at h
    split at h <;> cases h <;> exact SameBodies.refl s
  | setcb k inst en hd =>
    left
    simp only [nestedExec, execSetcb] at h
    split at h
    · cases h; exact SameBodies.refl s
    · split at h <;> cases h <;> exact SameBodies.refl s
  | write d b l => cases h; exact .inl (SameBodies.transfer _ _ _ _ fun _ => SameBodies.blkStart _ _ _ _ _)
  | read d b l => cases h; exact .inl (SameBodies.transfer _ _ _ _ fun _ => SameBodies.blkStart _ _ _ _ _)
  | writea d b l => cases h; exact .inl (SameBodies.transfer _ _ _ _ fun _ => SameBodies.asyncStart _ _ _ _ _ _ _)
  | reada d b l => cases h; exact .inl (SameBodies.transfer _ _ _ _ fun _ => SameBodies.asyncStart _ _ _ _ _ _ _)
  | memwra d r w b l => cases h; exact .inl (SameBodies.transfer _ _ _ _ fun _ => SameBodies.asyncStart _ _ _ _ _ _ _)
  | memrda d r w b l => cases h; exact .inl (SameBodies.transfer _ _ _ _ fun _ => SameBodies.asyncStart _ _ _ _ _ _ _)
  | event => exact eventStep_bodies h

/-! ## The bound on the steps of the bodies -/

theorem State.callCost_same {s t : State} (h : SameBodies s t) : t.callCost = s.callCost := by
  unfold State.callCost; rw [h.1, h.2]

/-- Beginning a body adds at most the one step of an empty body. -/
theorem State.callCost_begun {s t : State} (h : OneBegun s t) : t.callCost ≤ s.callCost + 1 := by
  obtain ⟨h1, h2⟩ := h
  unfold State.callCost
  rw [h1, h2]
  unfold Script.nextBody bodyCost
  cases s.script.bodies <;> simp <;> omega

/-- A nested command spends at most one step of the bound. -/
theorem bodyCommand_cost {n : Nat} {ws : List Word} {s t : State} (h : bodyCommand n ws s = .next t) :
    t.callCost ≤ s.callCost + 1 := by
  unfold bodyCommand at h
  split at h
  · dsimp only at h
    split at h
    · cases h; exact Nat.le_succ _
    · rw [andThen_eq_next] at h
      obtain ⟨u, hu, h⟩ := h
      have hc : u.callCost ≤ s.callCost + 1 := by
        rcases nestedExec_bodies hu with b | b
        · rw [State.callCost_same b]; exact Nat.le_succ _
        · exact State.callCost_begun (s := { s with port := { inst := n, agent := .callback } }) b
      cases h
      unfold State.waitIfArmed
      split
      · refine Nat.le_trans ?_ hc
        simp [State.callCost, State.suspend]
      · exact hc
  · cases h

/-- Each step of a body leaves a smaller bound than before it. -/
theorem bodyStep_cost {x : BodyStep} {p : Port} {left : List BodyStep} {rest : List BodyRun} {s t : State}
    (h : bodyStep x { s with calls := { port := p, body := left } :: rest } = .next t) (hc : s.calls = { port := p, body := x :: left } :: rest) :
    t.callCost < s.callCost := by
  have h0 : ({ s with calls := { port := p, body := left } :: rest } : State).callCost + 2 = s.callCost := by
    unfold State.callCost
    rw [hc]
    simp [bodyCost]
    omega
  cases x with
  | command n ws => have := bodyCommand_cost h; omega
  | hostStore a v => cases h; show State.callCost { s with calls := { port := p, body := left } :: rest } < _; omega
  | hostRelease a => cases h; show State.callCost { s with calls := { port := p, body := left } :: rest } < _; omega
  | neverReturns => cases h

theorem closeEvent_cost {p : Port} {rest : List BodyRun} {s : State} (hc : s.calls = { port := p, body := [] } :: rest) :
    (closeEvent p rest s).callCost < s.callCost := by
  have h := State.callCost_same (SameBodies.finishEvent { s with port := p, calls := rest })
  unfold closeEvent
  rw [h]
  unfold State.callCost
  rw [hc]
  simp [bodyCost]

/-- The bound suffices: any larger one gives the same outcome. -/
theorem runCalls_bound (k : Nat) : ∀ (m : Nat) (s : State), s.callCost < k → s.callCost < m → runCalls k s = runCalls m s := by
  induction k with
  | zero => intro m s h; exact absurd h (Nat.not_lt_zero _)
  | succ k ih =>
    intro m s hk hm
    cases m with
    | zero => exact absurd hm (Nat.not_lt_zero _)
    | succ m =>
      simp only [runCalls]
      split
      · rfl
      · rename_i r rest hc
        obtain ⟨p, body⟩ := r
        cases body with
        | nil =>
          have hd := closeEvent_cost hc
          exact ih m (closeEvent p rest s) (by omega) (by omega)
        | cons x left =>
          dsimp only
          split
          · rfl
          · cases hb : bodyStep x { s with calls := { port := p, body := left } :: rest } with
            | next t =>
              have hd := bodyStep_cost hb hc
              exact ih m t (by omega) (by omega)
            | fault f => rfl
            | refused r => rfl

theorem runCalls_eq {k : Nat} {s : State} (h : s.callCost < k) : runCalls k s = s.runCallbacks :=
  runCalls_bound k _ s h (Nat.lt_succ_self _)

/-! ## What the bodies do next -/

/-- No body runs. -/
theorem State.runCallbacks_nil {s : State} (h : s.calls = []) : s.runCallbacks = .next s := by
  simp [State.runCallbacks, runCalls, h]

/-- The innermost body is done: its EVENT ends, and the one around it goes on. -/
theorem State.runCallbacks_done {s : State} {p : Port} {rest : List BodyRun} (h : s.calls = { port := p, body := [] } :: rest) :
    s.runCallbacks = (closeEvent p rest s).runCallbacks := by
  rw [State.runCallbacks, runCalls, h]
  exact runCalls_eq (closeEvent_cost h)

/-- The innermost body has a command for an instance inside an EVENT of which other bodies wait: these wait too. -/
theorem State.runCallbacks_heldBack {s : State} {p : Port} {x : BodyStep} {left : List BodyStep} {rest : List BodyRun}
    (h : s.calls = { port := p, body := x :: left } :: rest) (hx : s.heldBack x = true) :
    s.runCallbacks = .next (s.suspend none) := by
  rw [State.runCallbacks, runCalls, h]
  simp [hx]

/-- The innermost body takes its next step, and the bodies that run then go on. -/
theorem State.runCallbacks_step {s : State} {p : Port} {x : BodyStep} {left : List BodyStep} {rest : List BodyRun}
    (h : s.calls = { port := p, body := x :: left } :: rest) (hx : s.heldBack x = false) :
    s.runCallbacks = andThen (bodyStep x { s with calls := { port := p, body := left } :: rest }) State.runCallbacks := by
  rw [State.runCallbacks, runCalls, h]
  simp only [hx, Bool.false_eq_true, if_false]
  cases hb : bodyStep x { s with calls := { port := p, body := left } :: rest } with
  | next t => exact runCalls_eq (bodyStep_cost hb h)
  | fault f => rfl
  | refused r => rfl

end Sys2Proof.Machine
end

