-- ==== Sys2Proof/Laws/Decode.lean ====
section
/-! SUPPORT. The fields of the words the encoder lays out, and the words the fields of a decoded word lay out (30_encoding.md R72):
what the round trip in either direction is assembled from. -/

namespace Sys2Proof

/-! ## Fields of an encoded word -/

/-- Every bit of word 0 of formats T and M. -/
theorem transferWord_bit (op : BitVec 4) (dev : BitVec 7) (rw : BitVec 3) (len : BitVec 8) (i : Nat) :
    (transferWord op dev rw len).getLsbD i
      = if i < 4 then op.getLsbD i else if i - 4 < 7 then dev.getLsbD (i - 4)
        else if i - 4 - 7 < 3 then rw.getLsbD (i - 4 - 7) else len.getLsbD (i - 4 - 7 - 3) := by
  show BitVec.getLsbD (w := 10 + 8 + 3 + 7 + 4) ((0 : BitVec 10) ++ len ++ rw ++ dev ++ op) i = _
  simp only [BitVec.getLsbD_append]
  split
  · rfl
  · split
    · rfl
    · split
      · rfl
      · split
        · rfl
        · rename_i h
          rw [BitVec.getLsbD_of_ge len _ (by omega)]
          simp

/-- A field of a word, bit by bit. -/
theorem extractLsb'_eq_of_bits {n : Nat} (w : Word) (lo : Nat) (x : BitVec n)
    (h : ∀ i, i < n → w.getLsbD (lo + i) = x.getLsbD i) : w.extractLsb' lo n = x := by
  apply BitVec.eq_of_getLsbD_eq
  intro i hi
  rw [BitVec.getLsbD_extractLsb', h i hi]
  simp [hi]

@[simp] theorem opField_transferWord (op : BitVec 4) (dev : BitVec 7) (rw : BitVec 3) (len : BitVec 8) :
    opField (transferWord op dev rw len) = op :=
  extractLsb'_eq_of_bits _ _ _ fun i hi => by rw [transferWord_bit, if_pos (by omega), Nat.zero_add]

@[simp] theorem devField_transferWord (op : BitVec 4) (dev : BitVec 7) (rw : BitVec 3) (len : BitVec 8) :
    devField (transferWord op dev rw len) = dev :=
  extractLsb'_eq_of_bits _ _ _ fun i hi => by
    rw [transferWord_bit, if_neg (by omega), if_pos (by omega), show 4 + i - 4 = i by omega]

@[simp] theorem rwField_transferWord (op : BitVec 4) (dev : BitVec 7) (rw : BitVec 3) (len : BitVec 8) :
    rwField (transferWord op dev rw len) = rw :=
  extractLsb'_eq_of_bits _ _ _ fun i hi => by
    rw [transferWord_bit, if_neg (by omega), if_neg (by omega), if_pos (by omega), show 11 + i - 4 - 7 = i by omega]

@[simp] theorem lenField_transferWord (op : BitVec 4) (dev : BitVec 7) (rw : BitVec 3) (len : BitVec 8) :
    lenField (transferWord op dev rw len) = len :=
  extractLsb'_eq_of_bits _ _ _ fun i hi => by
    rw [transferWord_bit, if_neg (by omega), if_neg (by omega), if_neg (by omega), show 14 + i - 4 - 7 - 3 = i by omega]

/-- The bits named 0 of format M are 0 in an encoded word. -/
theorem transferWord_high (op : BitVec 4) (dev : BitVec 7) (rw : BitVec 3) (len : BitVec 8) (i : Nat) (h : 22 ≤ i) :
    (transferWord op dev rw len).getLsbD i = false := by
  rw [transferWord_bit, if_neg (by omega), if_neg (by omega), if_neg (by omega)]
  exact BitVec.getLsbD_of_ge len _ (by omega)

/-- A word whose bits [31:22] are 0 is laid out from its own fields. -/
theorem transferWord_fields (w : Word) (h : ∀ i, 22 ≤ i → w.getLsbD i = false) :
    transferWord (opField w) (devField w) (rwField w) (lenField w) = w := by
  apply BitVec.eq_of_getLsbD_eq
  intro i hi
  rw [transferWord_bit]
  simp only [opField, devField, rwField, lenField, BitVec.getLsbD_extractLsb']
  by_cases h1 : i < 4
  · simp [h1]
  · by_cases h2 : i - 4 < 7
    · simp [h1, h2, show 4 + (i - 4) = i by omega]
    · by_cases h3 : i - 4 - 7 < 3
      · simp [h1, h2, h3, show 11 + (i - 4 - 7) = i by omega]
      · by_cases h4 : i - 4 - 7 - 3 < 8
        · simp [h1, h2, h3, h4, show 14 + (i - 4 - 7 - 3) = i by omega]
        · simp [h1, h2, h3, h4, h i (by omega)]

/-! ## Codes of callback kinds (R82) -/

@[simp] theorem kindOfCode_code (k : CbKind) : kindOfCode k.code = some k := by cases k <;> rfl

theorem code_of_kindOfCode {k : BitVec 3} {c : CbKind} (h : kindOfCode k = some c) : c.code = k := by
  have : k.toNat < 8 := k.isLt
  apply BitVec.eq_of_toNat_eq
  unfold kindOfCode at h
  split at h <;> simp_all <;> subst h <;> simp [CbKind.code]

end Sys2Proof
end

