-- ==== Sys2Proof/Laws/PerInstr.lean ====
section
/-! SUPPORT. The per-instruction family EncodingShape: what the words of every command look like, one lemma per constructor
(30_encoding.md R71, R72, R76). -/

namespace Sys2Proof.Laws.EncodingShape

/-- A command has as many words as R76 gives its opcode, and its word 0 carries the opcode and has the bits named 0 clear (R72). -/
def Statement (i : Instr) : Prop :=
  (encode i).length = commandLength i.opcode
    ∧ ∃ w, (encode i).head? = some w ∧ opField w = i.opcode ∧ w &&& reservedMask i.opcode = 0

/-- Word 0 of format T: RW is 0, so the mask of R72 finds nothing. -/
theorem transferWord_maskT (op : BitVec 4) (dev : BitVec 7) (len : BitVec 8) :
    transferWord op dev 0 len &&& 0xFFC03800 = 0 := by
  apply BitVec.eq_of_getLsbD_eq
  intro i hi
  rw [BitVec.getLsbD_and, transferWord_bit]
  interval_cases i <;> simp

/-- Word 0 of format M. -/
theorem transferWord_maskM (op : BitVec 4) (dev : BitVec 7) (rw : BitVec 3) (len : BitVec 8) :
    transferWord op dev rw len &&& 0xFFC00000 = 0 := by
  apply BitVec.eq_of_getLsbD_eq
  intro i hi
  rw [BitVec.getLsbD_and, transferWord_bit]
  interval_cases i <;> simp

theorem init (periph : BitVec 8) : Statement (.init periph) := by
  refine ⟨rfl, _, rfl, ?_, ?_⟩
  · revert periph; decide
  · revert periph; decide

/-- Word 0 of format C. -/
theorem setcbWord (kind : CbKind) (inst en : Bool) :
    let w : Word := (0 : BitVec 23) ++ BitVec.ofBool inst ++ BitVec.ofBool en ++ kind.code ++ (0x1 : BitVec 4)
    opField w = 1 ∧ w &&& 0xFFFFFE00 = 0 := by
  cases kind <;> cases inst <;> cases en <;> decide

theorem setcb (kind : CbKind) (inst en : Bool) (handler : Word) : Statement (.setcb kind inst en handler) :=
  ⟨rfl, _, rfl, (setcbWord kind inst en).1, (setcbWord kind inst en).2⟩

theorem write (dev : BitVec 7) (buf : Word) (len : BitVec 8) : Statement (.write dev buf len) :=
  ⟨rfl, _, rfl, opField_transferWord .., transferWord_maskT ..⟩

theorem read (dev : BitVec 7) (buf : Word) (len : BitVec 8) : Statement (.read dev buf len) :=
  ⟨rfl, _, rfl, opField_transferWord .., transferWord_maskT ..⟩

theorem writea (dev : BitVec 7) (buf : Word) (len : BitVec 8) : Statement (.writea dev buf len) :=
  ⟨rfl, _, rfl, opField_transferWord .., transferWord_maskT ..⟩

theorem reada (dev : BitVec 7) (buf : Word) (len : BitVec 8) : Statement (.reada dev buf len) :=
  ⟨rfl, _, rfl, opField_transferWord .., transferWord_maskT ..⟩

theorem memwra (dev : BitVec 7) (reg : Word) (rw : BitVec 3) (buf : Word) (len : BitVec 8) :
    Statement (.memwra dev reg rw buf len) :=
  ⟨rfl, _, rfl, opField_transferWord .., transferWord_maskM ..⟩

theorem memrda (dev : BitVec 7) (reg : Word) (rw : BitVec 3) (buf : Word) (len : BitVec 8) :
    Statement (.memrda dev reg rw buf len) :=
  ⟨rfl, _, rfl, opField_transferWord .., transferWord_maskM ..⟩

theorem event : Statement .event := by
  refine ⟨rfl, _, rfl, ?_, ?_⟩ <;> decide

end Sys2Proof.Laws.EncodingShape
end

