-- ==== Sys2Proof/Tests/Slice0.lean ====
section
/-! SUPPORT. Tests of the model on the vectors of 95_test_vectors.md (each names its vector), and for every statement with hypotheses a
concrete state and operands that meet them. -/

namespace Sys2Proof.Tests

open Sys2Proof Sys2Proof.Machine

/-! ## Small states -/

/-- What a next state shows. -/
def nextHas (o : Out) (p : State → Bool) : Bool :=
  match o with
  | .next t => p t
  | .fault _ => false
  | .refused _ => false

/-- The handle after `INIT 1` (95 section 0). -/
def idle : Handle := { Handle.powerOn with bound := true, periphRef := 1 }

/-- A machine with one instance, T_POLL = 3, that handle, three bytes of host memory, and the peripheral's answers. -/
def mach (h : Handle) (isr rxdr cr1 : List Word) (bodies : List (List BodyStep)) : State :=
  { State.reset with params := ⟨1, 3⟩, handles := [(0, h)], hostMem := [(0x20000000, 0xA5), (0x20000001, 0x3C), (0x20000100, 0xEE)],
                     script := ⟨isr, rxdr, cr1, bodies⟩ }

/-- S0 of 95 section 0, with answers of ISR. -/
def s0 (isr : List Word) : State := mach idle isr [] [1] []

/-- A registry with every kind installed and enabled. -/
def allOn : Registry :=
  ⟨⟨true, true, 0x300⟩, ⟨true, true, 0x500⟩, ⟨true, true, 0x400⟩, ⟨true, true, 0x123⟩, ⟨true, true, 0x200⟩⟩

/-- A blocking WRITE of 2 bytes waiting for its first byte. -/
def writing : Handle :=
  { idle with state := .busyTransmitting, operation := .write, devAddr := 0x5F, bufBase := 0x20000000, len := 2, blkStage := .byte }

/-- A blocking READ of 1 byte. -/
def reading : Handle :=
  { idle with state := .busyReceiving, operation := .read, devAddr := 0x5F, bufBase := 0x20000100, len := 1, blkStage := .byte }

/-- A READA of 1 byte. -/
def readingAsync : Handle :=
  { idle with state := .busyReceiving, operation := .readAsync, devAddr := 0x5F, bufBase := 0x20000100, len := 1, cb := allOn }

/-- A WRITEA of 2 bytes. -/
def writingAsync : Handle :=
  { idle with state := .busyTransmitting, operation := .writeAsync, devAddr := 0x5F, bufBase := 0x20000000, len := 2, cb := allOn }

/-- A MEMRDA of 2 bytes at offset 0x1234 of width 2, in its addressing phase (V-D5). -/
def addressing : Handle :=
  { idle with state := .busyAddressingSubphase, operation := .memoryRead, devAddr := 0x50, regAddr := 0x1234, regWidth := 2,
              bufBase := 0x20000100, len := 2, cb := allOn }

/-- Two instances: instance 0 is at the end of its READA, with a callback body to come; instance 1 is idle. -/
def twoEnding (body : List BodyStep) : State :=
  { mach { readingAsync with dataCount := 1 } [0x20, 0] [] [1] [body] with
      params := ⟨2, 3⟩, handles := [(0, { readingAsync with dataCount := 1 }), (1, idle)], port := ⟨0, .interrupt⟩ }

/-- Two instances: a callback body of instance 0 waits, for the WRITE of instance 1 or only for its turn. -/
def twoWaiting (ib : List Input) (waits : Option Nat) : State :=
  { mach { readingAsync with dataCount := 1 } [0x20, 0] [] [1] [] with
      params := ⟨2, 3⟩, inbox := ib, suspended := [⟨waits, [⟨⟨0, .interrupt⟩, []⟩]⟩],
      handles := [(0, { readingAsync with dataCount := 1 }), (1, if waits = none then idle else writing)] }

/-- The same machine inside an EVENT of an instance 1 whose callback body issued the command to instance 0. -/
def inside (s : State) : State :=
  { s with params := ⟨2, 3⟩, port := ⟨0, .callback⟩, calls := [⟨⟨1, .interrupt⟩, [.hostStore 0x20000000 7]⟩] }

/-- Every kind installed and muted. -/
def allMuted : Registry :=
  ⟨⟨true, false, 0x300⟩, ⟨true, false, 0x500⟩, ⟨true, false, 0x400⟩, ⟨true, false, 0x123⟩, ⟨true, false, 0x200⟩⟩

/-! ## WellFormed: one ill-formed term for each check of 30_encoding.md R75 -/

theorem test_wf_len_write : (Instr.write 0x5F 0 0).wellFormed = false := by decide
theorem test_wf_len_read : (Instr.read 0x5F 0 0).wellFormed = false := by decide
theorem test_wf_len_writea : (Instr.writea 0x5F 0 0).wellFormed = false := by decide
theorem test_wf_len_reada : (Instr.reada 0x5F 0 0).wellFormed = false := by decide
theorem test_wf_len_memwra : (Instr.memwra 0x5F 0 1 0 0).wellFormed = false := by decide
theorem test_wf_len_memrda : (Instr.memrda 0x5F 0 1 0 0).wellFormed = false := by decide
theorem test_wf_width_low : (Instr.memwra 0x5F 0 0 0 1).wellFormed = false := by decide
theorem test_wf_width_high : (Instr.memrda 0x5F 0 5 0 1).wellFormed = false := by decide
theorem test_wf_removal_en : (Instr.setcb .readComplete false true 0).wellFormed = false := by decide
theorem test_wf_removal_handler : (Instr.setcb .readComplete false false 1).wellFormed = false := by decide
theorem test_wf_removal : (Instr.setcb .readComplete false false 0).wellFormed = true := by decide

/-! ## Decoding (95 section 2): words written out from the encoding table -/

theorem test_decode_init : decodeCommand [0x00000FF0] = .ok (.init 0xFF) := by rfl
theorem test_decode_setcb : decodeCommand [0x000001B1, 0x08000123] = .ok (.setcb .memoryReadComplete true true 0x08000123) := by rfl
theorem test_decode_setcb_mute : decodeCommand [0x00000111, 0x00001000] = .ok (.setcb .readComplete true false 0x1000) := by rfl
theorem test_decode_setcb_off : decodeCommand [0x00000021, 0x00000000] = .ok (.setcb .memoryWriteComplete false false 0) := by rfl
theorem test_decode_write : decodeCommand [0x000085F2, 0x20000000] = .ok (.write 0x5F 0x20000000 2) := by rfl
theorem test_decode_read : decodeCommand [0x000105F3, 0x20000100] = .ok (.read 0x5F 0x20000100 4) := by rfl
theorem test_decode_writea : decodeCommand [0x003FC7F4, 0x20000000] = .ok (.writea 0x7F 0x20000000 255) := by rfl
theorem test_decode_reada : decodeCommand [0x000105F5, 0x20000100] = .ok (.reada 0x5F 0x20000100 4) := by rfl
theorem test_decode_memwra :
    decodeCommand [0x000095F6, 0x20000200, 0x00001234] = .ok (.memwra 0x5F 0x1234 2 0x20000200 2) := by rfl
theorem test_decode_memrda :
    decodeCommand [0x00005D07, 0x20000100, 0x11223344] = .ok (.memrda 0x50 0x11223344 3 0x20000100 1) := by rfl
theorem test_decode_event : decodeCommand [0x00000008] = .ok .event := by rfl

/-- 95 section 2, "Reserved encodings": each line of the table, in its order. -/
theorem test_decode_reserved :
    decodeCommand [0x00000009] = .error .reservedOpcode ∧ decodeCommand [0x0000000F] = .error .reservedOpcode
      ∧ decodeCommand [0x00001010] = .error .reservedBits ∧ decodeCommand [0x00000018] = .error .reservedBits
      ∧ decodeCommand [0x000001D1, 0] = .error .reservedKind ∧ decodeCommand [0x00000081, 0] = .error .reservedOperand
      ∧ decodeCommand [0x00000011, 1] = .error .reservedOperand ∧ decodeCommand [0x000005F2, 0] = .error .reservedOperand
      ∧ decodeCommand [0x00008DF2, 0] = .error .reservedBits ∧ decodeCommand [0x000105F7, 0, 0] = .error .reservedOperand
      ∧ decodeCommand [0x00012DF7, 0, 0] = .error .reservedOperand ∧ decodeCommand [0x400085F2, 0] = .error .reservedBits := by
  refine ⟨rfl, rfl, rfl, rfl, rfl, rfl, rfl, rfl, rfl, rfl, rfl, rfl⟩

/-- 30_encoding.md R76: too few and too many words. -/
theorem test_decode_length :
    decodeCommand [0x000085F2] = .error .partialCommand ∧ decodeCommand [] = .error .partialCommand
      ∧ decodeCommand [0x00000008, 0] = .error .surplusWords := by refine ⟨rfl, rfl, rfl⟩

/-- The words of 95 section 2 the other way round. -/
theorem test_encode :
    encode (.init 1) = [0x00000010] ∧ encode (.setcb .notAcknowledged true true 7) = [0x000001C1, 7]
      ∧ encode (.memwra 0x50 0x11223344 4 9 1) = [0x00006506, 9, 0x11223344] := by decide

/-- The opcode table's numbering: the second word of `MEMWRA` counts on from bit 32, the third from bit 64. -/
theorem test_table_word :
    decodeTableWord 96 0x000012342000020000_0095F6 = some (.memwra 0x5F 0x1234 2 0x20000200 2) := by rfl

/-- `ONCB MRC, 0x08000123` (95 section 2). -/
theorem test_assemble_oncb :
    assembleLine ['O', 'N', 'C', 'B', ' ', 'M', 'R', 'C', ',', ' ', '0', 'x', '0', '8', '0', '0', '0', '1', '2', '3']
      = .ok (some [0x000001B1, 0x08000123]) := by rfl

/-- `RDREG 0x50,1,2,3,4` (30_encoding.md R92): OP 7, DEV 0x50, RW 2, LEN 4; then BUF and REG. -/
theorem test_assemble_rdreg :
    assembleLine (asmLine ['R', 'D', 'R', 'E', 'G'] [['0', 'x', '5', '0'], ['1'], ['2'], ['3'], ['4']])
      = .ok (some [0x00011507, 3, 1]) := by rfl

/-- `OFFCB 4 ; off` and `MUTECB NACK,9` (R92). -/
theorem test_assemble_offcb :
    assembleLine ['O', 'F', 'F', 'C', 'B', ' ', '4', ' ', ';', ' ', 'o', 'f', 'f'] = .ok (some [0x00000041, 0])
      ∧ assembleLine (asmLine ['M', 'U', 'T', 'E', 'C', 'B'] [['N', 'A', 'C', 'K'], ['9']]) = .ok (some [0x00000141, 9]) := ⟨rfl, rfl⟩

/-- `INIT 256` does not fit its field (30_encoding.md R91). -/
theorem test_assemble_too_wide : assembleLine ['I', 'N', 'I', 'T', ' ', '2', '5', '6'] = .error .doesNotFit := by rfl

/-! ## Framing (95 section 3) -/

theorem test_frame :
    frame 0x5F 1 .write .hold = 0x010120BE ∧ frame 0x5F 4 .read .autoEnd = 0x020424BE ∧ frame 0x7F 255 .read .autoEnd = 0x02FF24FE
      ∧ frame 0x00 1 .write .autoEnd = 0x02012000 ∧ frame 0x50 3 .write .hold = 0x010320A0 := by decide

theorem test_offset_bytes :
    [0, 1, 2, 3].map (offByte { idle with regAddr := 0x11223344, regWidth := 4 }) = [0x11, 0x22, 0x33, 0x44]
      ∧ [0, 1].map (offByte { idle with regAddr := 0x11223344, regWidth := 2 }) = [0x33, 0x44]
      ∧ offByte { idle with regAddr := 0x1234, regWidth := 1 } 0 = 0x34 := by decide

/-! ## One step each -/

/-- V-C1. -/
theorem test_init : nextHas (exec (.init 1) (mach Handle.powerOn [] [] [] []))
    (fun t => t.h == idle && t.trace == [.answer 0 .ok]) = true := by decide

/-- V-C3. -/
theorem test_init_refused : nextHas (exec (.init 1) (mach writing [] [] [] []))
    (fun t => t.h == writing && t.refusalMark && t.trace == [.refused 0 .initDuringBlocking]) = true := by decide

/-- V-C4: MUTECB in flight is accepted. -/
theorem test_setcb_mute : nextHas (exec (.setcb .readComplete true false 0x1000) (mach readingAsync [] [] [] []))
    (fun t => t.h.cb.readComplete == ⟨true, false, 0x1000⟩ && t.h.state == .busyReceiving && !t.refusalMark) = true := by decide

/-- V-C4: OFFCB in flight is refused. -/
theorem test_setcb_off : nextHas (exec (.setcb .readComplete false false 0) (mach readingAsync [] [] [] []))
    (fun t => t.h == readingAsync && t.refusalMark) = true := by decide

/-- V-B1, arming. -/
theorem test_write : nextHas (exec (.write 0x5F 0x20000000 2) (s0 [0]))
    (fun t => t.h == writing && t.trace == [.regRead 1 .isr 0, .regWrite 1 .icr 0x30, .regWrite 1 .cr2 0x020220BE]
      && t.fgCall == some 0) = true := by decide

/-- V-B6. -/
theorem test_write_busy : nextHas (exec (.write 0x5F 0x20000000 2) (s0 [0x8000]))
    (fun t => t.h == idle && t.trace == [.regRead 1 .isr 0x8000, .answer 0 .busy]) = true := by decide

/-- V-S5, arming. -/
theorem test_read : nextHas (exec (.read 0x5F 0x20000100 4) (s0 [0]))
    (fun t => t.h.state == .busyReceiving && t.h.blkStage == .byte
      && t.trace == [.regRead 1 .isr 0, .regWrite 1 .icr 0x30, .regWrite 1 .cr2 0x020424BE]) = true := by decide

/-- 95 section 6. -/
theorem test_writea : nextHas (exec (.writea 0x5F 0x20000000 2) (s0 [0]))
    (fun t => t.h.state == .busyTransmitting && t.h.operation == .writeAsync && t.h.regWidth == 0
      && t.trace == [.regRead 1 .isr 0, .regWrite 1 .icr 0x30, .regRead 1 .cr1 1, .regWrite 1 .cr1 0x73, .regWrite 1 .cr2 0x020220BE,
        .answer 0 .ok]) = true := by decide

/-- V-A1: the buffer of one byte at the top of the address space fits, one of two bytes wraps. -/
theorem test_writea_wrap :
    nextHas (exec (.writea 0x5F 0xFFFFFFFF 1) (s0 [0])) (fun t => t.h.state == .busyTransmitting && !t.refusalMark)
      && nextHas (exec (.writea 0x5F 0xFFFFFFFF 2) (s0 [0])) (fun t => t.h == idle && t.trace == [.refused 0 .bufferWraps]) = true := by
  decide

/-- 95 section 6. -/
theorem test_reada : nextHas (exec (.reada 0x5F 0x20000100 4) (s0 [0]))
    (fun t => t.h.state == .busyReceiving && t.h.operation == .readAsync
      && t.trace == [.regRead 1 .isr 0, .regWrite 1 .icr 0x30, .regRead 1 .cr1 1, .regWrite 1 .cr1 0x75, .regWrite 1 .cr2 0x020424BE,
        .answer 0 .ok]) = true := by decide

/-- V-S1: Busy, with no access at all. -/
theorem test_reada_busy : nextHas (exec (.reada 0x5F 0x20000100 2) (mach readingAsync [0] [] [] []))
    (fun t => t.h == readingAsync && t.trace == [.answer 0 .busy]) = true := by decide

/-- 95 section 6. -/
theorem test_memwra : nextHas (exec (.memwra 0x5F 0x20 1 0x20000200 1) (s0 [0]))
    (fun t => t.h.state == .busyAddressingSubphase && t.h.operation == .memoryWrite && t.h.regAddr == 0x20 && t.h.regWidth == 1
      && t.trace == [.regRead 1 .isr 0, .regWrite 1 .icr 0x30, .regRead 1 .cr1 1, .regWrite 1 .cr1 0x73, .regWrite 1 .cr2 0x010120BE,
        .answer 0 .ok]) = true := by decide

/-- 95 section 6. -/
theorem test_memrda : nextHas (exec (.memrda 0x5F 0x28 1 0x20000100 4) (s0 [0]))
    (fun t => t.h.state == .busyAddressingSubphase && t.h.operation == .memoryRead
      && t.trace == [.regRead 1 .isr 0, .regWrite 1 .icr 0x30, .regRead 1 .cr1 1, .regWrite 1 .cr1 0x77, .regWrite 1 .cr2 0x010120BE,
        .answer 0 .ok]) = true := by decide

/-- V-S4: NACK wins over TXIS, in the addressing phase. -/
theorem test_event_nack : nextHas (exec .event (mach addressing [0x12] [] [0x77] []))
    (fun t => t.h.state == .ready && t.h.previousState == .busyAddressingSubphase && t.h.error == .notAcknowledged
      && t.trace == [.regRead 1 .isr 0x12, .regWrite 1 .icr 0x10, .notify 0 .notAcknowledged 0x200, .regRead 1 .cr1 0x77,
        .regWrite 1 .cr1 1, .answer 0 .ok]) = true := by decide

/-- V-D17: a transfer command from the callback body returns Busy, then the transfer ends. -/
theorem test_event_nested :
    nextHas (exec .event (mach { readingAsync with dataCount := 1 } [0x20] [] [0x75] [[.command 0 [0x000045F5, 0x20000300]]]))
    (fun t => t.h.state == .ready && t.h.bufBase == 0x20000100
      && t.trace == [.regRead 1 .isr 0x20, .regWrite 1 .icr 0x20, .notify 0 .readComplete 0x500, .answer 0 .busy, .regRead 1 .cr1 0x75,
        .regWrite 1 .cr1 1, .answer 0 .ok]) = true := by decide

/-- V-D18: EVENT from the callback body is refused with the mark, then the transfer ends. -/
theorem test_event_in_body :
    nextHas (exec .event (mach { readingAsync with dataCount := 1 } [0x20] [] [0x75] [[.command 0 [0x00000008]]]))
    (fun t => t.h.state == .ready && t.refusalMark
      && t.trace == [.regRead 1 .isr 0x20, .regWrite 1 .icr 0x20, .notify 0 .readComplete 0x500, .refused 0 .nestedEvent,
        .regRead 1 .cr1 0x75, .regWrite 1 .cr1 1, .answer 0 .ok]) = true := by decide

/-- 41_control.md R121, 40_framing.md R108: a muted kind is not notified, and no body runs. -/
theorem test_event_muted :
    nextHas (exec .event (mach { readingAsync with dataCount := 1, cb := allMuted } [0x20] [] [0x75] [[.command 0 [0x00000008]]]))
    (fun t => t.h.state == .ready && !t.refusalMark
      && t.trace == [.regRead 1 .isr 0x20, .regWrite 1 .icr 0x20, .regRead 1 .cr1 0x75, .regWrite 1 .cr1 1, .answer 0 .ok]) = true := by
  decide

/-- 60_exceptions.md R210: an EVENT from the body to another instance is an ordinary step of that instance. -/
theorem test_event_to_other :
    nextHas (exec .event { twoEnding [.command 1 [0x00000008]] with
        handles := [(0, { readingAsync with dataCount := 1 }), (1, { writingAsync with periphRef := 2 })], script :=
          ⟨[0x20, 0x02], [], [1], [[.command 1 [0x00000008]]]⟩ })
    (fun t => (t.handleAt 1).dataCount == 1 && (t.handleAt 0).state == .ready && !t.refusalMark
      && t.trace == [.regRead 1 .isr 0x20, .regWrite 1 .icr 0x20, .notify 0 .readComplete 0x500, .regRead 2 .isr 0x02,
        .memRead 0x20000000 0xA5, .regWrite 2 .txdr 0xA5, .answer 1 .ok, .regRead 1 .cr1 1, .regWrite 1 .cr1 1, .answer 0 .ok]) = true := by
  decide

/-- 20_memory.md R60, 42_blocking.md R130: a body that issues a WRITE to another instance waits: EVENT is not over, and the body's turn is a
poll of that transfer. -/
theorem test_body_waits :
    nextHas (exec .event (twoEnding [.command 1 (encode (.write 0x5F 0x20000000 2))]))
      (fun t => t.calls == [] && t.suspended == [⟨some 1, [⟨⟨0, .interrupt⟩, []⟩]⟩] && (t.handleAt 1).blkStage == .byte
        && (t.handleAt 0).state == .busyReceiving && t.trace.getLast? == some (.regWrite 1 .cr2 0x020220BE))
    && nextHas (Sys2Proof.Machine.step { twoWaiting [.callback 0] (some 1) with script := ⟨[0x10], [], [], []⟩ })
      (fun t => t.suspended == [⟨none, [⟨⟨0, .interrupt⟩, []⟩]⟩] && (t.handleAt 1).error == .notAcknowledged) = true := by decide

/-- 44_dispatcher.md R177: once the transfer is over the body goes on, and the interrupt disable and Ready end the EVENT. -/
theorem test_body_goes_on :
    nextHas (Sys2Proof.Machine.step (twoWaiting [.callback 0] none))
      (fun t => t.suspended == [] && (t.handleAt 0).state == .ready
        && t.trace == [.regRead 1 .cr1 1, .regWrite 1 .cr1 1, .answer 0 .ok]) = true := by decide

/-- V-D1, V-D2, V-D3, V-D5, V-D6, V-D7, V-D11, V-D12, V-D16: the branch taken. -/
theorem test_branches :
    takenBranch { writingAsync with len := 1 } 0x06 = none ∧ takenBranch { writingAsync with len := 1 } 0x02 = some .tx
      ∧ takenBranch { writingAsync with len := 1, dataCount := 1 } 0x02 = none ∧ takenBranch addressing 0x02 = some .tx
      ∧ takenBranch { addressing with offsetCount := 1 } 0x80 = some .cp
      ∧ takenBranch { addressing with operation := .memoryWrite, regWidth := 4, offsetCount := 4 } 0x02 = none
      ∧ takenBranch idle 0x20 = none ∧ takenBranch idle 0 = none ∧ takenBranch readingAsync 0x20 = some .cp := by decide

/-- V-B1, BLKPOLL 1. -/
theorem test_poll_byte : nextHas (blkPoll (mach writing [2] [] [] []))
    (fun t => t.h == { writing with dataCount := 1 }
      && t.trace == [.regRead 1 .isr 2, .memRead 0x20000000 0xA5, .regWrite 1 .txdr 0xA5]) = true := by decide

/-- V-B4: a timeout in the End stage. -/
theorem test_poll_timeout :
    nextHas (blkPoll { mach { reading with dataCount := 1, blkStage := .ending } [0] [] [] [] with params := ⟨1, 1⟩ })
    (fun t => t.h.error == .timeout && t.h.state == .ready && t.h.dataCount == 1
      && t.trace == [.regRead 1 .isr 0, .answer 0 .timeout]) = true := by decide

/-- An instruction in the opcode table's numbering is the very next step: `INIT 1` at power-on. -/
theorem test_fetch_word : nextHas (Sys2Proof.Machine.step ((mach Handle.powerOn [] [] [] []).withFetchWord 32 0x10))
    (fun t => t.h == idle && t.inbox == []) = true := by decide

/-- 00_scope.md R6: a waiting foreground keeps its command in the inbox and polls. -/
theorem test_waiting_polls :
    nextHas (Sys2Proof.Machine.step { mach writing [0] [] [] [] with fgCall := some 0, inbox := [.foreground 0 [0x10]] })
    (fun t => t.h.pollCount == 1 && t.inbox == [.foreground 0 [0x10]]) = true := by decide

/-! ## Witnesses: concrete values that meet the hypotheses of each statement together -/

theorem witness_DecodeOfEncode :
    (Instr.memrda 0x7F 0xFFFFFFFF 4 0xFFFFFFFF 255).wellFormed = true ∧ (Instr.memwra 0 0 1 0 1).wellFormed = true
      ∧ (Instr.setcb .notAcknowledged false false 0).wellFormed = true := by decide

theorem witness_DecodedWordsAreItsEncoding : decode [0x000045F2, 7, 8] = .ok (.write 0x5F 7 1, [8]) := by rfl

/-- One word at a boundary of each point of R75. -/
theorem witness_ReservedWordsAreRefused :
    spellsNoCommand 9 0 ∧ spellsNoCommand 0x1000 0 ∧ spellsNoCommand 0x18 0 ∧ spellsNoCommand 0x201 0
      ∧ spellsNoCommand 0x404002 0 ∧ spellsNoCommand 0x4802 0 ∧ spellsNoCommand 0x404006 0
      ∧ spellsNoCommand 0x151 0 ∧ spellsNoCommand 0x81 0 ∧ spellsNoCommand 0x11 1 ∧ spellsNoCommand 0x05F2 0
      ∧ spellsNoCommand 0x4007 0 ∧ spellsNoCommand 0x6807 0 ∧ ¬ spellsNoCommand 0x6007 0 ∧ 0 < (s0 []).params.nInst := by
  refine ⟨?_, ?_, ?_, ?_, ?_, ?_, ?_, ?_, ?_, ?_, ?_, ?_, ?_, ?_, by decide⟩ <;> (dsimp only [spellsNoCommand]; decide)

/-- A line that gives words; numbers at the ends of the fields' ranges and just outside them, in both forms; every kind by name. -/
theorem witness_AssembledLineDecodes :
    assembleLine ['E', 'V', 'E', 'N', 'T', ' ', ';', ' ', 'x'] = .ok (some [0x00000008])
      ∧ asmNumber ['0'] = some 0 ∧ asmNumber ['1'] = some 1 ∧ asmNumber ['1', '2', '7'] = some 127
      ∧ asmNumber ['0', 'x', '8', '0'] = some 128 ∧ asmNumber ['2', '5', '6'] = some 256 ∧ asmNumber ['0', 'x', 'F', 'f'] = some 255
      ∧ kindText ['W', 'C'] 0 ∧ kindText ['R', 'C'] 1 ∧ kindText ['M', 'W', 'C'] 2 ∧ kindText ['M', 'R', 'C'] 3
      ∧ kindText ['N', 'A', 'C', 'K'] 4 ∧ kindText ['5'] 5
      ∧ transferFits 127 0xFFFFFFFF 255 ∧ ¬ transferFits 128 0 1 ∧ ¬ transferFits 0 0 0 ∧ ¬ transferFits 0 0x100000000 1 := by
  refine ⟨rfl, rfl, rfl, rfl, rfl, rfl, rfl, ?_, ?_, ?_, ?_, ?_, ?_, ?_, ?_, ?_, ?_⟩ <;> simp only [kindText, transferFits] <;> decide

/-- A bit of each clause, at its ends. -/
theorem witness_ControlWordBits : ∀ b ∈ [0, 1, 7, 8, 10, 13, 16, 23, 24, 25, 26, 31], b < 32 := by decide

theorem witness_OffsetBytes :
    (1 ≤ addressing.regWidth.toNat ∧ addressing.regWidth.toNat ≤ 4 ∧ 1 < addressing.regWidth.toNat ∧ 7 < 8)
      ∧ (let h := { idle with regWidth := 4 }; 1 ≤ h.regWidth.toNat ∧ h.regWidth.toNat ≤ 4 ∧ 3 < h.regWidth.toNat ∧ 0 < 8) := by decide

/-- The bits of each clause: TXIS, RXNE, ADDR, NACKF, STOPF, TC, TCR, the ones ICR clears above, and one beside them; a word for CR1 that
differs in the enable bits from one that nothing has written. -/
theorem witness_RegisterAccessSideEffects :
    (∀ b ∈ [0, 1, 2, 3, 4, 5, 6, 7, 8, 13, 14, 31], b < 32)
      ∧ (0x76 : Word) &&& 0xFFFFFF89 = ((s0 []).viewAt (s0 []).h.periphRef).cr1 &&& 0xFFFFFF89 := by decide

theorem witness_InitResetsHandle : (mach readingAsync [] [] [] []).h.blkStage = .idle := by decide

theorem witness_InitRefusedDuringBlocking : (mach writing [] [] [] []).h.blkStage ≠ .idle := by decide

theorem witness_InitIsIdempotent :
    nextHas (exec (.init 3) (mach Handle.powerOn [] [] [] [])) (fun t => t.refusalMark == false) = true := by decide

/-- An installation in flight, and a removal in Ready. -/
theorem witness_SetcbWritesOneEntry :
    (true = true ∨ (false = false ∧ (0 : Word) = 0 ∧ (mach readingAsync [] [] [] []).h.state = .ready))
      ∧ (false = true ∨ (false = false ∧ (0 : Word) = 0 ∧ (s0 []).h.state = .ready)) := by decide

theorem witness_SetcbRemovalRefused :
    (mach readingAsync [] [] [] []).h.state ≠ .ready ∧ (true = true ∨ (0 : Word) ≠ 0) ∧ (false = true ∨ (1 : Word) ≠ 0) := by decide

/-- The hypothesis of the six arming statements: the shortest and the longest buffer, and one that ends at the last address. -/
theorem witness_Arms :
    mayArm (s0 [0]) 0x20000000 1 ∧ mayArm (s0 [0]) 0x20000000 255 ∧ mayArm (s0 [0]) 0xFFFFFFFF 1
      ∧ 1 ≤ (1 : BitVec 3).toNat ∧ (1 : BitVec 3).toNat ≤ 4 ∧ 1 ≤ (4 : BitVec 3).toNat ∧ (4 : BitVec 3).toNat ≤ 4 := by
  unfold mayArm
  decide

/-- Each agent that waits for what it armed. -/
theorem witness_Arms_agents :
    (s0 [0]).port.agent = .foreground ∧ ({ s0 [0] with port := ⟨0, .interrupt⟩ } : State).port.agent = .interrupt
      ∧ ({ s0 [0] with port := ⟨0, .callback⟩ } : State).port.agent = .callback := by decide

theorem witness_SecondTransferReturnsBusy :
    transferBuffer (.memrda 0x5F 0x28 1 0x20000100 4) = some (0x20000100, 4) ∧ (Instr.memrda 0x5F 0x28 1 0x20000100 4).wellFormed = true
      ∧ (mach readingAsync [] [] [] []).h.bound = true ∧ (0x20000100 : Word).toNat + (4 : BitVec 8).toNat ≤ 2 ^ 32
      ∧ (mach readingAsync [] [] [] []).h.state ≠ .ready := by decide

theorem witness_BusyPeripheralReturnsBusy :
    transferBuffer (.write 0x5F 0xFFFFFFFF 1) = some (0xFFFFFFFF, 1) ∧ (Instr.write 0x5F 0xFFFFFFFF 1).wellFormed = true
      ∧ (s0 [0x8000]).h.bound = true ∧ (0xFFFFFFFF : Word).toNat + (1 : BitVec 8).toNat ≤ 2 ^ 32 ∧ (s0 [0x8000]).h.state = .ready
      ∧ ((s0 [0x8000]).nextAnswer .isr).getLsbD 15 = true := by decide

/-- Both clauses: before INIT, and a buffer of two bytes at the last address. -/
theorem witness_TransferValueChecksRefuse :
    transferBuffer (.writea 0x5F 0xFFFFFFFF 2) = some (0xFFFFFFFF, 2) ∧ (Instr.writea 0x5F 0xFFFFFFFF 2).wellFormed = true
      ∧ (mach Handle.powerOn [] [] [] []).h.bound = false
      ∧ (s0 []).h.bound = true ∧ 2 ^ 32 < (0xFFFFFFFF : Word).toNat + (2 : BitVec 8).toNat := by decide

theorem witness_PollNackEndsTransfer :
    let s := mach writing [0x12] [] [] []
    s.h.blkStage ≠ .idle ∧ s.h.state ≠ .ready ∧ (s.nextAnswer .isr).getLsbD 4 = true := by decide

theorem witness_PollSendsByte :
    let s := mach writing [2] [] [] []
    s.h.blkStage = .byte ∧ s.h.operation = .write ∧ (s.nextAnswer .isr).getLsbD 4 = false ∧ (s.nextAnswer .isr).getLsbD 1 = true
      ∧ Memory.byteAt s.hostMem (s.h.bufBase + s.h.dataCount.zeroExtend 32) = some 0xA5 := by decide

theorem witness_PollReceivesByte :
    let s := mach reading [4] [0x5A] [] []
    s.h.blkStage = .byte ∧ s.h.operation = .read ∧ (s.nextAnswer .isr).getLsbD 4 = false ∧ (s.nextAnswer .isr).getLsbD 2 = true
      ∧ Memory.byteAt s.hostMem (payloadAddr s.h) = some 0xEE := by decide

theorem witness_PollCompletesTransfer :
    let s := mach { reading with dataCount := 1, blkStage := .ending } [0x40] [] [] []
    s.h.blkStage = .ending ∧ s.h.state ≠ .ready ∧ (s.nextAnswer .isr).getLsbD 4 = false
      ∧ ((s.nextAnswer .isr).getLsbD 5 = true ∨ (s.nextAnswer .isr).getLsbD 6 = true ∨ (s.nextAnswer .isr).getLsbD 7 = true) := by
  decide

/-- Both clauses: a count below T_POLL - 1, and the last one; STOPF in the byte wait is no progress (V-B5). -/
theorem witness_PollWithoutProgress :
    (let s := mach { writing with pollCount := 1 } [0x20] [] [] []
     s.h.blkStage ≠ .idle ∧ s.h.state ≠ .ready ∧ noProgress s.h (s.nextAnswer .isr) ∧ s.h.pollCount + 1 ≠ s.params.tPoll)
      ∧ (let s := mach { writing with pollCount := 2 } [0x20] [] [] []
         s.h.blkStage ≠ .idle ∧ s.h.state ≠ .ready ∧ noProgress s.h (s.nextAnswer .isr) ∧ s.h.pollCount + 1 = s.params.tPoll) := by
  unfold noProgress
  decide

/-- A poll and each of the two branches, on an unallocated byte. -/
theorem witness_RefusedHostAccessIsStuck :
    (let s := mach { writing with bufBase := 0x30000000 } [2] [] [] []
     Memory.byteAt s.hostMem (payloadAddr s.h) = none ∧ s.h.blkStage = .byte ∧ (s.nextAnswer .isr).getLsbD 4 = false
       ∧ readyFlag s.h.operation (s.nextAnswer .isr) = true)
      ∧ (let s := mach { readingAsync with bufBase := 0x30000000 } [4] [] [] []
         Memory.byteAt s.hostMem (payloadAddr s.h) = none ∧ takes s .rx)
      ∧ (let s := mach { writingAsync with bufBase := 0x30000000 } [2] [] [] []
         Memory.byteAt s.hostMem (payloadAddr s.h) = none ∧ takes s .tx ∧ s.h.state = .busyTransmitting) := by
  unfold takes
  decide

theorem witness_BlockingEndsWithinBound :
    let s := mach writing [] [] [] []
    0 < s.params.tPoll ∧ s.h.blkStage = .byte ∧ s.h.pollCount = 0 ∧ s.h.dataCount.toNat < s.h.len.toNat := by decide

theorem witness_SilentPeripheralTimesOut :
    let s := mach reading [0, 0, 0] [] [] []
    0 < s.params.tPoll ∧ s.h.blkStage = .byte ∧ s.h.state ≠ .ready ∧ s.h.pollCount = 0
      ∧ ∀ k, k < s.params.tPoll → s.script.isr[k]? = some 0 := by decide

/-- An empty body; a muted kind with a body that would act; both inside a body of another instance. -/
theorem witness_EventNackBranch :
    (let s := mach addressing [0x12] [] [] []
     takes s .nack ∧ quietNotice s .notAcknowledged ∧ takes (inside s) .nack ∧ quietNotice (inside s) .notAcknowledged)
      ∧ (let s := mach { addressing with cb := allMuted } [0x12] [] [] [[.command 0 [0x00000008]]]
         takes s .nack ∧ quietNotice s .notAcknowledged ∧ s.script.nextBody ≠ []
           ∧ takes (inside s) .nack ∧ quietNotice (inside s) .notAcknowledged) := by
  unfold takes quietNotice
  decide

theorem witness_EventRxBranch :
    takes (mach readingAsync [4] [0x96] [] []) .rx
      ∧ Memory.byteAt (mach readingAsync [4] [0x96] [] []).hostMem (payloadAddr (mach readingAsync [4] [0x96] [] []).h) = some 0xEE := by
  unfold takes
  decide

/-- The first and the last offset byte. -/
theorem witness_EventTxOffsetBranch :
    takes (mach addressing [2] [] [] []) .tx ∧ (mach addressing [2] [] [] []).h.state = .busyAddressingSubphase
      ∧ takes (mach { addressing with offsetCount := 1 } [2] [] [] []) .tx := by
  unfold takes
  decide

theorem witness_EventTxDataBranch :
    let s := mach { writingAsync with dataCount := 1 } [2] [] [] []
    takes s .tx ∧ s.h.state = .busyTransmitting
      ∧ Memory.byteAt s.hostMem (s.h.bufBase + s.h.dataCount.zeroExtend 32) = some 0x3C := by
  unfold takes
  decide

theorem witness_EventCpOffsetBranch :
    takes (mach addressing [0x80] [] [] []) .cp ∧ (mach addressing [0x80] [] [] []).h.state = .busyAddressingSubphase
      ∧ takes (mach { addressing with operation := .memoryWrite, offsetCount := 2 } [0x40] [] [] []) .cp := by
  unfold takes
  decide

theorem witness_EventCpDataBranch :
    (let s := mach { readingAsync with dataCount := 1 } [0x20] [] [] []
     takes s .cp ∧ takes (inside s) .cp ∧ s.h.state ≠ .busyAddressingSubphase ∧ quietNotice s .readComplete
       ∧ completionKind s.h.operation = some .readComplete)
      ∧ (let s := mach { readingAsync with cb := allMuted } [0x20] [] [] [[.neverReturns]]
         takes s .cp ∧ takes (inside s) .cp ∧ s.h.state ≠ .busyAddressingSubphase ∧ quietNotice s .readComplete
           ∧ s.script.nextBody ≠ [] ∧ completionKind s.h.operation = some .readComplete) := by
  unfold takes quietNotice
  decide

/-- The other branches inside a body of another instance: RX, TX in both phases, CP in the addressing phase, and callbacks of both kinds. -/
theorem witness_Event_inside :
    takes (inside (mach readingAsync [4] [0x96] [] [])) .rx ∧ takes (inside (mach addressing [2] [] [] [])) .tx
      ∧ takes (inside (mach writingAsync [2] [] [] [])) .tx ∧ takes (inside (mach addressing [0x80] [] [] [])) .cp
      ∧ callsBack (inside (mach readingAsync [0x20] [] [] [[.command 0 [0x00000008]]])) .readComplete
      ∧ callsBack (inside (mach addressing [0x10] [] [] [[.command 0 [0x00000008]]])) .notAcknowledged
      ∧ (inside (mach readingAsync [0x20] [] [] [])).calls ≠ [] := by
  unfold callsBack endsWith takes
  decide

/-- A spurious EVENT in Ready, one that meets a blocking transfer (V-B8), and one while nothing is bound (V-D13). -/
theorem witness_EventWithoutBranch :
    (let s := s0 [0x20]
     s.inBody s.port.inst = false ∧ s.midEvent s.port.inst = false ∧ s.h.bound = true ∧ takenBranch s.h (s.nextAnswer .isr) = none
       ∧ (inside s).inBody 0 = false ∧ (inside s).midEvent 0 = false)
      ∧ (let s := mach writing [2] [] [] []
         s.inBody s.port.inst = false ∧ s.midEvent s.port.inst = false ∧ s.h.bound = true ∧ takenBranch s.h (s.nextAnswer .isr) = none)
      ∧ (let s := mach Handle.powerOn [] [] [] []
         s.inBody s.port.inst = false ∧ s.midEvent s.port.inst = false ∧ s.h.bound = false) := by decide

theorem witness_EventIsBounded :
    (mach addressing [0x80] [] [] []).script.bodies = [] ∧ (inside (mach addressing [0x80] [] [] [])).script.bodies = [] := by decide

/-- The callback of either kind of ending, with an EVENT as its body. -/
theorem witness_NestedEventRefused :
    (let s := mach { readingAsync with dataCount := 1 } [0x20] [] [] [[.command 0 [0x00000008]]]
     callsBack s .readComplete ∧ s.port.inst < s.params.nInst ∧ s.script.nextBody = [.command s.port.inst [0x00000008]])
      ∧ (let s := mach { addressing with cb := allOn } [0x10] [] [] [[.command 0 [0x00000008]]]
         callsBack s .notAcknowledged ∧ s.port.inst < s.params.nInst
           ∧ s.script.nextBody = [.command s.port.inst [0x00000008]]) := by
  unfold callsBack endsWith takes
  decide

/-- The callback of either kind of ending, with a transfer command as its body. -/
theorem witness_CallbackTransferReturnsBusy :
    let i := Instr.reada 0x5F 0x20000300 1
    let r := mach { readingAsync with dataCount := 1 } [0x20] [] [] [[.command 0 (encode i)]]
    let n := mach addressing [0x10] [] [] [[.command 0 (encode i)]]
    callsBack r .readComplete ∧ r.port.inst < r.params.nInst ∧ r.script.nextBody = [.command r.port.inst (encode i)]
      ∧ callsBack n .notAcknowledged ∧ n.port.inst < n.params.nInst ∧ n.script.nextBody = [.command n.port.inst (encode i)]
      ∧ transferBuffer i = some (0x20000300, 1) ∧ i.wellFormed = true ∧ (0x20000300 : Word).toNat + (1 : BitVec 8).toNat ≤ 2 ^ 32 := by
  unfold callsBack endsWith takes
  decide

/-- A body that arms nothing, one that arms a WRITE of another instance, and one that does not return. -/
theorem witness_CallbackCommandsRun :
    (let i := Instr.setcb .readComplete false false 0
     let s := mach { readingAsync with dataCount := 1 } [0x20] [] [] [[.command 0 (encode i)]]
     callsBack s .readComplete ∧ s.script.nextBody = [.command 0 (encode i)] ∧ i.wellFormed = true ∧ i ≠ .event
       ∧ 0 < s.params.nInst ∧ s.midEvent 0 = false
       ∧ nextHas (exec i { bodyStart s .readComplete [] with port := ⟨0, .callback⟩ }) (fun u => u.h.blkStage == .idle) = true)
      ∧ (let i := Instr.write 0x50 0x20000000 1
         let s := twoEnding [.command 1 (encode i)]
         callsBack s .readComplete ∧ s.script.nextBody = [.command 1 (encode i)] ∧ i.wellFormed = true ∧ i ≠ .event
           ∧ 1 < s.params.nInst ∧ s.midEvent 1 = false ∧ (bodyStart s .readComplete []).handleAt 1 = idle
           ∧ nextHas (exec i { bodyStart s .readComplete [] with port := ⟨1, .callback⟩ }) (fun u => u.h.blkStage == .byte) = true)
      ∧ (let s := twoEnding [.neverReturns]
         callsBack s .readComplete ∧ s.script.nextBody = .neverReturns :: []) := by
  unfold callsBack endsWith takes
  decide

/-- Each next step of a body: it is done, it stores, it has a command that is held back, reserved, EVENT, nested EVENT, SETCB, WRITE. -/
theorem witness_CallbackBodyStep :
    let s := twoEnding []
    let p : Port := ⟨0, .interrupt⟩
    let running := fun (b : List BodyStep) => ({ s with calls := [⟨p, b⟩] } : State)
    let c := fun (n : Nat) => ({ running [] with port := ⟨n, .callback⟩ } : State)
    (running []).calls = ⟨p, []⟩ :: [] ∧ (running [.hostStore 0 1]).calls = ⟨p, .hostStore 0 1 :: []⟩ :: []
      ∧ ({ running [] with suspended := [⟨none, [⟨⟨1, .interrupt⟩, []⟩]⟩] } : State).midEvent 1 = true
      ∧ (running []).midEvent 1 = false ∧ 1 < (running []).params.nInst
      ∧ (∃ r ∈ (running []).calls, r.port.inst = 0)
      ∧ nextHas (exec (.setcb .readComplete true true 7) (c 1)) (fun u => u.h.blkStage == .idle) = true
      ∧ (c 1).h.blkStage = .idle
      ∧ nextHas (exec (.write 0x50 0x20000000 1) { c 1 with script := ⟨[0], [], [], []⟩ }) (fun u => u.h.blkStage == .byte) = true := by
  decide

theorem witness_CallbackBodyStep_decodes :
    decodeCommand [0x00000008] = .ok .event ∧ (∀ i, decodeCommand [0x0000000F] ≠ .ok i) :=
  ⟨rfl, fun i h => nomatch (show (.error .reservedOpcode : Except DecodeError Instr) = .ok i from h)⟩

theorem witness_StepRunsDecodedCommand :
    0 < (s0 []).params.nInst ∧ decodeCommand [0x00000008] = .ok .event ∧ (s0 []).midEvent 0 = false
      ∧ ({ s0 [] with inbox := [.foreground 0 [8]] } : State).inbox = .foreground 0 [8] :: []
      ∧ ({ s0 [] with inbox := [.interrupt 0 [8]] } : State).inbox = .interrupt 0 [8] :: []
      ∧ (s0 []).fgCall = none :=
  ⟨by decide, rfl, rfl, rfl, rfl, rfl⟩

/-- Each clause: a waiting foreground, an idle machine with a transfer in progress, with none, and with bodies that wait; their turn by the
inbox; a command of either agent held back; a wait for a transfer, and one for the turn only. -/
theorem witness_WaitingForegroundPolls :
    (let s : State := { mach writing [] [] [] [] with fgCall := some 0, inbox := [.foreground 0 [0x10]] }
     0 < s.params.nInst ∧ s.fgCall = some 0 ∧ s.inbox = .foreground 0 [0x10] :: [])
      ∧ (let s := mach writing [] [] [] []
         0 < s.params.nInst ∧ s.inbox = [] ∧ s.suspended = [] ∧ s.pollable = some 0)
      ∧ (s0 []).inbox = [] ∧ (s0 []).suspended = [] ∧ (s0 []).pollable = none
      ∧ (let s := twoWaiting [] (some 1)
         s.inbox = [] ∧ s.suspended ≠ [] ∧ s.suspended[0]? = some ⟨some 1, [⟨⟨0, .interrupt⟩, []⟩]⟩ ∧ 1 < s.params.nInst)
      ∧ (twoWaiting [.callback 0] none).inbox = .callback 0 :: []
      ∧ (twoWaiting [.callback 0] none).suspended[0]? = some ⟨none, [⟨⟨0, .interrupt⟩, []⟩]⟩
      ∧ (twoWaiting [.interrupt 0 [8]] none).midEvent 0 = true ∧ (twoWaiting [.interrupt 0 [8]] none).inbox = .interrupt 0 [8] :: []
      ∧ (twoWaiting [.foreground 0 [8]] none).inbox = .foreground 0 [8] :: [] ∧ (twoWaiting [.foreground 0 [8]] none).fgCall = none := by
  decide

theorem witness_HostStoreIsSeen :
    ({ s0 [] with inbox := [.hostStore 0x20000000 0x22] } : State).inbox = .hostStore 0x20000000 0x22 :: []
      ∧ ({ s0 [] with inbox := [.hostRelease 0x20000000] } : State).inbox = .hostRelease 0x20000000 :: [] := by decide

theorem witness_PowerOnStepResetsOneInstance :
    ({ mach writing [] [] [] [] with inbox := [.powerOn 0] } : State).inbox = .powerOn 0 :: []
      ∧ 0 < (mach writing [] [] [] []).params.nInst
      ∧ (let w : Waiting := ⟨none, [⟨⟨0, .interrupt⟩, []⟩]⟩
         w ∈ (twoWaiting [.powerOn 1] none).suspended ∧ w.waits ≠ some 1 ∧ w.runs ≠ [] ∧ ∀ r ∈ w.runs, r.port.inst ≠ 1) := by decide

/-- A machine at power-on, with a command of the foreground to come. -/
def started : State := { mach Handle.powerOn [] [] [] [] with handles := [], inbox := [.foreground 0 [0x10]] }

theorem witness_Start : started.Start := by
  unfold State.Start
  decide

/-- A small machine meets the invariant if its handle does and the foreground waits exactly for its blocking transfer. -/
theorem small_inv (h : Handle) (isr rxdr cr1 : List Word) (ib : List Input) (fg : Option Nat) (hh : h.Inv 3) (hne : h ≠ Handle.powerOn)
    (hf : fg = if h.blkStage = .idle then none else some 0) :
    State.Inv { mach h isr rxdr cr1 [] with inbox := ib, fgCall := fg } := by
  subst hf
  refine ⟨show 0 < 3 by decide, fun n => ?_, fun n hn => ?_, show Memory.wf (s0 []).hostMem by decide,
    ⟨List.pairwise_singleton _ _, ?_⟩, ⟨List.Pairwise.nil, fun e he => (nomatch he)⟩, rfl, List.nodup_nil,
    fun w hw => (nomatch hw), fun w hw => (nomatch hw), fun w hw => (nomatch hw), fun n hn => ?_⟩
  · match n with
    | 0 => exact hh
    | n + 1 =>
      show Handle.Inv 3 Handle.powerOn
      exact ⟨by decide, by decide, by decide, by decide, by decide, by decide, by decide, by decide, by decide, by decide, by decide,
        by decide⟩
  · match n with
    | 0 => exact absurd hn (Nat.not_succ_le_zero 0)
    | n + 1 => rfl
  · intro e he
    rw [List.mem_singleton.1 he]
    exact hne
  · show (State.handleAt _ n).blkStage ≠ .idle
    have hn : (if h.blkStage = .idle then none else some 0) = some n := hn
    split at hn
    · cases hn
    · cases hn; assumption

/-- A machine whose one instance is in the addressing phase of a MEMRDA, with an EVENT to come. -/
def stepping : State := { mach addressing [2] [] [] [] with inbox := [.interrupt 0 [8]], fgCall := none }

theorem witness_StepKeepsInvariant :
    stepping.Inv ∧ nextHas (Sys2Proof.Machine.step stepping) (fun t => t.h.offsetCount == 1) = true :=
  ⟨small_inv addressing [2] [] [] _ none
    ⟨by decide, by decide, by decide, by decide, by decide, by decide, by decide, by decide, by decide, by decide, by decide, by decide⟩
    (by decide) (by decide), by decide⟩

theorem witness_Reaches : started.Start ∧ ∃ t, Reaches started t ∧ t.h.bound = true := by
  refine ⟨witness_Start, _, .step .here (show Sys2Proof.Machine.step started = .next _ from rfl), by decide⟩

/-- Also the hypothesis of ViewsAreWhatAccessesLeave: a step that answers a next state. -/
theorem witness_StepOnlyAdds :
    nextHas (Sys2Proof.Machine.step { started with refusalMark := true }) (fun t => t.refusalMark) = true := by decide

/-- Another instance beside a command and beside a poll. -/
theorem witness_InstancesShareNoState :
    (1 : Nat) ≠ (mach addressing [2] [] [] []).port.inst ∧ (mach addressing [2] [] [] []).calls = [] ∧ (mach addressing [2] [] [] []).script.bodies = []
      ∧ nextHas (exec .event (mach addressing [2] [] [] [])) (fun t => t.handleAt 1 == Handle.powerOn) = true
      ∧ nextHas (blkPoll (mach writing [2] [] [] [])) (fun t => t.handleAt 1 == Handle.powerOn) = true := by decide

/-- The addressing phase about to end, a row of the transition table. -/
theorem witness_StateChangesAreTableRows :
    State.Inv { mach addressing [0x80] [] [] [] with inbox := [], fgCall := none }
      ∧ nextHas (exec .event { mach addressing [0x80] [] [] [] with inbox := [], fgCall := none })
          (fun t => t.h.state == .busyReceiving && t.h.operation == .memoryRead) = true :=
  ⟨small_inv addressing [0x80] [] [] _ none
    ⟨by decide, by decide, by decide, by decide, by decide, by decide, by decide, by decide, by decide, by decide, by decide, by decide⟩
    (by decide) (by decide), by decide⟩

/-- A byte of the buffer that a dispatcher step changes, and one that a poll changes. -/
theorem witness_BlockWritesOnlyItsBuffer :
    (State.Inv { mach readingAsync [4] [0x96] [] [] with inbox := [], fgCall := none }
      ∧ nextHas (exec .event { mach readingAsync [4] [0x96] [] [] with inbox := [], fgCall := none })
          (fun t => Memory.byteAt t.hostMem 0x20000100 == some 0x96) = true)
      ∧ (State.Inv { mach reading [4] [0x96] [] [] with inbox := [], fgCall := some 0 }
        ∧ nextHas (blkPoll { mach reading [4] [0x96] [] [] with inbox := [], fgCall := some 0 })
            (fun t => Memory.byteAt t.hostMem 0x20000100 == some 0x96) = true) :=
  ⟨⟨small_inv readingAsync [4] [0x96] [] _ none
      ⟨by decide, by decide, by decide, by decide, by decide, by decide, by decide, by decide, by decide, by decide, by decide, by decide⟩
      (by decide) (by decide), by decide⟩,
    ⟨small_inv reading [4] [0x96] [] _ (some 0)
      ⟨by decide, by decide, by decide, by decide, by decide, by decide, by decide, by decide, by decide, by decide, by decide, by decide⟩
      (by decide) (by decide), by decide⟩⟩

theorem witness_NackEndsByteTraffic :
    takes (mach addressing [0x12, 0x20] [] [] []) .nack ∧ (mach addressing [0x12, 0x20] [] [] []).calls = []
      ∧ (mach addressing [0x12, 0x20] [] [] []).script.bodies = []
      ∧ nextHas (exec .event (mach addressing [0x12, 0x20] [] [] []))
          (fun t => t.nextAnswer .isr == 0x20 && t.calls == [] && !t.midEvent t.port.inst) = true := by
  unfold takes
  decide

/-- Two status words with the same five flags: TC and TCR stand for one another, the other bits do not matter. -/
theorem witness_OnlyTheFiveFlagsMatter :
    let v : Word := 0x40
    let w : Word := 0x10F80
    v.getLsbD 1 = w.getLsbD 1 ∧ v.getLsbD 2 = w.getLsbD 2 ∧ v.getLsbD 4 = w.getLsbD 4 ∧ v.getLsbD 15 = w.getLsbD 15
      ∧ (v.getLsbD 5 || v.getLsbD 6 || v.getLsbD 7) = (w.getLsbD 5 || w.getLsbD 6 || w.getLsbD 7)
      ∧ (mach addressing [] [] [] []).calls = [] ∧ (mach addressing [] [] [] []).script.bodies = [] := by decide

end Sys2Proof.Tests
end

section
/-! PROOFS. 00_scope.md R7: "instances share no state". The commands, the dispatcher and the poll write one handle, that of the instance on
the port; with no scripted callback body an EVENT is over when its own branch is. -/

namespace Sys2Proof.Machine

/-! ## Only the handle on the port -/

/-- The same instance is on the port, and no other instance's handle was written. -/
def OnlyOwnHandle (s t : State) : Prop := t.port = s.port ∧ ∀ n, n ≠ s.port.inst → t.handleAt n = s.handleAt n

theorem OnlyOwnHandle.refl (s : State) : OnlyOwnHandle s s := ⟨rfl, fun _ _ => rfl⟩

/-- Unlike `SameOutside`, this composes whatever becomes of the peripheral binding. -/
theorem OnlyOwnHandle.trans {s t u : State} (a : OnlyOwnHandle s t) (b : OnlyOwnHandle t u) : OnlyOwnHandle s u := by
  obtain ⟨hpst, hst⟩ := a
  obtain ⟨hptu, htu⟩ := b
  exact ⟨hptu.trans hpst, fun n hn => (htu n (hpst ▸ hn)).trans (hst n hn)⟩

theorem SameOutside.onlyOwnHandle {s t : State} (h : SameOutside s t) : OnlyOwnHandle s t := by
  obtain ⟨_, _, hport, _, hhandles, _⟩ := h
  exact ⟨hport, hhandles⟩

theorem OnlyOwnHandle.modifyH (s : State) (f : Handle → Handle) : OnlyOwnHandle s (s.modifyH f) :=
  (SameOutside.modifyH s f).onlyOwnHandle

theorem OnlyOwnHandle.afterPrd (s : State) (r : PReg) : OnlyOwnHandle s (s.afterPrd r) := (SameOutside.afterPrd s r).onlyOwnHandle

theorem OnlyOwnHandle.pwr (s : State) (r : PReg) (v : Word) : OnlyOwnHandle s (s.pwr r v) := (SameOutside.pwr s r v).onlyOwnHandle

theorem OnlyOwnHandle.answer (s : State) (r : Result) : OnlyOwnHandle s (s.answer r) := (SameOutside.answer s r).onlyOwnHandle

/-! ## Commands -/

/-- A transfer command writes other handles only where what it starts does. -/
theorem OnlyOwnHandle.transfer (ok : Bool) (buf : Word) (len : BitVec 8) {start : State → State} (s : State)
    (h : ∀ t, OnlyOwnHandle t (start t)) : OnlyOwnHandle s (transfer ok buf len start s) := by
  have hi : OnlyOwnHandle s s.afterCheckIdle := by
    obtain ⟨_, _, _, hout, _⟩ := s.afterCheckIdle_frame
    exact hout.onlyOwnHandle
  rcases transfer_cases ok buf len start s with ⟨_, e⟩ | ⟨_, _, e⟩ | ⟨_, _, _, e⟩ | ⟨_, _, _, _, e⟩ | ⟨_, _, _, _, e⟩ <;> rw [e]
  · exact OnlyOwnHandle.refl s
  · exact OnlyOwnHandle.refl s
  · exact OnlyOwnHandle.refl s
  · exact hi
  · exact hi.trans (h _)

theorem OnlyOwnHandle.asyncStart (op : Operation) (dev : BitVec 7) (reg : Word) (w : BitVec 3) (buf : Word) (len : BitVec 8) (s : State) :
    OnlyOwnHandle s (s.asyncStart op dev reg w buf len) := by
  obtain ⟨_, hout, _⟩ := State.arm_frame op dev reg w buf len s
  exact hout.onlyOwnHandle

theorem OnlyOwnHandle.blkStart (op : Operation) (dev : BitVec 7) (buf : Word) (len : BitVec 8) (s : State) :
    OnlyOwnHandle s (s.blkStart op dev buf len) := by
  obtain ⟨_, hout, _⟩ := State.arm_frame op dev 0 0 buf len s
  exact (hout.onlyOwnHandle.trans (.modifyH _ Handle.startPolling)).trans (SameOutside.noteCall _).onlyOwnHandle

theorem execInit_onlyOwnHandle {p : BitVec 8} {s t : State} (h : execInit p s = .next t) : OnlyOwnHandle s t := by
  unfold execInit at h
  split at h <;> cases h
  · exact OnlyOwnHandle.refl s
  · exact (OnlyOwnHandle.modifyH s _).trans (.answer _ .ok)

theorem execSetcb_onlyOwnHandle {k : CbKind} {inst en : Bool} {hd : Word} {s t : State} (h : execSetcb k inst en hd s = .next t) :
    OnlyOwnHandle s t := by
  unfold execSetcb at h
  split at h
  · cases h; exact OnlyOwnHandle.refl s
  · split at h <;> cases h
    · exact OnlyOwnHandle.refl s
    · exact (OnlyOwnHandle.modifyH s _).trans (.answer _ .ok)

/-! ## The dispatcher -/

theorem memWrite_onlyOwnHandle {a : Word} {v : Byte} {s t : State} (h : memWrite a v s = .next t) : OnlyOwnHandle s t := by
  obtain ⟨_, rfl⟩ := memWrite_eq_next.1 h
  exact OnlyOwnHandle.refl s

theorem OnlyOwnHandle.finishEvent (s : State) : OnlyOwnHandle s (finishEvent s) := (SameOutside.terminate s).onlyOwnHandle

theorem OnlyOwnHandle.notify (k : CbKind) (s : State) : OnlyOwnHandle s (notify k s) := by
  unfold Machine.notify
  split
  · exact OnlyOwnHandle.refl s
  · exact OnlyOwnHandle.finishEvent s

theorem OnlyOwnHandle.nackBranch (s : State) : OnlyOwnHandle s (nackBranch s) :=
  ((OnlyOwnHandle.modifyH s _).trans (.pwr _ .icr icrNACK)).trans (.notify _ _)

theorem OnlyOwnHandle.cpDataBranch (s : State) : OnlyOwnHandle s (cpDataBranch s) := by
  unfold Machine.cpDataBranch
  split
  · exact (OnlyOwnHandle.pwr s .icr icrSTOP).trans (.finishEvent _)
  · exact (OnlyOwnHandle.pwr s .icr icrSTOP).trans (.notify _ _)

theorem OnlyOwnHandle.cpOffsetBranch (s : State) : OnlyOwnHandle s (cpOffsetBranch s) :=
  ((OnlyOwnHandle.pwr s .icr icrSTOP).trans (SameOutside.setState _ _).onlyOwnHandle).trans (.pwr _ .cr2 _)

theorem OnlyOwnHandle.txOffsetBranch (s : State) : OnlyOwnHandle s (txOffsetBranch s) :=
  (OnlyOwnHandle.pwr s .txdr _).trans (.modifyH _ Handle.countOffset)

theorem rxBranch_onlyOwnHandle {s t : State} (h : rxBranch s = .next t) : OnlyOwnHandle s t := by
  obtain ⟨u, hu, h⟩ := andThen_eq_next.1 h
  cases h
  exact (((OnlyOwnHandle.afterPrd s .rxdr).trans (memWrite_onlyOwnHandle hu)).trans (.modifyH u _)).trans (.answer _ .ok)

theorem txDataBranch_onlyOwnHandle {s t : State} (h : txDataBranch s = .next t) : OnlyOwnHandle s t := by
  obtain ⟨v, _, h⟩ := memRead_eq_next.1 h
  cases h
  exact (((SameOutside.log s _).onlyOwnHandle.trans (.pwr _ .txdr _)).trans (.modifyH _ _)).trans (.answer _ .ok)

theorem runBranch_onlyOwnHandle {b : Branch} {s t : State} (h : runBranch b s = .next t) : OnlyOwnHandle s t := by
  cases b with
  | nack => cases h; exact OnlyOwnHandle.nackBranch s
  | rx => exact rxBranch_onlyOwnHandle h
  | tx =>
    simp only [runBranch] at h
    split at h
    · cases h; exact OnlyOwnHandle.txOffsetBranch s
    · exact txDataBranch_onlyOwnHandle h
  | cp =>
    simp only [runBranch] at h
    split at h <;> cases h
    · exact OnlyOwnHandle.cpOffsetBranch s
    · exact OnlyOwnHandle.cpDataBranch s

theorem eventOn_onlyOwnHandle {v : Word} {s t : State} (h : eventOn v s = .next t) : OnlyOwnHandle s t := by
  unfold eventOn at h
  split at h
  · cases h; exact OnlyOwnHandle.refl s
  · exact runBranch_onlyOwnHandle h

theorem eventStep_onlyOwnHandle {s t : State} (h : eventStep s = .next t) : OnlyOwnHandle s t := by
  unfold eventStep at h
  split at h
  · cases h; exact OnlyOwnHandle.refl s
  · split at h
    · cases h; exact OnlyOwnHandle.refl s
    · exact (OnlyOwnHandle.afterPrd s .isr).trans (eventOn_onlyOwnHandle h)

/-- A command, without the callback body it may begin, writes one handle only. -/
theorem nestedExec_onlyOwnHandle {i : Instr} {s t : State} (h : nestedExec i s = .next t) : OnlyOwnHandle s t := by
  cases i with
  | init p => exact execInit_onlyOwnHandle h
  | setcb k inst en hd => exact execSetcb_onlyOwnHandle h
  | write d b l => cases h; exact .transfer _ _ _ _ fun _ => .blkStart _ _ _ _ _
  | read d b l => cases h; exact .transfer _ _ _ _ fun _ => .blkStart _ _ _ _ _
  | writea d b l => cases h; exact .transfer _ _ _ _ fun _ => .asyncStart _ _ _ _ _ _ _
  | reada d b l => cases h; exact .transfer _ _ _ _ fun _ => .asyncStart _ _ _ _ _ _ _
  | memwra d r w b l => cases h; exact .transfer _ _ _ _ fun _ => .asyncStart _ _ _ _ _ _ _
  | memrda d r w b l => cases h; exact .transfer _ _ _ _ fun _ => .asyncStart _ _ _ _ _ _ _
  | event => exact eventStep_onlyOwnHandle h

/-! ## The callback body -/

/-- A body that issues nothing, the only one that runs: its EVENT ends at once. -/
theorem State.runCallbacks_empty {s : State} {p : Port} (h : s.calls = [{ port := p, body := [] }]) :
    s.runCallbacks = .next (closeEvent p [] s) :=
  (State.runCallbacks_done h).trans (State.runCallbacks_nil rfl)

theorem Script.nextBody_nil {c : Script} (h : c.bodies = []) : c.nextBody = [] := by
  simp [Script.nextBody, h]

/-- Between EVENTs and with no scripted body, a command is its own step, and where that step began a body the EVENT is then closed. -/
theorem exec_unscripted_cases {i : Instr} {s t : State} (hc : s.calls = []) (hb : s.script.bodies = []) (h : exec i s = .next t) :
    nestedExec i s = .next t ∨ ∃ u, nestedExec i s = .next u ∧ t = closeEvent s.port [] u := by
  cases i with
  | event =>
    obtain ⟨u, hu, hrun⟩ := andThen_eq_next.1 h
    rcases eventStep_bodies hu with ⟨hcalls, _⟩ | ⟨hcalls, _⟩
    · rw [State.runCallbacks_nil (hcalls.trans hc)] at hrun
      cases hrun
      exact .inl hu
    · rw [Script.nextBody_nil hb, hc] at hcalls
      rw [State.runCallbacks_empty hcalls] at hrun
      cases hrun
      exact .inr ⟨u, hu, rfl⟩
  | _ => exact .inl h

/-- The end of an EVENT of the instance on the port writes its handle only. -/
theorem OnlyOwnHandle.closeEvent {p : Port} {s : State} (rest : List BodyRun) (h : s.port = p) :
    OnlyOwnHandle s (closeEvent p rest s) := by
  subst h
  exact OnlyOwnHandle.finishEvent { s with calls := rest }

/-! ## The poll -/

theorem OnlyOwnHandle.blkEnd (r : Result) (s : State) : OnlyOwnHandle s (s.blkEnd r) := OnlyOwnHandle.modifyH s Handle.endPolling

theorem pollByte_onlyOwnHandle {s t : State} (h : pollByte s = .next t) : OnlyOwnHandle s t := by
  unfold pollByte at h
  split at h
  · obtain ⟨v, _, h⟩ := memRead_eq_next.1 h
    cases h
    exact ((SameOutside.log s _).onlyOwnHandle.trans (.pwr _ .txdr _)).trans (.modifyH _ _)
  · obtain ⟨u, hu, h⟩ := andThen_eq_next.1 h
    cases h
    exact ((OnlyOwnHandle.afterPrd s .rxdr).trans (memWrite_onlyOwnHandle hu)).trans (.modifyH u _)

theorem pollOn_onlyOwnHandle {v : Word} {s t : State} (h : pollOn v s = .next t) : OnlyOwnHandle s t := by
  rcases pollOn_cases v s with ⟨_, e⟩ | ⟨_, _, _, e⟩ | ⟨_, _, _, e⟩ | ⟨_, _, e⟩ | ⟨_, _, e⟩ <;> rw [e] at h
  case inr.inl => exact pollByte_onlyOwnHandle h
  all_goals cases h
  · exact ((OnlyOwnHandle.pwr s .icr icrNACK).trans (.modifyH _ _)).trans (.blkEnd _ _)
  · exact (OnlyOwnHandle.pwr s .icr icrSTOP).trans (.blkEnd _ _)
  · exact (OnlyOwnHandle.modifyH s _).trans (.blkEnd _ _)
  · exact OnlyOwnHandle.modifyH s Handle.pollMissed

theorem blkPoll_onlyOwnHandle {s t : State} (h : blkPoll s = .next t) : OnlyOwnHandle s t := by
  unfold blkPoll at h
  split at h
  · cases h; exact OnlyOwnHandle.refl s
  · exact (OnlyOwnHandle.afterPrd s .isr).trans (pollOn_onlyOwnHandle h)

/-- A command writes one handle only where no callback body issues commands of its own. -/
theorem exec_onlyOwnHandle {i : Instr} {s t : State} (hc : s.calls = []) (hb : s.script.bodies = []) (h : exec i s = .next t) :
    OnlyOwnHandle s t := by
  rcases exec_unscripted_cases hc hb h with h | ⟨u, hu, rfl⟩
  · exact nestedExec_onlyOwnHandle h
  · have hown := nestedExec_onlyOwnHandle hu
    exact hown.trans (.closeEvent [] hown.1)

/-- Settles O56: a command and a poll write the handle of the instance on the port, and an EVENT with no scripted body ends on that
handle too. -/
theorem instancesShareNoState : Obligations.InstancesShareNoState := by
  intro i s t n hn hc hb h
  have hown : OnlyOwnHandle s t := h.elim (exec_onlyOwnHandle hc hb) blkPoll_onlyOwnHandle
  exact hown.2 n hn

end Sys2Proof.Machine
end

section
/-! PROOFS. Who takes the next step (00_scope.md R6, 20_memory.md R60): one equation for each first entry of the inbox, and the turn of the
callback bodies that wait. -/

namespace Sys2Proof.Machine

section
variable {s : State}

/-! ## The first entry of the inbox -/

theorem step_of_inbox_nil (h : s.inbox = []) : step s = idleStep s := by
  simp [step, takeInput, h]

theorem step_of_foreground_waiting {n m : Nat} {ws : List Word} {rest : List Input} (h : s.inbox = .foreground n ws :: rest)
    (hf : s.fgCall = some m) : step s = pollInstance m s := by
  simp [step, takeInput, h, hf]

theorem step_of_foreground_free {n : Nat} {ws : List Word} {rest : List Input} (h : s.inbox = .foreground n ws :: rest)
    (hf : s.fgCall = none) : step s = offer .foreground n ws rest s := by
  simp [step, takeInput, h, hf]

theorem step_of_interrupt {n : Nat} {ws : List Word} {rest : List Input} (h : s.inbox = .interrupt n ws :: rest) :
    step s = offer .interrupt n ws rest s := by
  simp [step, takeInput, h]

theorem step_of_callback {k : Nat} {rest : List Input} (h : s.inbox = .callback k :: rest) :
    step s = bodyTurn k { s with inbox := rest } := by
  simp [step, takeInput, h]

theorem pollInstance_eq {m : Nat} (h : m < s.params.nInst) : pollInstance m s = blkPoll { s with port := ⟨m, .foreground⟩ } :=
  if_pos h

/-! ## No step offered (entry 2) -/

theorem idleStep_bodies (h : s.suspended ≠ []) : idleStep s = bodyTurn 0 s := by
  obtain ⟨w, ws, hs⟩ := List.exists_cons_of_ne_nil h
  simp [idleStep, hs]

theorem idleStep_polls {m : Nat} (h : s.suspended = []) (hp : s.pollable = some m) : idleStep s = pollInstance m s := by
  simp [idleStep, h, hp]

theorem idleStep_waits (h : s.suspended = []) (hp : s.pollable = none) : idleStep s = .next s := by
  simp [idleStep, h, hp]

/-! ## Callback bodies that wait (entry 11) -/

theorem Waiting.holds_iff {n : Nat} {w : Waiting} : w.holds n = true ↔ ∃ r ∈ w.runs, r.port.inst = n := by
  simp [Waiting.holds]

/-- Inside an EVENT of `n` of which bodies wait, their place among those that wait is a real one, and they belong to that EVENT. -/
theorem State.bodyOf_spec {n : Nat} (h : s.midEvent n = true) :
    ∃ w, s.suspended[s.bodyOf n]? = some w ∧ w.holds n = true := by
  obtain ⟨w, hw, hold⟩ := List.any_eq_true.1 h
  have hlt : s.bodyOf n < s.suspended.length := List.findIdx_lt_length_of_exists ⟨w, hw, hold⟩
  exact ⟨_, List.getElem?_eq_getElem hlt, List.findIdx_getElem (w := hlt)⟩

theorem offer_heldBack {a : Agent} {n : Nat} {ws : List Word} {rest : List Input} (h : s.midEvent n = true) :
    offer a n ws rest s = bodyTurn (s.bodyOf n) s :=
  if_pos h

theorem bodyTurn_polls {k m : Nat} {w : Waiting} (h : s.suspended[k]? = some w) (hw : w.waits = some m) :
    bodyTurn k s = pollInstance m s := by
  simp [bodyTurn, h, hw]

theorem bodyTurn_goesOn {k : Nat} {w : Waiting} (h : s.suspended[k]? = some w) (hw : w.waits = none) :
    bodyTurn k s = State.runCallbacks { s with calls := w.runs, suspended := s.suspended.eraseIdx k } := by
  simp [bodyTurn, h, hw]

/-- A command of an agent that does not wait, for an instance inside such an EVENT, is held back: the step is the turn of those bodies. -/
theorem step_heldBack {n : Nat} {ws : List Word} {rest : List Input} (hmid : s.midEvent n = true)
    (h : s.inbox = .interrupt n ws :: rest ∨ (s.inbox = .foreground n ws :: rest ∧ s.fgCall = none)) :
    step s = bodyTurn (s.bodyOf n) s := by
  rcases h with hi | ⟨hi, hf⟩
  · exact (step_of_interrupt hi).trans (offer_heldBack hmid)
  · exact (step_of_foreground_free hi hf).trans (offer_heldBack hmid)

end

/-- Settles O47, by the first entry of the inbox, and for the bodies by what they wait for. -/
theorem waitingForegroundPolls : Obligations.WaitingForegroundPolls := by
  intro s m hm
  refine ⟨?foreground, ?idlePolls, ?idleRests, ?idleBodies, ?callback, ?held, ?turn⟩
  case foreground => exact fun n ws rest hf hi => (step_of_foreground_waiting hi hf).trans (pollInstance_eq hm)
  case idlePolls => exact fun hi hs hp => (step_of_inbox_nil hi).trans ((idleStep_polls hs hp).trans (pollInstance_eq hm))
  case idleRests => exact fun hi hs hp => (step_of_inbox_nil hi).trans (idleStep_waits hs hp)
  case idleBodies => exact fun hi hs => (step_of_inbox_nil hi).trans (idleStep_bodies hs)
  case callback => exact fun k rest hi => step_of_callback hi
  case held =>
    intro n ws rest hmid hi
    obtain ⟨w, hw, hold⟩ := State.bodyOf_spec hmid
    exact ⟨s.bodyOf n, w, hw, Waiting.holds_iff.1 hold, step_heldBack hmid hi⟩
  case turn =>
    exact fun k w hk => ⟨fun hw => (bodyTurn_polls hk hw).trans (pollInstance_eq hm), fun hw => bodyTurn_goesOn hk hw⟩

end Sys2Proof.Machine
end

section
/-! PROOFS. 10_state.md R38, R20: every update of a handle that a command, an EVENT or a poll makes keeps the handle's invariant. -/

namespace Sys2Proof.Machine

/-- A counter below its bound can take one more without wrapping. -/
theorem toNat_succ_le {n : Nat} {x y : BitVec n} (hlt : x.toNat < y.toNat) : (x + 1).toNat ≤ y.toNat := by
  have hy := y.isLt
  have hone : (1 : BitVec n).toNat ≤ 1 := Nat.mod_le 1 (2 ^ n)
  have hsum := Nat.mod_le (x.toNat + (1 : BitVec n).toNat) (2 ^ n)
  rw [BitVec.toNat_add]
  omega

/-! ## Operations -/

theorem Operation.isAsync_of_isMemory {op : Operation} (hm : op.isMemory = true) : op.isAsync = true := by
  cases op <;> simp_all [Operation.isMemory, Operation.isAsync]

/-- The data phase of a memory operation goes in its own direction (44_dispatcher.md R176). -/
theorem dataState_of_isMemory {op : Operation} (hm : op.isMemory = true) :
    (op = .memoryWrite ∧ dataState op = .busyTransmitting) ∨ (op = .memoryRead ∧ dataState op = .busyReceiving) := by
  cases op <;> simp_all [Operation.isMemory, dataState]

theorem initState_eq_addressing {op : Operation} : initState op = .busyAddressingSubphase ↔ op.isMemory = true := by
  cases op <;> simp [initState, Operation.isMemory]

theorem initState_eq_transmitting {op : Operation} : initState op = .busyTransmitting ↔ op = .write ∨ op = .writeAsync := by
  cases op <;> simp [initState]

theorem initState_eq_receiving {op : Operation} : initState op = .busyReceiving ↔ op = .read ∨ op = .readAsync := by
  cases op <;> simp [initState]

theorem initState_ne_ready (op : Operation) : initState op ≠ .ready := by
  cases op <;> simp [initState]

namespace Handle

variable {tPoll : Nat} {h : Handle}

/-! ## Reading the invariant -/

theorem Inv.idle_of_async (hi : h.Inv tPoll) (ha : h.operation.isAsync = true) : h.blkStage = .idle := by
  by_contra hb
  have := (hi.blocking.1 hb).2
  simp [Operation.isBlocking, ha] at this

theorem Inv.idle_of_memory (hi : h.Inv tPoll) (hm : h.operation.isMemory = true) : h.blkStage = .idle :=
  hi.idle_of_async (Operation.isAsync_of_isMemory hm)

theorem Inv.idle_of_ready (hi : h.Inv tPoll) (hr : h.state = .ready) : h.blkStage = .idle := by
  by_contra hb
  exact (hi.blocking.1 hb).1 hr

theorem Inv.idle_of_addressing (hi : h.Inv tPoll) (hs : h.state = .busyAddressingSubphase) : h.blkStage = .idle :=
  hi.idle_of_memory (hi.addressing hs).1

/-! ## Power-on and the configuration commands -/

theorem powerOn_inv (ht : 0 < tPoll) : Handle.powerOn.Inv tPoll where
  blocking := by decide
  addressing := by decide
  transmitting := by decide
  receiving := by decide
  inFlight := by decide
  offsetLe := by decide
  dataLe := by decide
  widthLe := by decide
  errorNotBusy := by decide
  byteLeft := by decide
  noByteLeft := by decide
  pollLt := ht

/-- INIT leaves the fields of power-on but the binding and the registry, of which an idle handle's invariant says nothing. -/
theorem initialised_inv (ht : 0 < tPoll) (periph : BitVec 8) (h : Handle) : (h.initialised periph).Inv tPoll :=
  { powerOn_inv ht with inFlight := fun hne => absurd rfl hne }

theorem Inv.setCallback (hi : h.Inv tPoll) (k : CbKind) (e : CbEntry) : (h.setCallback k e).Inv tPoll := { hi with }

/-! ## State and Error -/

/-- SetState writes State and PreviousState only (40_framing.md R103). -/
theorem setState_eq (st : BusState) (h : Handle) :
    h.setState st = { h with previousState := (h.setState st).previousState, state := st } := by
  by_cases he : h.state = st
  · subst he; simp [Handle.setState_self]
  · simp [Handle.setState_ne he]

@[simp] theorem setState_blkStage (st : BusState) (h : Handle) : (h.setState st).blkStage = h.blkStage := by
  rw [setState_eq]

/-- An instance with no blocking transfer in progress may go to Ready. -/
theorem Inv.setReady (hi : h.Inv tPoll) (hb : h.blkStage = .idle) : (h.setState .ready).Inv tPoll := by
  rw [setState_eq]
  exact { hi with
    blocking := by simp [hb]
    addressing := nofun
    transmitting := nofun
    receiving := nofun
    inFlight := fun hne => absurd rfl hne }

/-- The addressing phase of a memory operation gives way to its data phase (44_dispatcher.md R176). -/
theorem Inv.setDataState (hi : h.Inv tPoll) (hs : h.state = .busyAddressingSubphase) :
    (h.setState (dataState h.operation)).Inv tPoll := by
  have hflight := hi.inFlight (by simp [hs])
  have hmem := (hi.addressing hs).1
  have hasync : h.operation.isBlocking = false := by
    simp [Operation.isBlocking, Operation.isAsync_of_isMemory hmem]
  have hstate := dataState_of_isMemory hmem
  rw [setState_eq]
  exact { hi with
    blocking := by simp [hi.idle_of_addressing hs, hasync]
    addressing := fun he => by rcases hstate with ⟨_, hd⟩ | ⟨_, hd⟩ <;> simp [hd] at he
    transmitting := fun he => by rcases hstate with ⟨ho, hd⟩ | ⟨_, hd⟩ <;> simp_all
    receiving := fun he => by rcases hstate with ⟨_, hd⟩ | ⟨ho, hd⟩ <;> simp_all
    inFlight := fun _ => hflight }

theorem Inv.withError (hi : h.Inv tPoll) {e : ErrCode} (he : e ≠ .busy) : (h.withError e).Inv tPoll :=
  { hi with errorNotBusy := he }

/-! ## Counters of the dispatcher -/

theorem Inv.countOffset (hi : h.Inv tPoll) (hlt : h.offsetCount.toNat < h.regWidth.toNat) : h.countOffset.Inv tPoll :=
  { hi with offsetLe := toNat_succ_le hlt }

theorem Inv.countData (hi : h.Inv tPoll) (hs : h.state ≠ .busyAddressingSubphase) (hb : h.blkStage = .idle)
    (hlt : h.dataCount.toNat < h.len.toNat) : h.countData.Inv tPoll :=
  { hi with
    addressing := fun he => absurd he hs
    dataLe := toNat_succ_le hlt
    byteLeft := fun he => absurd (hb.symm.trans he) (by decide)
    noByteLeft := fun he => absurd (hb.symm.trans he) (by decide) }

/-! ## Arming (40_framing.md R104, 42_blocking.md R130) -/

/-- Operands a transfer command arms with: they have passed the checks of 30_encoding.md R75 and 40_framing.md R111. -/
structure ArmOperands (op : Operation) (w : BitVec 3) (buf : Word) (len : BitVec 8) : Prop where
  widthLe : w.toNat ≤ 4
  widthPos : op.isMemory = true → 1 ≤ w.toNat
  lenPos : 1 ≤ len.toNat
  fits : bufferFits buf len = true

theorem armed_of_ready (hr : h.state = .ready) (op : Operation) (dev : BitVec 7) (reg : Word) (w : BitVec 3) (buf : Word)
    (len : BitVec 8) : h.armed op dev reg w buf len = armedHandle h op (initState op) dev reg w buf len := by
  unfold Handle.armed armedHandle
  rw [setState_ne (by simpa [hr] using (initState_ne_ready op).symm)]
  simp [hr]

/-- An arming with its BlkStage: Byte for a blocking operation, Idle for an async one. -/
theorem armedHandle_inv {op : Operation} {w : BitVec 3} {buf : Word} {len : BitVec 8} (hb : h.bound = true)
    (ha : ArmOperands op w buf len) (dev : BitVec 7) (reg : Word) {stage : BlkStage} {polls : Nat}
    (hstage : stage = if op.isAsync then .idle else .byte) (hpolls : polls < tPoll) :
    Handle.Inv tPoll { armedHandle h op (initState op) dev reg w buf len with blkStage := stage, pollCount := polls } where
  blocking := by
    subst hstage
    cases hasync : op.isAsync <;> simp [Machine.armedHandle, initState_ne_ready, Operation.isBlocking, hasync]
  addressing he := ⟨initState_eq_addressing.1 he, ha.widthPos (initState_eq_addressing.1 he), ha.widthLe, rfl⟩
  transmitting he := (initState_eq_transmitting.1 he).imp_right .inl
  receiving he := (initState_eq_receiving.1 he).imp_right .inl
  inFlight _ := ⟨ha.lenPos, hb, ha.fits⟩
  offsetLe := Nat.zero_le _
  dataLe := Nat.zero_le _
  widthLe := ha.widthLe
  errorNotBusy := by simp [Machine.armedHandle]
  byteLeft _ := ha.lenPos
  noByteLeft he := by
    subst hstage
    cases hasync : op.isAsync <;> simp [hasync] at he
  pollLt := hpolls

theorem Inv.armed {op : Operation} {w : BitVec 3} {buf : Word} {len : BitVec 8} (hi : h.Inv tPoll) (hr : h.state = .ready)
    (hb : h.bound = true) (ha : ArmOperands op w buf len) (hasync : op.isAsync = true) (dev : BitVec 7) (reg : Word) :
    (h.armed op dev reg w buf len).Inv tPoll := by
  rw [armed_of_ready hr]
  exact armedHandle_inv hb ha dev reg (by simp [hasync, hi.idle_of_ready hr]) hi.pollLt

theorem Inv.startPolling {op : Operation} {w : BitVec 3} {buf : Word} {len : BitVec 8} (hi : h.Inv tPoll) (hr : h.state = .ready)
    (hb : h.bound = true) (ha : ArmOperands op w buf len) (hasync : op.isAsync = false) (dev : BitVec 7) (reg : Word) :
    (h.armed op dev reg w buf len).startPolling.Inv tPoll := by
  rw [armed_of_ready hr]
  exact armedHandle_inv hb ha dev reg (by simp [hasync]) (Nat.zero_lt_of_lt hi.pollLt)

/-! ## Polls (42_blocking.md R133) -/

/-- The last byte leads to End, any other leaves BlkStage; neither ends the transfer. -/
theorem bytePolled_ne_idle (hs : h.blkStage = .byte) : h.bytePolled.blkStage ≠ .idle := by
  unfold Handle.bytePolled
  dsimp only
  split <;> simp [hs]

theorem Inv.bytePolled (hi : h.Inv tPoll) (hs : h.blkStage = .byte) : h.bytePolled.Inv tPoll := by
  have hlt := hi.byteLeft hs
  have hle := toNat_succ_le hlt
  have hmid := hi.blocking.1 (by simp [hs])
  exact { hi with
    blocking := ⟨fun _ => hmid, fun _ => bytePolled_ne_idle hs⟩
    addressing := fun he => by simp [hi.idle_of_addressing he] at hs
    dataLe := hle
    byteLeft := fun he => by
      unfold Handle.bytePolled at he ⊢
      dsimp only at he ⊢
      split at he
      · cases he
      · rename_i hne
        exact Nat.lt_of_le_of_ne hle fun e => hne (BitVec.eq_of_toNat_eq e)
    noByteLeft := fun he => by
      unfold Handle.bytePolled at he ⊢
      dsimp only at he ⊢
      split at he
      · assumption
      · simp [hs] at he
    pollLt := Nat.zero_lt_of_lt hi.pollLt }

theorem Inv.pollMissed (hi : h.Inv tPoll) (hne : h.pollCount + 1 ≠ tPoll) : h.pollMissed.Inv tPoll :=
  { hi with pollLt := Nat.lt_of_le_of_ne hi.pollLt hne }

/-- The end of a blocking transfer, whatever Error says (BlkEnd). -/
theorem Inv.endPolling (hi : h.Inv tPoll) : h.endPolling.Inv tPoll := by
  unfold Handle.endPolling
  rw [setState_eq]
  exact { hi with
    blocking := by simp
    addressing := nofun
    transmitting := nofun
    receiving := nofun
    inFlight := fun hne => absurd rfl hne
    byteLeft := nofun
    noByteLeft := nofun
    pollLt := Nat.zero_lt_of_lt hi.pollLt }

end Handle

end Sys2Proof.Machine
end

section
/-! PROOFS. 20_memory.md R60, 60_exceptions.md R210: the part of the machine's invariant that speaks of callback bodies, for any list of
entries that hold bodies, so that the bodies that run can be counted as one more entry beside those that wait. -/

namespace Sys2Proof.Machine

/-- The instances of whose EVENTs an entry holds a body. -/
def Waiting.insts (w : Waiting) : List Nat := w.runs.map fun r => r.port.inst

@[simp] theorem Waiting.insts_ended (n : Nat) (w : Waiting) : (w.ended n).insts = w.insts := by simp [Waiting.insts]

theorem Waiting.insts_without (n : Nat) (w : Waiting) : (w.without n).insts.Sublist w.insts := List.filter_sublist.map _

theorem Waiting.not_mem_insts {n : Nat} {w : Waiting} (h : w.holds n = false) : n ∉ w.insts := by
  intro hn
  obtain ⟨r, hr, he⟩ := List.mem_map.1 hn
  exact absurd (Waiting.holds_iff.2 ⟨r, hr, he⟩) (by simp [h])

/-- What the machine's invariant says of one entry; `blocks n` says that a blocking transfer of `n` is in progress. -/
structure Waiting.Fits (nInst : Nat) (blocks : Nat → Prop) (w : Waiting) : Prop where
  exist : ∀ n ∈ w.insts, n < nInst
  waits : ∀ n, w.waits = some n → blocks n
  blocked : ∀ n ∈ w.insts, blocks n → w.waits = some n

/-- What the machine's invariant says of all entries. -/
structure WaitInv (nInst : Nat) (blocks : Nat → Prop) (ws : List Waiting) : Prop where
  distinct : (ws.flatMap Waiting.insts).Nodup
  fits : ∀ w ∈ ws, w.Fits nInst blocks

section
variable {nInst : Nat} {blocks blocks' : Nat → Prop} {n : Nat} {w v : Waiting} {ws vs : List Waiting}

/-! ## One entry -/

namespace Waiting.Fits

/-- An entry that loses bodies. -/
theorem shrink (h : w.Fits nInst blocks) (hw : v.waits = w.waits) (hi : v.insts.Sublist w.insts) : v.Fits nInst blocks where
  exist m hm := h.exist m (hi.subset hm)
  waits m hm := h.waits m (hw ▸ hm)
  blocked m hm hb := hw.trans (h.blocked m (hi.subset hm) hb)

/-- A body begins in an entry that waits for no transfer. -/
theorem begin_body {runs : List BodyRun} {r : BodyRun} (h : Waiting.Fits nInst blocks ⟨none, runs⟩) (hr : r.port.inst < nInst)
    (hb : ¬ blocks r.port.inst) : Waiting.Fits nInst blocks ⟨none, r :: runs⟩ where
  exist := List.forall_mem_cons.2 ⟨hr, h.exist⟩
  waits := nofun
  blocked := List.forall_mem_cons.2 ⟨fun hb' => absurd hb' hb, h.blocked⟩

/-- A blocking transfer of `n` begins, and the entry waits for it. -/
theorem arm {runs : List BodyRun} (h : Waiting.Fits nInst blocks ⟨none, runs⟩) (hn : blocks' n)
    (hsame : ∀ m, m ≠ n → (blocks' m ↔ blocks m)) : Waiting.Fits nInst blocks' ⟨some n, runs⟩ where
  exist := h.exist
  waits m hm := Option.some.inj hm ▸ hn
  blocked m hm hb := by
    by_cases he : m = n
    · exact congrArg some he.symm
    · exact absurd (h.blocked m hm ((hsame m he).1 hb)) nofun

/-- A blocking transfer of `n` begins, of which the entry holds no body. -/
theorem arm_other (h : w.Fits nInst blocks) (hn : blocks' n) (hsame : ∀ m, m ≠ n → (blocks' m ↔ blocks m)) (hnew : n ∉ w.insts) :
    w.Fits nInst blocks' where
  exist := h.exist
  waits m hm := by
    by_cases he : m = n
    · exact he ▸ hn
    · exact (hsame m he).2 (h.waits m hm)
  blocked m hm hb := h.blocked m hm ((hsame m fun he => hnew (he ▸ hm)).1 hb)

/-- The blocking transfer of `n` is over, and the entry does not wait for it any more. -/
theorem ended (h : w.Fits nInst blocks) (hn : ¬ blocks' n) (hsame : ∀ m, m ≠ n → (blocks' m ↔ blocks m)) :
    (w.ended n).Fits nInst blocks' where
  exist m hm := h.exist m (by simpa using hm)
  waits m hm := by
    have hne : w.waits ≠ some n := fun hw => by simp [Waiting.ended, hw] at hm
    have he : m ≠ n := fun he => Waiting.ended_waits n w (he ▸ hm)
    rw [Waiting.ended_other hne] at hm
    exact (hsame m he).2 (h.waits m hm)
  blocked m hm hb := by
    have he : m ≠ n := fun he => hn (he ▸ hb)
    have hw := h.blocked m (by simpa using hm) ((hsame m he).1 hb)
    rw [Waiting.ended_other (by simpa [hw] using he), hw]

end Waiting.Fits

/-! ## All entries -/

namespace WaitInv

theorem sublist (h : WaitInv nInst blocks ws) (hs : vs.Sublist ws) : WaitInv nInst blocks vs :=
  ⟨h.distinct.sublist (hs.flatMap _), fun w hw => h.fits w (hs.subset hw)⟩

theorem perm (h : WaitInv nInst blocks ws) (hp : ws.Perm vs) : WaitInv nInst blocks vs :=
  ⟨(hp.flatMap fun _ _ => .rfl).nodup_iff.1 h.distinct, fun w hw => h.fits w (hp.mem_iff.2 hw)⟩

/-- An entry that holds no body and waits for nothing adds nothing. -/
theorem cons_empty (h : WaitInv nInst blocks ws) : WaitInv nInst blocks (⟨none, []⟩ :: ws) :=
  ⟨h.distinct, List.forall_mem_cons.2 ⟨⟨nofun, nofun, nofun⟩, h.fits⟩⟩

/-- Entries that lose bodies. -/
theorem map (h : WaitInv nInst blocks ws) {f : Waiting → Waiting} (hw : ∀ w, (f w).waits = w.waits)
    (hi : ∀ w, (f w).insts.Sublist w.insts) : WaitInv nInst blocks (ws.map f) where
  distinct := by
    rw [List.flatMap_map]
    exact h.distinct.sublist (List.Sublist.flatMap_right ws fun w _ => hi w)
  fits := List.forall_mem_map.2 fun w hm => (h.fits w hm).shrink (hw w) (hi w)

/-- The first entry loses bodies, or steps of its bodies. -/
theorem shrink (h : WaitInv nInst blocks (w :: ws)) (hw : v.waits = w.waits) (hi : v.insts.Sublist w.insts) :
    WaitInv nInst blocks (v :: ws) where
  distinct := by
    have hd := h.distinct
    rw [List.flatMap_cons] at hd ⊢
    exact hd.sublist (hi.append_right _)
  fits := by
    obtain ⟨hhead, htail⟩ := List.forall_mem_cons.1 h.fits
    exact List.forall_mem_cons.2 ⟨hhead.shrink hw hi, htail⟩

/-- A body of an instance begins, where no other body of the instance is held. -/
theorem begin_body {runs : List BodyRun} {r : BodyRun} (h : WaitInv nInst blocks (⟨none, runs⟩ :: ws)) (hr : r.port.inst < nInst)
    (hb : ¬ blocks r.port.inst) (hnew : ∀ v ∈ (⟨none, runs⟩ : Waiting) :: ws, r.port.inst ∉ v.insts) :
    WaitInv nInst blocks (⟨none, r :: runs⟩ :: ws) where
  distinct := by
    have hfresh : r.port.inst ∉ ((⟨none, runs⟩ : Waiting) :: ws).flatMap Waiting.insts := fun hm =>
      let ⟨v, hv, hm⟩ := List.mem_flatMap.1 hm
      hnew v hv hm
    exact List.nodup_cons.2 ⟨hfresh, h.distinct⟩
  fits := by
    obtain ⟨hhead, htail⟩ := List.forall_mem_cons.1 h.fits
    exact List.forall_mem_cons.2 ⟨hhead.begin_body hr hb, htail⟩

/-- A blocking transfer of `n` begins, and the first entry waits for it; no other entry holds a body of `n`. -/
theorem arm {runs : List BodyRun} (h : WaitInv nInst blocks (⟨none, runs⟩ :: ws)) (hn : blocks' n)
    (hsame : ∀ m, m ≠ n → (blocks' m ↔ blocks m)) (hnew : ∀ v ∈ ws, n ∉ v.insts) :
    WaitInv nInst blocks' (⟨some n, runs⟩ :: ws) where
  distinct := h.distinct
  fits := by
    obtain ⟨hhead, htail⟩ := List.forall_mem_cons.1 h.fits
    exact List.forall_mem_cons.2 ⟨hhead.arm hn hsame, fun v hv => (htail v hv).arm_other hn hsame (hnew v hv)⟩

/-- The blocking transfer of `n` is over, and nobody waits for it any more. -/
theorem ended (h : WaitInv nInst blocks ws) (hn : ¬ blocks' n) (hsame : ∀ m, m ≠ n → (blocks' m ↔ blocks m)) :
    WaitInv nInst blocks' (ws.map (Waiting.ended n)) where
  distinct := by simpa [List.flatMap_map] using h.distinct
  fits := List.forall_mem_map.2 fun w hw => (h.fits w hw).ended hn hsame

/-- The same transfers are in progress. -/
theorem congr (h : WaitInv nInst blocks ws) (hsame : ∀ m, blocks' m ↔ blocks m) : WaitInv nInst blocks' ws :=
  (funext fun m => propext (hsame m) : blocks' = blocks) ▸ h

end WaitInv

end

end Sys2Proof.Machine
end

section
/-! PROOFS. The machine's invariant inside a step, where callback bodies may run: one rule for each way in which an operation of the model
touches what the invariant speaks of. -/

namespace Sys2Proof.Machine

/-! ## Canonical form -/

/-- Host memory, the handles and the register views are canonical. -/
def State.Canonical (s : State) : Prop :=
  Memory.wf s.hostMem ∧ (Store.Rising s.handles ∧ Store.NoDefault Handle.powerOn s.handles)
    ∧ Store.Rising s.views ∧ Store.NoDefault PeriphView.powerOn s.views

namespace State.Canonical

variable {s : State}

theorem setHandleAt (h : s.Canonical) (n : Nat) (x : Handle) : (s.setHandleAt n x).Canonical := by
  obtain ⟨hm, ⟨hr, hd⟩, hv⟩ := h
  exact ⟨hm, ⟨Store.putD_rising _ n x hr, Store.putD_noDefault n x hd⟩, hv⟩

theorem modifyH (h : s.Canonical) (f : Handle → Handle) : (s.modifyH f).Canonical := h.setHandleAt _ _

theorem setViewAt (h : s.Canonical) (p : BitVec 8) (v : PeriphView) : (s.setViewAt p v).Canonical := by
  obtain ⟨hm, hh, hr, hd⟩ := h
  exact ⟨hm, hh, Store.putD_rising _ _ v hr, Store.putD_noDefault _ v hd⟩

theorem afterPrd (h : s.Canonical) (r : PReg) : (s.afterPrd r).Canonical :=
  State.Canonical.setViewAt (s := { s with script := s.script.dropAnswer r, draws := s.draws + s.drawCost r }) h _ _

theorem pwr (h : s.Canonical) (r : PReg) (v : Word) : (s.pwr r v).Canonical := h.setViewAt _ _

theorem arm (h : s.Canonical) (op : Operation) (dev : BitVec 7) (reg : Word) (w : BitVec 3) (buf : Word) (len : BitVec 8) :
    (s.arm op dev reg w buf len).Canonical := by
  have hclear := (h.modifyH (Handle.armed op dev reg w buf len)).pwr .icr icrBOTH
  unfold State.arm
  dsimp only
  split
  · exact ((hclear.afterPrd .cr1).pwr .cr1 _).pwr .cr2 _
  · exact hclear.pwr .cr2 _

theorem setHostMem (h : s.Canonical) {m : List Host.Cell} (hm : Memory.wf m) : ({ s with hostMem := m } : State).Canonical :=
  ⟨hm, h.2⟩

end State.Canonical

/-! ## The invariant inside a step -/

/-- A blocking transfer of the instance is in progress. -/
def State.blocks (s : State) (n : Nat) : Prop := (s.handleAt n).blkStage ≠ .idle

/-- Every handle meets R38, and one that no existing instance has is at power-on. -/
structure State.HandlesInv (s : State) : Prop where
  tPollPos : 0 < s.params.tPoll
  each : ∀ n, (s.handleAt n).Inv s.params.tPoll
  noMore : ∀ n, s.params.nInst ≤ n → s.handleAt n = Handle.powerOn

/-- The machine's invariant inside a step: the bodies that run count as one more entry of those that wait, for the blocking transfer of
`waits`. -/
structure State.MidInv (waits : Option Nat) (s : State) : Prop where
  canonical : s.Canonical
  handles : s.HandlesInv
  bodies : WaitInv s.params.nInst s.blocks (⟨waits, s.calls⟩ :: s.suspended)
  nonempty : ∀ w ∈ s.suspended, w.runs ≠ []
  fgWaits : ∀ n, s.fgCall = some n → s.blocks n

variable {s t : State} {waits : Option Nat}

theorem State.HandlesInv.congr (h : s.HandlesInv) (hp : t.params = s.params) (hh : t.handles = s.handles) : t.HandlesInv := by
  have hat : t.handleAt = s.handleAt := by unfold State.handleAt; rw [hh]
  refine ⟨?_, ?_, ?_⟩ <;> rw [hp]
  · exact h.tPollPos
  · rw [hat]; exact h.each
  · rw [hat]; exact h.noMore

/-- Between steps no body runs, and the two invariants say the same. -/
theorem State.inv_iff_midInv : s.Inv ↔ s.MidInv none ∧ s.calls = [] := by
  constructor
  · intro h
    refine ⟨⟨⟨h.memory, h.handlesForm, h.viewsForm⟩, ⟨h.tPollPos, h.handlesInv, h.noMore⟩, ?_,
      fun w hw => (h.bodiesExist w hw).1, h.fgWaits⟩, h.noNest⟩
    rw [h.noNest]
    refine WaitInv.cons_empty ⟨h.bodiesDistinct, fun w hw => ⟨?_, h.bodyWaits w hw, ?_⟩⟩
    · exact List.forall_mem_map.2 (h.bodiesExist w hw).2
    · exact List.forall_mem_map.2 (h.bodyBlocks w hw)
  · rintro ⟨⟨⟨hmem, hform, hviews⟩, hh, hb, hne, hfg⟩, hc⟩
    have hb := hb.sublist (List.sublist_cons_self _ _)
    exact ⟨hh.tPollPos, hh.each, hh.noMore, hmem, hform, hviews, hc, hb.distinct,
      fun w hw => ⟨hne w hw, List.forall_mem_map.1 (hb.fits w hw).exist⟩, fun w hw => (hb.fits w hw).waits,
      fun w hw => List.forall_mem_map.1 (hb.fits w hw).blocked, hfg⟩

namespace State.MidInv

/-- Where no body runs, the one entry more holds none, whatever it waits for. -/
theorem inv (h : s.MidInv waits) (hc : s.calls = []) : s.Inv := by
  refine State.inv_iff_midInv.2 ⟨⟨h.canonical, h.handles, ?_, h.nonempty, h.fgWaits⟩, hc⟩
  rw [hc]
  exact (h.bodies.sublist (List.sublist_cons_self _ _)).cons_empty

/-- Another instance on the port, other answers to come, another record: nothing the invariant speaks of. -/
theorem congr (h : s.MidInv waits) (hcan : t.Canonical) (hp : t.params = s.params) (hh : t.handles = s.handles)
    (hc : t.calls = s.calls) (hw : SameCalls s t) : t.MidInv waits := by
  obtain ⟨hf, hs⟩ := hw
  have hblocks : t.blocks = s.blocks := by unfold State.blocks State.handleAt; rw [hh]
  refine ⟨hcan, h.handles.congr hp hh, ?_, ?_, ?_⟩
  · rw [hp, hblocks, hc, hs]; exact h.bodies
  · rw [hs]; exact h.nonempty
  · rw [hf, hblocks]; exact h.fgWaits

end State.MidInv

/-! ## The handle on the port is written -/

theorem SameOutside.h_eq (ho : SameOutside s t) : t.h = t.handleAt s.port.inst := by
  obtain ⟨_, _, hport, _⟩ := ho
  rw [State.h_def, hport]

theorem SameOutside.blocks_other (ho : SameOutside s t) {n : Nat} (hn : n ≠ s.port.inst) : t.blocks n ↔ s.blocks n := by
  obtain ⟨_, _, _, _, hother, _⟩ := ho
  unfold State.blocks
  rw [hother n hn]

theorem State.HandlesInv.update (h : s.HandlesInv) (ho : SameOutside s t) (hn : s.port.inst < s.params.nInst)
    (hi : t.h.Inv s.params.tPoll) : t.HandlesInv := by
  have hown := ho.h_eq
  obtain ⟨hp, _, _, _, hother, _⟩ := ho
  refine ⟨hp ▸ h.tPollPos, fun n => ?_, fun n hle => ?_⟩
  · rw [hp]
    by_cases he : n = s.port.inst
    · rw [he, ← hown]; exact hi
    · rw [hother n he]; exact h.each n
  · rw [hp] at hle
    rw [hother n (by omega)]
    exact h.noMore n hle

/-- Whoever the foreground waits for after a call has ended, it waited for before. -/
theorem State.fgCall_of_endCall {m n : Nat} (h : (s.endCall n).fgCall = some m) : s.fgCall = some m := by
  have hf : (if s.fgCall = some n then none else s.fgCall) = some m := h
  split at hf
  · cases hf
  · exact hf

namespace State.MidInv

/-- No blocking transfer begins or ends: whoever waits goes on waiting. -/
theorem update (h : s.MidInv waits) (hcan : t.Canonical) (ho : SameOutside s t) (hw : SameCalls s t)
    (hn : s.port.inst < s.params.nInst) (hi : t.h.Inv s.params.tPoll) (hb : t.h.blkStage = .idle ↔ s.h.blkStage = .idle) :
    t.MidInv waits := by
  have hblocks (n : Nat) : t.blocks n ↔ s.blocks n := by
    by_cases he : n = s.port.inst
    · unfold State.blocks
      rw [he, ← ho.h_eq, ← State.h_def, ne_eq, ne_eq, hb]
    · exact ho.blocks_other he
  have hh := h.handles.update ho hn hi
  obtain ⟨hp, _, _, hc, _⟩ := ho
  obtain ⟨hf, hs⟩ := hw
  refine ⟨hcan, hh, ?_, ?_, ?_⟩
  · rw [hp, hc, hs]; exact h.bodies.congr hblocks
  · rw [hs]; exact h.nonempty
  · rw [hf]; exact fun n hn => (hblocks n).2 (h.fgWaits n hn)

/-- The instance arms a blocking transfer outside every EVENT of which bodies wait: the bodies that run wait for it. -/
theorem arm (h : s.MidInv none) (hcan : t.Canonical) (ho : SameOutside s t) (hw : SameCalls s t) (hn : s.port.inst < s.params.nInst)
    (hmid : s.midEvent s.port.inst = false) (hi : t.h.Inv s.params.tPoll) (hb : t.h.blkStage ≠ .idle) :
    t.MidInv (some s.port.inst) := by
  have hblocks : t.blocks s.port.inst := by
    unfold State.blocks
    rwa [← ho.h_eq]
  have hother (n : Nat) (he : n ≠ s.port.inst) : t.blocks n ↔ s.blocks n := ho.blocks_other he
  have hh := h.handles.update ho hn hi
  obtain ⟨hp, _, _, hc, _⟩ := ho
  obtain ⟨hf, hs⟩ := hw
  refine ⟨hcan, hh, ?_, ?_, fun n hn => ?_⟩
  · rw [hp, hc, hs]
    exact h.bodies.arm hblocks hother fun w hw => Waiting.not_mem_insts (by simpa using List.any_eq_false.1 hmid w hw)
  · rw [hs]; exact h.nonempty
  · rw [hf] at hn
    by_cases he : n = s.port.inst
    · exact he ▸ hblocks
    · exact (hother n he).2 (h.fgWaits n hn)

/-- The foreground waits for a transfer that its own command armed. -/
theorem noteCall (h : s.MidInv waits) (hb : s.h.blkStage ≠ .idle) : s.noteCall.MidInv waits := by
  unfold State.noteCall
  split
  · exact ⟨h.canonical, h.handles.congr rfl rfl, h.bodies, h.nonempty,
      fun n hn => Option.some.inj hn ▸ hb⟩
  · exact h
  · exact h

/-- The blocking transfer of the instance is over, and nobody waits for it any more (BlkEnd, and power-on). -/
theorem endCall (h : s.MidInv none) (hn : s.port.inst < s.params.nInst) (f : Handle → Handle) (hi : (f s.h).Inv s.params.tPoll)
    (hb : (f s.h).blkStage = .idle) : ((s.modifyH f).endCall s.port.inst).MidInv none := by
  have ho := SameOutside.modifyH s f
  have hidle : ¬ (s.modifyH f).blocks s.port.inst := by
    simp [State.blocks, hb]
  have hother (n : Nat) (he : n ≠ s.port.inst) : (s.modifyH f).blocks n ↔ s.blocks n := ho.blocks_other he
  have hh := h.handles.update ho hn (by simpa using hi)
  refine ⟨h.canonical.modifyH f, hh.congr rfl rfl, h.bodies.ended hidle hother, ?_, fun n hw => ?_⟩
  · exact List.forall_mem_map.2 fun w hw => by simpa using h.nonempty w hw
  · have he : n ≠ s.port.inst := fun he => State.endCall_done _ _ (he ▸ hw)
    exact (hother n he).2 (h.fgWaits n (State.fgCall_of_endCall hw))

/-! ## Callback bodies -/

/-- A body of the EVENT on the port begins, of an instance with no blocking transfer and no EVENT in progress. -/
theorem beginBody (h : s.MidInv none) (k : CbKind) (hn : s.port.inst < s.params.nInst) (hb : s.h.blkStage = .idle)
    (hin : s.inBody s.port.inst = false) (hmid : s.midEvent s.port.inst = false) : (s.beginBody k).MidInv none := by
  refine ⟨h.canonical, h.handles.congr rfl rfl, ?_, h.nonempty, h.fgWaits⟩
  refine h.bodies.begin_body hn (fun hblocks => hblocks hb) (List.forall_mem_cons.2 ⟨?_, fun w hw => ?_⟩)
  · exact Waiting.not_mem_insts hin
  · exact Waiting.not_mem_insts (by simpa using List.any_eq_false.1 hmid w hw)

/-- The innermost of the bodies that run takes a step, or is done. -/
theorem shrinkCalls (h : s.MidInv waits) {calls : List BodyRun}
    (hc : (Waiting.mk waits calls).insts.Sublist (Waiting.mk waits s.calls).insts) :
    ({ s with calls := calls } : State).MidInv waits :=
  ⟨h.canonical, h.handles.congr rfl rfl, h.bodies.shrink rfl hc, h.nonempty, h.fgWaits⟩

/-- The bodies that run leave the step and wait. -/
theorem suspend (h : s.MidInv waits) (hc : s.calls ≠ []) : (s.suspend waits).MidInv none := by
  refine ⟨h.canonical, h.handles.congr rfl rfl, ?_, fun w hw => ?_, h.fgWaits⟩
  · exact (h.bodies.perm (List.perm_append_singleton _ _).symm).cons_empty
  · rcases List.mem_append.1 hw with hw | hw
    · exact h.nonempty w hw
    · rw [List.mem_singleton.1 hw]; exact hc

/-- Bodies whose transfer is over go on. -/
theorem resume (h : s.MidInv none) {k : Nat} {w : Waiting} (hk : s.suspended[k]? = some w) (hw : w.waits = none) :
    ({ s with calls := w.runs, suspended := s.suspended.eraseIdx k } : State).MidInv none := by
  obtain ⟨hlt, rfl⟩ := List.getElem?_eq_some_iff.1 hk
  refine ⟨h.canonical, h.handles.congr rfl rfl, ?_,
    fun v hv => h.nonempty v ((List.eraseIdx_sublist _ _).subset hv), h.fgWaits⟩
  have hb := (h.bodies.sublist (List.sublist_cons_self _ _)).perm (List.getElem_cons_eraseIdx_perm hlt).symm
  exact hb.shrink hw.symm (List.Sublist.refl _)

/-- The bodies of EVENTs of an instance are dropped. -/
theorem dropBodies (h : s.MidInv none) (hc : s.calls = []) (n : Nat) : (s.dropBodies n).MidInv none := by
  refine ⟨h.canonical, h.handles.congr rfl rfl, ?_, fun w hw => ?_, h.fgWaits⟩
  · have hthin := (h.bodies.sublist (List.sublist_cons_self _ _)).map (f := Waiting.without n) (fun _ => rfl) (Waiting.insts_without n)
    show WaitInv _ _ (⟨none, s.calls⟩ :: _)
    rw [hc]
    exact (hthin.sublist List.filter_sublist).cons_empty
  · have hfull := (List.mem_filter.1 hw).2
    intro he
    simp [he] at hfull

end State.MidInv

end Sys2Proof.Machine
end

section
/-! PROOFS. 10_state.md R38: a command, the branches of an EVENT and the callback bodies keep the machine's invariant. -/

namespace Sys2Proof.Machine

/-! ## Inside a command -/

/-- `t` is met while a command, taken in `s` for an instance that exists, is carried out: the invariant holds, the same bodies run and
wait, and the instance has the BlkStage it had. -/
structure InCommand (s t : State) : Prop where
  inv : t.MidInv none
  instLt : t.port.inst < t.params.nInst
  port : t.port = s.port
  calls : t.calls = s.calls
  suspended : t.suspended = s.suspended
  stage : t.h.blkStage = s.h.blkStage

namespace InCommand

variable {s t u : State}

theorem refl (h : s.MidInv none) (hn : s.port.inst < s.params.nInst) : InCommand s s := ⟨h, hn, rfl, rfl, rfl, rfl⟩

/-- A write of the instance's handle that leaves its BlkStage. -/
theorem update (h : InCommand s t) (hcan : u.Canonical) (ho : SameOutside t u) (hw : SameCalls t u)
    (hi : u.h.Inv t.params.tPoll) (hb : u.h.blkStage = t.h.blkStage) : InCommand s u := by
  have hinv := h.inv.update hcan ho hw h.instLt hi (by rw [hb])
  obtain ⟨hp, _, hport, hcalls, _⟩ := ho
  obtain ⟨_, hsusp⟩ := hw
  exact ⟨hinv, by rw [hp, hport]; exact h.instLt, hport.trans h.port, hcalls.trans h.calls, hsusp.trans h.suspended, hb.trans h.stage⟩

theorem handleInv (h : InCommand s t) : t.h.Inv t.params.tPoll := h.inv.handles.each _

theorem tPollPos (h : InCommand s t) : 0 < t.params.tPoll := h.inv.handles.tPollPos

/-- No write of the instance's handle. -/
theorem same (h : InCommand s t) (hcan : u.Canonical) (ho : SameOutside t u) (hw : SameCalls t u) (hu : u.h = t.h) : InCommand s u :=
  h.update hcan ho hw (hu ▸ h.handleInv) (by rw [hu])

theorem modifyH (h : InCommand s t) {f : Handle → Handle} (hi : (f t.h).Inv t.params.tPoll) (hb : (f t.h).blkStage = t.h.blkStage) :
    InCommand s (t.modifyH f) :=
  h.update (h.inv.canonical.modifyH f) (SameOutside.modifyH t f) ⟨rfl, rfl⟩ (by simpa using hi) (by simpa using hb)

theorem log (h : InCommand s t) (x : TraceItem) : InCommand s (t.log x) :=
  h.same h.inv.canonical (SameOutside.log t x) ⟨rfl, rfl⟩ rfl

theorem answer (h : InCommand s t) (r : Result) : InCommand s (t.answer r) := h.log _

theorem refuse (h : InCommand s t) (why : RefuseReason) : InCommand s (t.refuse why) :=
  h.same h.inv.canonical ⟨rfl, rfl, rfl, rfl, fun _ _ => rfl, fun _ _ => rfl⟩ ⟨rfl, rfl⟩ rfl

theorem afterPrd (h : InCommand s t) (r : PReg) : InCommand s (t.afterPrd r) :=
  h.same (h.inv.canonical.afterPrd r) (SameOutside.afterPrd t r) ⟨rfl, rfl⟩ rfl

theorem pwr (h : InCommand s t) (r : PReg) (v : Word) : InCommand s (t.pwr r v) :=
  h.same (h.inv.canonical.pwr r v) (SameOutside.pwr t r v) ⟨rfl, rfl⟩ rfl

theorem afterCheckIdle (h : InCommand s t) : InCommand s t.afterCheckIdle := by
  by_cases hr : t.h.state = .ready
  · rw [State.afterCheckIdle_ready hr]; exact h.afterPrd _
  · rw [State.afterCheckIdle_busy hr]; exact h

theorem memWrite (h : InCommand s t) {a : Word} {v : Byte} (e : memWrite a v t = .next u) : InCommand s u := by
  obtain ⟨_, rfl⟩ := memWrite_eq_next.1 e
  exact h.same (h.inv.canonical.setHostMem (Memory.store_wf a v h.inv.canonical.1))
    ⟨rfl, rfl, rfl, rfl, fun _ _ => rfl, fun _ _ => rfl⟩ ⟨rfl, rfl⟩ rfl

/-- The end of an EVENT's branch, where the instance has no blocking transfer in progress (44_dispatcher.md R172, R177). -/
theorem finishEvent (h : InCommand s t) (hb : t.h.blkStage = .idle) : InCommand s (finishEvent t) :=
  (((h.afterPrd .cr1).pwr .cr1 _).modifyH (h.handleInv.setReady hb) (Handle.setState_blkStage _ _)).answer .ok

end InCommand

/-! ## Commands other than EVENT -/

/-- The blocking transfer that a command to the instance on the port began, where BlkStage was `before`. -/
def State.awaited (before : BlkStage) (s : State) : Option Nat :=
  if before = .idle ∧ s.h.blkStage ≠ .idle then some s.port.inst else none

/-- A command taken in `s` ends in `t`: the bodies that run are the same, and wait for a transfer that it began. -/
structure CommandEnds (s t : State) : Prop where
  inv : t.MidInv (t.awaited s.h.blkStage)
  calls : t.calls = s.calls

variable {s t u : State}

theorem State.awaited_of_stage_eq {before : BlkStage} (h : s.h.blkStage = before) : s.awaited before = none := by
  simp [State.awaited, h]

theorem InCommand.ends (h : InCommand s t) : CommandEnds s t :=
  ⟨by rw [State.awaited_of_stage_eq h.stage]; exact h.inv, h.calls⟩

theorem execInit_inCommand (h : InCommand s s) {periph : BitVec 8} (e : execInit periph s = .next t) : InCommand s t := by
  unfold execInit at e
  split at e <;> cases e
  · exact h.refuse _
  · rename_i hidle
    have hidle : s.h.blkStage = .idle := by simpa using hidle
    exact (h.modifyH (Handle.initialised_inv h.tPollPos periph s.h) hidle.symm).answer .ok

theorem execSetcb_inCommand (h : InCommand s s) {k : CbKind} {inst en : Bool} {hd : Word} (e : execSetcb k inst en hd s = .next t) :
    InCommand s t := by
  unfold execSetcb at e
  split at e
  · cases e; exact h.refuse _
  · split at e <;> cases e
    · exact h.refuse _
    · exact (h.modifyH (h.handleInv.setCallback k _) rfl).answer .ok

/-- A transfer command keeps what its refusals and its Busy answer keep, if what it starts does where its checks pass. -/
theorem transfer_ends (h : InCommand s s) {ok : Bool} {buf : Word} {len : BitVec 8} {start : State → State}
    (hstart : ∀ u, InCommand s u → ok = true → bufferFits buf len = true → u.h.state = .ready → u.h.bound = true →
      CommandEnds s (start u)) : CommandEnds s (transfer ok buf len start s) := by
  rcases transfer_cases ok buf len start s with
    ⟨_, e⟩ | ⟨_, _, e⟩ | ⟨_, _, _, e⟩ | ⟨_, _, _, _, e⟩ | ⟨hok, hbound, hfits, hidle, e⟩ <;> rw [e]
  · exact (h.refuse _).ends
  · exact (h.refuse _).ends
  · exact (h.refuse _).ends
  · exact (h.afterCheckIdle.answer _).ends
  · have hready := (State.isBusy_eq_false.1 hidle).1
    have hu : s.afterCheckIdle.h = s.h := by rw [State.afterCheckIdle_ready hready]; rfl
    exact hstart _ h.afterCheckIdle hok hfits (by rw [hu]; exact hready) (by rw [hu]; exact hbound)

/-- An async arming leaves BlkStage at Idle. -/
theorem asyncStart_ends (h : InCommand s u) {op : Operation} {w : BitVec 3} {buf : Word} {len : BitVec 8}
    (ha : Handle.ArmOperands op w buf len) (hasync : op.isAsync = true) (dev : BitVec 7) (reg : Word) (hr : u.h.state = .ready)
    (hb : u.h.bound = true) : CommandEnds s (u.asyncStart op dev reg w buf len) := by
  obtain ⟨harmed, hout, _, _, hcalls, _⟩ := State.arm_frame op dev reg w buf len u
  have hinv := h.handleInv.armed hr hb ha hasync dev reg
  have hstage : (u.h.armed op dev reg w buf len).blkStage = u.h.blkStage := by simp [Handle.armed]
  exact ((h.update (h.inv.canonical.arm ..) hout hcalls (by rwa [harmed]) (by rw [harmed, hstage])).answer .ok).ends

/-- A blocking arming, before it is noted who issued it: the bodies that run wait for the transfer it began. -/
theorem armPolling_midInv (h : InCommand s u) (hmid : s.midEvent s.port.inst = false) {op : Operation} {buf : Word} {len : BitVec 8}
    (ha : Handle.ArmOperands op 0 buf len) (hasync : op.isAsync = false) (dev : BitVec 7) (hr : u.h.state = .ready)
    (hb : u.h.bound = true) : ((u.arm op dev 0 0 buf len).modifyH Handle.startPolling).MidInv (some u.port.inst) := by
  obtain ⟨harmed, hout, _, _, hcalls, _⟩ := State.arm_frame op dev 0 0 buf len u
  have hperiph : (u.arm op dev 0 0 buf len).h.periphRef = u.h.periphRef := by rw [harmed]; simp [Handle.armed]
  have hmid : u.midEvent u.port.inst = false := by rw [State.midEvent, h.suspended, h.port]; exact hmid
  refine h.inv.arm ((h.inv.canonical.arm ..).modifyH _) (hout.trans hperiph (.modifyH _ _)) hcalls h.instLt hmid ?_ ?_
  · rw [State.h_modifyH, harmed]
    exact h.handleInv.startPolling hr hb ha hasync dev 0
  · rw [State.h_modifyH]
    exact nofun

theorem blkStart_ends (h : InCommand s u) (hmid : s.midEvent s.port.inst = false) {op : Operation} {buf : Word} {len : BitVec 8}
    (ha : Handle.ArmOperands op 0 buf len) (hasync : op.isAsync = false) (dev : BitVec 7) (hr : u.h.state = .ready)
    (hb : u.h.bound = true) : CommandEnds s (u.blkStart op dev buf len) := by
  obtain ⟨_, ⟨_, _, hport, hcalls, _⟩, _⟩ := State.arm_frame op dev 0 0 buf len u
  have hidle : s.h.blkStage = .idle := h.stage ▸ h.handleInv.idle_of_ready hr
  have hbusy : ((u.arm op dev 0 0 buf len).modifyH Handle.startPolling).h.blkStage ≠ .idle := by rw [State.h_modifyH]; exact nofun
  have hawait : (u.blkStart op dev buf len).awaited s.h.blkStage = some u.port.inst := by
    unfold State.awaited State.blkStart
    rw [State.h_noteCall, if_pos ⟨hidle, hbusy⟩, State.noteCall_port, State.modifyH_port, hport]
  refine ⟨?_, ?_⟩
  · rw [hawait]
    exact (armPolling_midInv h hmid ha hasync dev hr hb).noteCall hbusy
  · rw [State.blkStart, State.noteCall_calls, State.modifyH_calls, hcalls, h.calls]

theorem lenPos_of_lenOk {len : BitVec 8} (h : lenOk len = true) : 1 ≤ len.toNat := by
  have hne : len ≠ 0 := by simpa [lenOk] using h
  exact Nat.pos_of_ne_zero fun he => hne (BitVec.eq_of_toNat_eq he)

/-- Operands of a command that has no offset. -/
theorem armOperands_plain {op : Operation} {buf : Word} {len : BitVec 8} (hm : op.isMemory = false) (hok : lenOk len = true)
    (hf : bufferFits buf len = true) : Handle.ArmOperands op 0 buf len :=
  ⟨by simp, by simp [hm], lenPos_of_lenOk hok, hf⟩

/-- Operands of a memory command. -/
theorem armOperands_memory {op : Operation} {w : BitVec 3} {buf : Word} {len : BitVec 8} (hok : (widthOk w && lenOk len) = true)
    (hf : bufferFits buf len = true) : Handle.ArmOperands op w buf len := by
  obtain ⟨hw, hl⟩ := Bool.and_eq_true_iff.1 hok
  obtain ⟨hpos, hle⟩ : 1 ≤ w.toNat ∧ w.toNat ≤ 4 := by simpa [widthOk] using hw
  exact ⟨hle, fun _ => hpos, lenPos_of_lenOk hl, hf⟩

/-- Every command but EVENT. -/
theorem nestedExec_ends (h : InCommand s s) (hmid : s.midEvent s.port.inst = false) {i : Instr} (hi : i ≠ .event)
    (e : nestedExec i s = .next t) : CommandEnds s t := by
  cases i with
  | init p => exact (execInit_inCommand h e).ends
  | setcb k inst en hd => exact (execSetcb_inCommand h e).ends
  | write d b l => cases e; exact transfer_ends h fun u hu ok f => blkStart_ends hu hmid (armOperands_plain rfl ok f) rfl d
  | read d b l => cases e; exact transfer_ends h fun u hu ok f => blkStart_ends hu hmid (armOperands_plain rfl ok f) rfl d
  | writea d b l => cases e; exact transfer_ends h fun u hu ok f => asyncStart_ends hu (armOperands_plain rfl ok f) rfl d 0
  | reada d b l => cases e; exact transfer_ends h fun u hu ok f => asyncStart_ends hu (armOperands_plain rfl ok f) rfl d 0
  | memwra d r w b l => cases e; exact transfer_ends h fun u hu ok f => asyncStart_ends hu (armOperands_memory ok f) rfl d r
  | memrda d r w b l => cases e; exact transfer_ends h fun u hu ok f => asyncStart_ends hu (armOperands_memory ok f) rfl d r
  | event => exact absurd rfl hi

end Sys2Proof.Machine
end

section
/-! PROOFS. 44_dispatcher.md R170 to R178, 40_framing.md R108: EVENT and the callback bodies it begins keep the machine's invariant. -/

namespace Sys2Proof.Machine

variable {s t u : State}

/-! ## The branches of the dispatcher -/

theorem applicable_of_takenBranch {h : Handle} {v : Word} {b : Branch} (e : takenBranch h v = some b) : applicable h b = true := by
  unfold takenBranch at e
  split at e
  · cases e
  · split at e <;> cases e
    assumption

/-- What R171 asks of a received byte, and of a sent payload byte. -/
structure DataByteDue (h : Handle) : Prop where
  inDataPhase : h.state ≠ .busyAddressingSubphase
  async : h.operation.isAsync = true
  left : h.dataCount.toNat < h.len.toNat

theorem dataByteDue_of_rx {h : Handle} (ha : applicable h .rx = true) : DataByteDue h := by
  obtain ⟨⟨hs, hasync⟩, hlt⟩ : (h.state = .busyReceiving ∧ h.operation.isAsync = true) ∧ h.dataCount < h.len := by
    simpa [applicable] using ha
  exact ⟨by simp [hs], hasync, hlt⟩

theorem dataByteDue_of_tx {h : Handle} (ha : applicable h .tx = true) (hs : h.state ≠ .busyAddressingSubphase) : DataByteDue h := by
  obtain ⟨⟨_, hasync⟩, hlt⟩ : (h.state = .busyTransmitting ∧ h.operation.isAsync = true) ∧ h.dataCount < h.len := by
    simpa [applicable, hs] using ha
  exact ⟨hs, hasync, hlt⟩

theorem offsetLeft_of_tx {h : Handle} (ha : applicable h .tx = true) (hs : h.state = .busyAddressingSubphase) :
    h.offsetCount.toNat < h.regWidth.toNat := by
  simpa [applicable, hs, BitVec.lt_def] using ha

theorem async_of_nack {h : Handle} (ha : applicable h .nack = true) : h.operation.isAsync = true :=
  (Bool.and_eq_true_iff.1 ha).2

theorem async_of_cp {h : Handle} (ha : applicable h .cp = true) : h.operation.isAsync = true :=
  (Bool.and_eq_true_iff.1 ha).2

theorem Handle.Inv.countDueByte {tPoll : Nat} {h : Handle} (hi : h.Inv tPoll) (hd : DataByteDue h) : h.countData.Inv tPoll :=
  hi.countData hd.inDataPhase (hi.idle_of_async hd.async) hd.left

theorem rxBranch_inCommand (h : InCommand s t) (hd : DataByteDue t.h) (e : rxBranch t = .next u) : InCommand s u := by
  obtain ⟨x, hx, e⟩ := andThen_eq_next.1 e
  have hh : x.h = t.h := by
    obtain ⟨_, rfl⟩ := memWrite_eq_next.1 hx
    rfl
  have hin := (h.afterPrd .rxdr).memWrite hx
  cases e
  exact (hin.modifyH (hin.handleInv.countDueByte (hh ▸ hd)) rfl).answer .ok

theorem txDataBranch_inCommand (h : InCommand s t) (hd : DataByteDue t.h) (e : txDataBranch t = .next u) : InCommand s u := by
  obtain ⟨v, _, e⟩ := memRead_eq_next.1 e
  cases e
  exact (((h.log _).pwr .txdr (dataWord v)).modifyH (h.handleInv.countDueByte hd) rfl).answer .ok

theorem txOffsetBranch_inCommand (h : InCommand s t) (hlt : t.h.offsetCount.toNat < t.h.regWidth.toNat) :
    InCommand s (txOffsetBranch t) :=
  (h.pwr .txdr _).modifyH (h.handleInv.countOffset hlt) rfl

theorem cpOffsetBranch_inCommand (h : InCommand s t) (hs : t.h.state = .busyAddressingSubphase) :
    InCommand s (cpOffsetBranch t) :=
  ((h.pwr .icr icrSTOP).modifyH (h.handleInv.setDataState hs) (Handle.setState_blkStage _ _)).pwr .cr2 _

/-! ## EVENT -/

/-- An EVENT taken in `s` has gone as far as the callback body it begins, if any. -/
structure EventKeeps (s t : State) : Prop where
  inv : t.MidInv none
  stage : t.h.blkStage = s.h.blkStage

theorem InCommand.eventKeeps (h : InCommand s t) : EventKeeps s t := ⟨h.inv, h.stage⟩

/-- A notification of an instance no EVENT of which is in progress but the one taken in `s`. -/
theorem notify_keeps (h : InCommand s t) (hin : s.inBody s.port.inst = false) (hmid : s.midEvent s.port.inst = false)
    (hb : t.h.blkStage = .idle) (k : CbKind) : EventKeeps s (notify k t) := by
  unfold notify
  split
  · refine ⟨h.inv.beginBody k h.instLt hb ?_ ?_, h.stage⟩
    · rw [State.inBody, h.calls, h.port]; exact hin
    · rw [State.midEvent, h.suspended, h.port]; exact hmid
  · exact (h.finishEvent hb).eventKeeps

theorem runBranch_keeps (h : InCommand s t) (hin : s.inBody s.port.inst = false) (hmid : s.midEvent s.port.inst = false) {b : Branch}
    (ha : applicable t.h b = true) (e : runBranch b t = .next u) : EventKeeps s u := by
  cases b with
  | nack =>
    cases e
    have hidle := h.handleInv.idle_of_async (async_of_nack ha)
    have hcleared := (h.modifyH (h.handleInv.withError (e := .notAcknowledged) (by decide)) rfl).pwr .icr icrNACK
    exact notify_keeps hcleared hin hmid (by simpa [Handle.withError] using hidle) _
  | rx => exact (rxBranch_inCommand h (dataByteDue_of_rx ha) e).eventKeeps
  | tx =>
    simp only [runBranch] at e
    split at e
    · rename_i hs
      cases e
      exact ((txOffsetBranch_inCommand h (offsetLeft_of_tx ha hs)).answer .ok).eventKeeps
    · rename_i hs
      exact (txDataBranch_inCommand h (dataByteDue_of_tx ha hs) e).eventKeeps
  | cp =>
    simp only [runBranch] at e
    split at e
    · rename_i hs
      cases e
      exact ((cpOffsetBranch_inCommand h hs).answer .ok).eventKeeps
    · cases e
      have hidle := h.handleInv.idle_of_async (async_of_cp ha)
      unfold cpDataBranch
      split
      · exact ((h.pwr .icr icrSTOP).finishEvent hidle).eventKeeps
      · exact notify_keeps (h.pwr .icr icrSTOP) hin hmid hidle _

theorem eventStep_keeps (h : InCommand s s) (e : eventStep s = .next t) : EventKeeps s t := by
  unfold eventStep at e
  split at e
  · cases e; exact (h.refuse _).eventKeeps
  · rename_i hfree
    obtain ⟨hin, hmid⟩ : s.inBody s.port.inst = false ∧ s.midEvent s.port.inst = false := by simpa using hfree
    split at e
    · cases e; exact (h.answer .ok).eventKeeps
    · unfold eventOn at e
      split at e
      · cases e; exact ((h.afterPrd .isr).answer .ok).eventKeeps
      · rename_i htaken
        exact runBranch_keeps (h.afterPrd .isr) hin hmid (applicable_of_takenBranch htaken) e

/-! ## Callback bodies -/

/-- The end of an EVENT whose body was the innermost of those that run. -/
theorem closeEvent_midInv {r : BodyRun} {rest : List BodyRun} (h : s.MidInv none) (hc : s.calls = r :: rest) :
    (closeEvent r.port rest s).MidInv none := by
  have hfits := h.bodies.fits _ List.mem_cons_self
  have hr : r.port.inst ∈ (Waiting.mk none s.calls).insts := by simp [Waiting.insts, hc]
  have hidle : (s.handleAt r.port.inst).blkStage = .idle := by
    by_contra hb
    exact absurd (hfits.blocked _ hr hb) nofun
  have hrest : ({ s with port := r.port, calls := rest } : State).MidInv none := by
    have hpop := h.shrinkCalls (calls := rest) (by simp [Waiting.insts, hc])
    exact hpop.congr hpop.canonical rfl rfl rfl ⟨rfl, rfl⟩
  exact ((InCommand.refl hrest (hfits.exist _ hr)).finishEvent hidle).inv

/-- After a nested command the bodies around it go on, or wait for the blocking transfer it began. -/
theorem State.MidInv.waitIfArmed {before : BlkStage} (h : s.MidInv (s.awaited before)) (hc : s.calls ≠ []) :
    (s.waitIfArmed before).MidInv none := by
  unfold State.waitIfArmed
  unfold State.awaited at h
  split
  · rename_i harmed
    rw [if_pos harmed] at h
    exact h.suspend hc
  · rename_i hquiet
    rwa [if_neg hquiet] at h

theorem nestedExec_midInv (h : InCommand s s) (hmid : s.midEvent s.port.inst = false) {i : Instr} (e : nestedExec i s = .next t) :
    t.MidInv (t.awaited s.h.blkStage) := by
  by_cases hi : i = .event
  · subst hi
    have hk := eventStep_keeps h e
    rw [State.awaited_of_stage_eq hk.stage]
    exact hk.inv
  · exact (nestedExec_ends h hmid hi e).inv

/-- A nested command leaves the bodies around it running. -/
theorem nestedExec_calls_ne_nil {i : Instr} (hc : s.calls ≠ []) (e : nestedExec i s = .next t) : t.calls ≠ [] := by
  rcases nestedExec_bodies e with ⟨hcalls, _⟩ | ⟨hcalls, _⟩
  · rwa [hcalls]
  · rw [hcalls]; exact List.cons_ne_nil _ _

theorem bodyCommand_midInv (h : s.MidInv none) (hc : s.calls ≠ []) {n : Nat} (hmid : s.midEvent n = false) {ws : List Word}
    (e : bodyCommand n ws s = .next t) : t.MidInv none := by
  unfold bodyCommand at e
  split at e
  · rename_i hn
    have hcmd : InCommand { s with port := { inst := n, agent := .callback } } { s with port := { inst := n, agent := .callback } } :=
      .refl (h.congr h.canonical rfl rfl rfl ⟨rfl, rfl⟩) hn
    dsimp only at e
    split at e
    · cases e; exact (hcmd.refuse _).inv
    · obtain ⟨u, hu, e⟩ := andThen_eq_next.1 e
      cases e
      have hcalls := nestedExec_calls_ne_nil (s := { s with port := { inst := n, agent := .callback } }) hc hu
      exact (nestedExec_midInv hcmd hmid hu).waitIfArmed hcalls
  · cases e

theorem State.MidInv.setHostMem {waits : Option Nat} (h : s.MidInv waits) {m : List Host.Cell} (hm : Memory.wf m) :
    ({ s with hostMem := m } : State).MidInv waits :=
  h.congr (h.canonical.setHostMem hm) rfl rfl rfl ⟨rfl, rfl⟩

theorem bodyStep_midInv (h : s.MidInv none) (hc : s.calls ≠ []) {x : BodyStep} (hx : s.heldBack x = false)
    (e : bodyStep x s = .next t) : t.MidInv none := by
  have hmem := h.canonical.1
  cases x with
  | command n ws => exact bodyCommand_midInv h hc hx e
  | hostStore a v => cases e; exact h.setHostMem (Memory.store_wf a v hmem)
  | hostRelease a => cases e; exact h.setHostMem (Memory.release_wf a hmem)
  | neverReturns => cases e

@[simp] theorem State.heldBack_calls (s : State) (calls : List BodyRun) (x : BodyStep) :
    ({ s with calls := calls } : State).heldBack x = s.heldBack x := by
  cases x <;> rfl

/-- Bodies that ran to their end, or until they wait, leave the machine between steps. -/
theorem runCalls_inv (fuel : Nat) (h : s.MidInv none) (e : runCalls fuel s = .next t) : t.Inv := by
  induction fuel generalizing s with
  | zero => cases e
  | succ fuel ih =>
    simp only [runCalls] at e
    split at e
    · rename_i hc
      cases e
      exact h.inv hc
    · rename_i r rest hc
      split at e
      · exact ih (closeEvent_midInv h hc) e
      · rename_i x left _
        split at e
        · cases e
          exact (h.suspend (by simp [hc])).inv rfl
        · rename_i hx
          obtain ⟨u, hu, e⟩ := andThen_eq_next.1 e
          have hpop : ({ s with calls := { r with body := left } :: rest } : State).MidInv none :=
            h.shrinkCalls (by simp [Waiting.insts, hc])
          have hx : State.heldBack { s with calls := { r with body := left } :: rest } x = false := by
            rw [State.heldBack_calls]; simpa using hx
          exact ih (bodyStep_midInv hpop (List.cons_ne_nil _ _) hx hu) e

theorem runCallbacks_inv (h : s.MidInv none) (e : s.runCallbacks = .next t) : t.Inv := runCalls_inv _ h e

theorem exec_eq_nestedExec {i : Instr} (hi : i ≠ .event) (s : State) : exec i s = nestedExec i s := by
  cases i with
  | event => exact absurd rfl hi
  | _ => rfl

theorem exec_inv (h : InCommand s s) (hc : s.calls = []) (hmid : s.midEvent s.port.inst = false) {i : Instr}
    (e : exec i s = .next t) : t.Inv := by
  by_cases hi : i = .event
  · subst hi
    obtain ⟨u, hu, e⟩ := andThen_eq_next.1 e
    exact runCallbacks_inv (eventStep_keeps h hu).inv e
  · have hends := nestedExec_ends h hmid hi (exec_eq_nestedExec hi s ▸ e)
    exact hends.inv.inv (hends.calls.trans hc)

end Sys2Proof.Machine
end

section
/-! PROOFS. 10_state.md R38, 20_memory.md R60: the machine's invariant holds at power-on and every step of every agent keeps it. -/

namespace Sys2Proof.Machine

variable {s t : State}

/-! ## Power-on -/

theorem State.Start.inv (h : s.Start) : s.Inv := by
  obtain ⟨htPoll, hmem, hhandles, hviews, _, hcalls, hsusp, hfg⟩ := h
  have hat (n : Nat) : s.handleAt n = Handle.powerOn := by rw [State.handleAt, hhandles]; rfl
  exact {
    tPollPos := htPoll
    handlesInv := fun n => by rw [hat n]; exact Handle.powerOn_inv htPoll
    noMore := fun n _ => hat n
    memory := hmem
    handlesForm := by rw [hhandles]; exact ⟨List.Pairwise.nil, fun _ he => absurd he List.not_mem_nil⟩
    viewsForm := by rw [hviews]; exact ⟨List.Pairwise.nil, fun _ he => absurd he List.not_mem_nil⟩
    noNest := hcalls
    bodiesDistinct := by rw [hsusp]; exact List.nodup_nil
    bodiesExist := by rw [hsusp]; exact nofun
    bodyWaits := by rw [hsusp]; exact nofun
    bodyBlocks := by rw [hsusp]; exact nofun
    fgWaits := by rw [hfg]; exact nofun }

theorem State.reset_start : State.reset.Start :=
  ⟨Nat.succ_pos _, State.reset_memory_wf, rfl, rfl, rfl, rfl, rfl, rfl⟩

/-- Settles O51: reset is a power-on state, whatever values Config gives its parameters. -/
theorem resetMeetsInvariant : Obligations.ResetMeetsInvariant := State.reset_start.inv

/-! ## Between steps -/

namespace State.Inv

/-- Other steps and answers to come, another instance on the port, another record: nothing the invariant speaks of. -/
theorem congr (h : s.Inv) (hcan : t.Canonical) (hp : t.params = s.params) (hh : t.handles = s.handles) (hc : t.calls = s.calls)
    (hw : SameCalls s t) : t.Inv := by
  obtain ⟨hmid, hcalls⟩ := State.inv_iff_midInv.1 h
  exact (hmid.congr hcan hp hh hc hw).inv (hc.trans hcalls)

theorem canonical (h : s.Inv) : s.Canonical := ⟨h.memory, h.handlesForm, h.viewsForm⟩

theorem setInbox (h : s.Inv) (rest : List Input) : ({ s with inbox := rest } : State).Inv :=
  h.congr h.canonical rfl rfl rfl ⟨rfl, rfl⟩

/-- The host allocates, stores or frees a byte (20_memory.md R52). -/
theorem hostAccess (h : s.Inv) (rest : List Input) {m : List Host.Cell} (hm : Memory.wf m) :
    ({ s with inbox := rest, hostMem := m } : State).Inv :=
  h.congr (h.canonical.setHostMem hm) rfl rfl rfl ⟨rfl, rfl⟩

/-- A step of an instance that exists begins. -/
theorem inCommand (h : s.Inv) {p : Port} (hn : p.inst < s.params.nInst) : InCommand { s with port := p } { s with port := p } :=
  .refl (State.inv_iff_midInv.1 (h.congr (t := { s with port := p }) h.canonical rfl rfl rfl ⟨rfl, rfl⟩)).1 hn

end State.Inv

/-! ## Polls (42_blocking.md R133) -/

/-- The end of a blocking transfer: its instance is Ready, and nobody waits for it. -/
theorem blkEnd_inv (h : InCommand s t) (hc : s.calls = []) (r : Result) : (t.blkEnd r).Inv := by
  have hended := h.inv.endCall h.instLt Handle.endPolling h.handleInv.endPolling rfl
  exact (hended.congr (t := t.blkEnd r) hended.canonical rfl rfl rfl ⟨rfl, rfl⟩).inv (h.calls.trans hc)

/-- One payload byte is counted; BlkStage may go to End, so the transfer stays in progress. -/
theorem bytePolled_inv (h : InCommand s t) (hc : s.calls = []) (hs : t.h.blkStage = .byte) : (t.modifyH Handle.bytePolled).Inv := by
  have hkeep := h.inv.update (h.inv.canonical.modifyH Handle.bytePolled) (SameOutside.modifyH t _) ⟨rfl, rfl⟩ h.instLt
    (by rw [State.h_modifyH]; exact h.handleInv.bytePolled hs)
    (by simp [Handle.bytePolled_ne_idle hs, hs])
  exact hkeep.inv (h.calls.trans hc)

theorem pollByte_inv (h : InCommand s t) (hc : s.calls = []) (hs : t.h.blkStage = .byte) {u : State} (e : pollByte t = .next u) :
    u.Inv := by
  unfold pollByte at e
  split at e
  · obtain ⟨v, _, e⟩ := memRead_eq_next.1 e
    cases e
    exact bytePolled_inv ((h.log _).pwr .txdr (dataWord v)) hc hs
  · obtain ⟨x, hx, e⟩ := andThen_eq_next.1 e
    cases e
    have hin := (h.afterPrd .rxdr).memWrite hx
    exact bytePolled_inv hin hc (hin.stage.trans (h.stage.symm.trans hs))

theorem pollOn_inv (h : InCommand s t) (hc : s.calls = []) {v : Word} {u : State} (e : pollOn v t = .next u) : u.Inv := by
  rcases pollOn_cases v t with ⟨_, hp⟩ | ⟨_, hs, _, hp⟩ | ⟨_, _, _, hp⟩ | ⟨_, _, hp⟩ | ⟨_, hne, hp⟩ <;> rw [hp] at e
  · cases e
    exact blkEnd_inv ((h.pwr .icr icrNACK).modifyH (h.handleInv.withError (e := .notAcknowledged) (by decide)) rfl) hc _
  · exact pollByte_inv h hc hs e
  · cases e
    exact blkEnd_inv (h.pwr .icr icrSTOP) hc _
  · cases e
    exact blkEnd_inv (h.modifyH (h.handleInv.withError (e := .timeout) (by decide)) rfl) hc _
  · cases e
    exact (h.modifyH (h.handleInv.pollMissed hne) rfl).inv.inv (h.calls.trans hc)

theorem pollInstance_inv (h : s.Inv) {n : Nat} (e : pollInstance n s = .next t) : t.Inv := by
  unfold pollInstance at e
  split at e
  · rename_i hn
    have hpoll := h.inCommand (p := { inst := n, agent := .foreground }) hn
    unfold blkPoll at e
    split at e
    · cases e
      exact hpoll.inv.inv h.noNest
    · exact pollOn_inv (hpoll.afterPrd .isr) h.noNest e
  · cases e

/-! ## Steps of the agents -/

theorem deliver_inv (h : s.Inv) {a : Agent} {n : Nat} (hmid : s.midEvent n = false) {ws : List Word} (e : deliver a n ws s = .next t) :
    t.Inv := by
  unfold deliver at e
  split at e
  · rename_i hn
    have hcmd := h.inCommand (p := { inst := n, agent := a }) hn
    split at e
    · exact exec_inv hcmd h.noNest hmid e
    · cases e
      exact (hcmd.refuse _).inv.inv h.noNest
  · cases e

theorem bodyTurn_inv (h : s.Inv) {k : Nat} (e : bodyTurn k s = .next t) : t.Inv := by
  unfold bodyTurn at e
  split at e
  · cases e; exact h
  · rename_i w hk
    split at e
    · exact pollInstance_inv h e
    · rename_i hw
      exact runCallbacks_inv ((State.inv_iff_midInv.1 h).1.resume hk hw) e

theorem idleStep_inv (h : s.Inv) (e : idleStep s = .next t) : t.Inv := by
  unfold idleStep at e
  split at e
  · exact bodyTurn_inv h e
  · split at e
    · exact pollInstance_inv h e
    · cases e; exact h

theorem offer_inv (h : s.Inv) {a : Agent} {n : Nat} {ws : List Word} {rest : List Input} (e : offer a n ws rest s = .next t) : t.Inv := by
  by_cases hmid : s.midEvent n = true
  · rw [offer_heldBack hmid] at e
    exact bodyTurn_inv h e
  · rw [offer, if_neg hmid] at e
    exact deliver_inv (h.setInbox rest) (Bool.eq_false_iff.2 hmid) e

/-- Power-on of an instance ends its blocking transfer and drops the bodies of its EVENT. -/
theorem powerOnInstance_inv (h : s.Inv) {n : Nat} (e : powerOnInstance n s = .next t) : t.Inv := by
  unfold powerOnInstance at e
  split at e <;> cases e
  rename_i hn
  have hcmd := h.inCommand (p := { inst := n, agent := .foreground }) hn
  have hended := hcmd.inv.endCall hn (fun _ => Handle.powerOn) (Handle.powerOn_inv h.tPollPos) rfl
  have hback := hended.congr (t := (s.setHandleAt n Handle.powerOn).endCall n) hended.canonical rfl rfl rfl ⟨rfl, rfl⟩
  exact (hback.dropBodies h.noNest n).inv h.noNest

theorem step_of_poll {n : Nat} {rest : List Input} (h : s.inbox = .poll n :: rest) :
    step s = pollInstance n { s with inbox := rest } := by
  simp [step, takeInput, h]

theorem step_of_hostStore {a : Word} {v : Byte} {rest : List Input} (h : s.inbox = .hostStore a v :: rest) :
    step s = .next { s with inbox := rest, hostMem := Memory.store s.hostMem a v } := by
  simp [step, takeInput, h]

theorem step_of_hostRelease {a : Word} {rest : List Input} (h : s.inbox = .hostRelease a :: rest) :
    step s = .next { s with inbox := rest, hostMem := Memory.release s.hostMem a } := by
  simp [step, takeInput, h]

theorem step_of_powerOn {n : Nat} {rest : List Input} (h : s.inbox = .powerOn n :: rest) :
    step s = powerOnInstance n { s with inbox := rest } := by
  simp [step, takeInput, h]

/-- Settles O52, by the first entry of the inbox. Inside a step the invariant is `State.MidInv`, in which the bodies that run count as one
more entry beside those that wait. -/
theorem stepKeepsInvariant : Obligations.StepKeepsInvariant := by
  intro s t h e
  match hi : s.inbox with
  | [] =>
    rw [step_of_inbox_nil hi] at e
    exact idleStep_inv h e
  | .foreground n ws :: rest =>
    match hf : s.fgCall with
    | some m =>
      rw [step_of_foreground_waiting hi hf] at e
      exact pollInstance_inv h e
    | none =>
      rw [step_of_foreground_free hi hf] at e
      exact offer_inv h e
  | .interrupt n ws :: rest =>
    rw [step_of_interrupt hi] at e
    exact offer_inv h e
  | .poll n :: rest =>
    rw [step_of_poll hi] at e
    exact pollInstance_inv (h.setInbox rest) e
  | .callback k :: rest =>
    rw [step_of_callback hi] at e
    exact bodyTurn_inv (h.setInbox rest) e
  | .hostStore a v :: rest =>
    rw [step_of_hostStore hi] at e
    cases e
    exact h.hostAccess rest (Memory.store_wf a v h.memory)
  | .hostRelease a :: rest =>
    rw [step_of_hostRelease hi] at e
    cases e
    exact h.hostAccess rest (Memory.release_wf a h.memory)
  | .powerOn n :: rest =>
    rw [step_of_powerOn hi] at e
    exact powerOnInstance_inv (h.setInbox rest) e

/-! ## Reachable states -/

theorem Reaches.inv (h : s.Inv) (hr : Reaches s t) : t.Inv := by
  induction hr with
  | here => exact h
  | step _ e ih => exact stepKeepsInvariant _ _ ih e

theorem Operation.isBlocking_iff {op : Operation} : op.isBlocking = true ↔ op = .write ∨ op = .read := by
  cases op <;> simp [Operation.isBlocking, Operation.isAsync]

theorem Operation.isMemory_iff {op : Operation} : op.isMemory = true ↔ op = .memoryWrite ∨ op = .memoryRead := by
  cases op <;> simp [Operation.isMemory]

/-- Settles O53: the six points are part of the machine's invariant, which holds at power-on and which every step keeps. -/
theorem reachableStatesSatisfyR38 : Obligations.ReachableStatesSatisfyR38 := by
  intro s t n hstart hreach h
  have hi : h.Inv t.params.tPoll := (Reaches.inv hstart.inv hreach).handlesInv n
  refine ⟨?_, fun hs => ?_, hi.transmitting, hi.receiving, fun hs => ?_, fun _ _ => hi.offsetLe, hi.errorNotBusy⟩
  · rw [← Operation.isBlocking_iff]; exact hi.blocking
  · rw [← Operation.isMemory_iff]; exact hi.addressing hs
  · obtain ⟨hpos, hbound, _⟩ := hi.inFlight hs
    exact ⟨hpos, Nat.le_of_lt_succ h.len.isLt, hi.offsetLe, hi.dataLe, hbound⟩

end Sys2Proof.Machine
end

section
/-! PROOFS. 20_memory.md R56: what one register access leaves in the recorded view of the bound peripheral, flag by flag. -/

namespace Sys2Proof.Machine

/-! ## The flags an access clears -/

/-- An access that names no flag clears none. -/
theorem clear_no_flag (x : Word) : x &&& ~~~(0 : Word) = x := by
  rw [BitVec.ofNat_eq_ofNat, BitVec.not_zero, BitVec.and_allOnes]

theorem clear_flags_bit (x m : Word) {b : Nat} (hb : b < 32) : (x &&& ~~~m).getLsbD b = (x.getLsbD b && !m.getLsbD b) := by
  simp [hb]

theorem clearedByRead_rxdr_bit {b : Nat} (hb : b < 32) : (clearedByRead .rxdr).getLsbD b = decide (b = 2) := by
  revert b; decide

theorem clearedByWrite_txdr_bit (v : Word) {b : Nat} (hb : b < 32) : (clearedByWrite .txdr v).getLsbD b = decide (b = 1) := by
  have hmask : ∀ b < 32, maskTXIS.getLsbD b = decide (b = 1) := by decide
  exact hmask b hb

/-- The flags of R87 are those whose bit of the word written is set. -/
theorem clearedByWrite_icr_bit (v : Word) {b : Nat} (hb : b < 32) :
    (clearedByWrite .icr v).getLsbD b = (v.getLsbD b && decide (b ∈ [3, 4, 5, 8, 9, 10, 11, 12, 13])) := by
  have hmask : ∀ b < 32, icrFlags.getLsbD b = decide (b ∈ [3, 4, 5, 8, 9, 10, 11, 12, 13]) := by decide
  rw [← hmask b hb]
  exact BitVec.getLsbD_and

/-- TC and TCR, where the word written sets START. -/
theorem clearedByWrite_cr2_bit (v : Word) {b : Nat} (hb : b < 32) :
    (clearedByWrite .cr2 v).getLsbD b = (v.getLsbD 13 && decide (b = 6 ∨ b = 7)) := by
  have hmask : ∀ b < 32, (maskTC ||| maskTCR).getLsbD b = decide (b = 6 ∨ b = 7) := by decide
  rw [← hmask b hb]
  unfold clearedByWrite
  cases v.getLsbD 13 <;> simp

/-! ## The view of the bound peripheral -/

theorem State.viewAt_afterPrd_bound (s : State) (r : PReg) :
    (s.afterPrd r).viewAt s.h.periphRef = (s.viewAt s.h.periphRef).afterRead r (s.nextAnswer r) := by
  rw [State.viewAt_afterPrd, if_pos rfl]

theorem State.viewAt_pwr_bound (s : State) (r : PReg) (v : Word) :
    (s.pwr r v).viewAt s.h.periphRef = (s.viewAt s.h.periphRef).afterWrite r v := by
  rw [State.viewAt_pwr, if_pos rfl]

/-- Settles O10, register by register: each access sets the register it names, and masks the recorded status with the flags it clears. -/
theorem registerAccessSideEffects : Obligations.RegisterAccessSideEffects := by
  intro s v b hb p f
  simp only [p, f, State.viewAt_afterPrd_bound, State.viewAt_pwr_bound]
  generalize s.viewAt s.h.periphRef = w
  refine ⟨?isr, ⟨rfl, ?rxdr⟩, ⟨rfl, ?cr1⟩, ⟨rfl, ?txdr⟩, ⟨rfl, ?icr⟩, ⟨rfl, ?cr2⟩, fun _ => ⟨rfl, ?cr1Written⟩⟩
  case isr => exact clear_no_flag _
  case rxdr =>
    refine (clear_flags_bit _ _ hb).trans ?_
    rw [clearedByRead_rxdr_bit hb]
    by_cases h : b = 2 <;> simp [h, PeriphView.set]
  case cr1 => exact clear_no_flag _
  case txdr =>
    refine (clear_flags_bit _ _ hb).trans ?_
    rw [clearedByWrite_txdr_bit v hb]
    by_cases h : b = 1 <;> simp [h, PeriphView.set]
  case icr =>
    refine (clear_flags_bit _ _ hb).trans ?_
    rw [clearedByWrite_icr_bit v hb]
    by_cases h : b ∈ [3, 4, 5, 8, 9, 10, 11, 12, 13] <;> cases v.getLsbD b <;> simp [h, PeriphView.set]
  case cr2 =>
    refine (clear_flags_bit _ _ hb).trans ?_
    rw [clearedByWrite_cr2_bit v hb]
    by_cases h : b = 6 ∨ b = 7 <;> cases v.getLsbD 13 <;> simp [h, PeriphView.set]
  case cr1Written => exact clear_no_flag _

end Sys2Proof.Machine
end

section
/-! PROOFS. 20_memory.md R51, R52, R53, R61: what a host's store and release leave, where an access of the block to host memory is stuck,
and that the block writes no byte but the one DataCount names in the buffer of a transfer it receives. -/

namespace Sys2Proof.Machine

variable {s t : State}

/-! ## The host's own accesses -/

/-- Settles O48: the step is the store, or the release, and the byte it names is the only one that reads otherwise than before. -/
theorem hostStoreIsSeen : Obligations.HostStoreIsSeen := by
  intro s a rest
  refine ⟨fun v hi => ⟨_, step_of_hostStore hi, ?_, fun b hb => ?_, rfl, rfl, rfl⟩,
    fun hi => ⟨_, step_of_hostRelease hi, ?_, fun b hb => ?_, rfl, rfl, rfl⟩⟩
  · rw [Memory.byteAt_store, if_pos rfl]
  · rw [Memory.byteAt_store, if_neg hb.symm]
  · rw [Memory.byteAt_release, if_pos rfl]
  · rw [Memory.byteAt_release, if_neg hb.symm]

/-! ## Refused accesses of the block (R52) -/

/-- The data register is read before the byte it gave is stored, and that read allocates nothing. -/
theorem andThen_memWrite_stuck {a : Word} (v : Byte) (k : State → Out) (h : Memory.byteAt s.hostMem a = none) :
    andThen (memWrite a v (s.afterPrd .rxdr)) k = .fault (.hostAccessStuck a) := by
  rw [memWrite_none (s := s.afterPrd .rxdr) v h, andThen_fault]

theorem pollByte_stuck (h : Memory.byteAt s.hostMem (payloadAddr s.h) = none) :
    pollByte s = .fault (.hostAccessStuck (payloadAddr s.h)) := by
  unfold pollByte
  split
  · exact memRead_none h _
  · exact andThen_memWrite_stuck _ _ h

theorem rxBranch_stuck (h : Memory.byteAt s.hostMem (payloadAddr s.h) = none) :
    rxBranch s = .fault (.hostAccessStuck (payloadAddr s.h)) :=
  andThen_memWrite_stuck _ _ h

theorem txDataBranch_stuck (h : Memory.byteAt s.hostMem (payloadAddr s.h) = none) :
    txDataBranch s = .fault (.hostAccessStuck (payloadAddr s.h)) :=
  memRead_none h _

/-- A ready poll in the Byte stage reads ISR and moves a byte. -/
theorem blkPoll_ready (hs : s.h.blkStage = .byte) (hn : nackEv (s.nextAnswer .isr) = false)
    (hr : readyFlag s.h.operation (s.nextAnswer .isr) = true) : blkPoll s = pollByte (s.afterPrd .isr) := by
  simp [blkPoll, pollOn, hs, hn, hr]

/-- Settles O30: the read of ISR before the access writes neither the handle nor host memory, so the access goes to the refused byte. -/
theorem refusedHostAccessIsStuck : Obligations.RefusedHostAccessIsStuck := by
  intro s hmem
  refine ⟨fun hs hn hr => ?poll, ?event⟩
  case poll =>
    rw [blkPoll_ready hs hn hr]
    exact pollByte_stuck hmem
  case event =>
    rintro (hrx | ⟨htx, hst⟩)
    · rw [exec_event_takes hrx, runBranch, rxBranch_stuck (s := s.afterPrd .isr) hmem]
      rfl
    · rw [exec_event_takes htx, runBranch, if_neg (by simp [hst]), txDataBranch_stuck (s := s.afterPrd .isr) hmem]
      rfl

/-! ## What a command and a poll leave of host memory (R51) -/

/-- `t` has the host memory of `s` with a byte stored at the address DataCount names. -/
def StoresPayload (s t : State) : Prop := ∃ v, t.hostMem = Memory.store s.hostMem (payloadAddr s.h) v

@[simp] theorem finishEvent_hostMem (s : State) : (finishEvent s).hostMem = s.hostMem := rfl

@[simp] theorem notify_hostMem (k : CbKind) (s : State) : (notify k s).hostMem = s.hostMem := by
  unfold notify
  split <;> simp

@[simp] theorem nackBranch_hostMem (s : State) : (nackBranch s).hostMem = s.hostMem := by simp [nackBranch]

@[simp] theorem cpDataBranch_hostMem (s : State) : (cpDataBranch s).hostMem = s.hostMem := by
  unfold cpDataBranch
  split <;> simp

theorem transfer_hostMem (ok : Bool) (buf : Word) (len : BitVec 8) {start : State → State} (s : State)
    (h : ∀ t, (start t).hostMem = t.hostMem) : (transfer ok buf len start s).hostMem = s.hostMem := by
  obtain ⟨_, hidle, _⟩ := s.afterCheckIdle_frame
  rcases transfer_cases ok buf len start s with ⟨_, e⟩ | ⟨_, _, e⟩ | ⟨_, _, _, e⟩ | ⟨_, _, _, _, e⟩ | ⟨_, _, _, _, e⟩ <;> rw [e]
  · rfl
  · rfl
  · rfl
  · exact hidle
  · exact (h _).trans hidle

@[simp] theorem State.arm_hostMem (op : Operation) (dev : BitVec 7) (reg : Word) (w : BitVec 3) (buf : Word) (len : BitVec 8)
    (s : State) : (s.arm op dev reg w buf len).hostMem = s.hostMem := by
  obtain ⟨_, _, hmem, _⟩ := State.arm_frame op dev reg w buf len s
  exact hmem

theorem State.asyncStart_hostMem (op : Operation) (dev : BitVec 7) (reg : Word) (w : BitVec 3) (buf : Word) (len : BitVec 8)
    (s : State) : (s.asyncStart op dev reg w buf len).hostMem = s.hostMem := by simp [State.asyncStart]

theorem State.blkStart_hostMem (op : Operation) (dev : BitVec 7) (buf : Word) (len : BitVec 8) (s : State) :
    (s.blkStart op dev buf len).hostMem = s.hostMem := by simp [State.blkStart]

theorem rxBranch_storesPayload (e : rxBranch s = .next t) : StoresPayload s t := by
  obtain ⟨u, hu, e⟩ := andThen_eq_next.1 e
  obtain ⟨_, rfl⟩ := memWrite_eq_next.1 hu
  cases e
  exact ⟨_, rfl⟩

/-- Of the branches of the dispatcher RX alone writes host memory. -/
theorem runBranch_hostMem {b : Branch} (e : runBranch b s = .next t) : t.hostMem = s.hostMem ∨ (b = .rx ∧ StoresPayload s t) := by
  cases b with
  | nack => cases e; exact .inl (nackBranch_hostMem s)
  | rx => exact .inr ⟨rfl, rxBranch_storesPayload e⟩
  | tx =>
    left
    simp only [runBranch] at e
    split at e
    · cases e; rfl
    · obtain ⟨v, _, e⟩ := memRead_eq_next.1 e
      cases e; rfl
  | cp =>
    left
    simp only [runBranch] at e
    split at e <;> cases e
    · rfl
    · exact cpDataBranch_hostMem s

theorem eventStep_hostMem (e : eventStep s = .next t) :
    t.hostMem = s.hostMem ∨ (applicable s.h .rx = true ∧ StoresPayload s t) := by
  unfold eventStep at e
  split at e
  · cases e; exact .inl rfl
  · split at e
    · cases e; exact .inl rfl
    · unfold eventOn at e
      split at e
      · cases e; exact .inl rfl
      · rename_i htaken
        exact (runBranch_hostMem e).imp_right fun ⟨hb, hstore⟩ => ⟨applicable_of_takenBranch (hb ▸ htaken), hstore⟩

/-- Of the commands EVENT alone writes host memory. -/
theorem nestedExec_hostMem {i : Instr} (e : nestedExec i s = .next t) :
    t.hostMem = s.hostMem ∨ (applicable s.h .rx = true ∧ StoresPayload s t) := by
  cases i with
  | init p =>
    left
    simp only [nestedExec, execInit] at e
    split at e <;> cases e <;> rfl
  | setcb k inst en hd =>
    left
    simp only [nestedExec, execSetcb] at e
    split at e
    · cases e; rfl
    · split at e <;> cases e <;> rfl
  | write d b l => cases e; exact .inl (transfer_hostMem _ _ _ _ (State.blkStart_hostMem _ _ _ _))
  | read d b l => cases e; exact .inl (transfer_hostMem _ _ _ _ (State.blkStart_hostMem _ _ _ _))
  | writea d b l => cases e; exact .inl (transfer_hostMem _ _ _ _ (State.asyncStart_hostMem _ _ _ _ _ _))
  | reada d b l => cases e; exact .inl (transfer_hostMem _ _ _ _ (State.asyncStart_hostMem _ _ _ _ _ _))
  | memwra d r w b l => cases e; exact .inl (transfer_hostMem _ _ _ _ (State.asyncStart_hostMem _ _ _ _ _ _))
  | memrda d r w b l => cases e; exact .inl (transfer_hostMem _ _ _ _ (State.asyncStart_hostMem _ _ _ _ _ _))
  | event => exact eventStep_hostMem e

theorem exec_hostMem {i : Instr} (hc : s.calls = []) (hb : s.script.bodies = []) (e : exec i s = .next t) :
    t.hostMem = s.hostMem ∨ (applicable s.h .rx = true ∧ StoresPayload s t) := by
  rcases exec_unscripted_cases hc hb e with e | ⟨u, hu, rfl⟩
  · exact nestedExec_hostMem e
  · exact nestedExec_hostMem (t := u) hu

/-- Of the polls one in the Byte stage, of an operation other than Write, writes host memory. -/
theorem pollOn_hostMem {v : Word} (e : pollOn v s = .next t) :
    t.hostMem = s.hostMem ∨ (s.h.blkStage = .byte ∧ s.h.operation ≠ .write ∧ StoresPayload s t) := by
  rcases pollOn_cases v s with ⟨_, hp⟩ | ⟨_, hs, _, hp⟩ | ⟨_, _, _, hp⟩ | ⟨_, _, hp⟩ | ⟨_, _, hp⟩ <;> rw [hp] at e
  case inr.inl =>
    unfold pollByte at e
    split at e
    · obtain ⟨v, _, e⟩ := memRead_eq_next.1 e
      cases e
      exact .inl rfl
    · rename_i hop
      obtain ⟨u, hu, e⟩ := andThen_eq_next.1 e
      obtain ⟨_, rfl⟩ := memWrite_eq_next.1 hu
      cases e
      exact .inr ⟨hs, hop, _, rfl⟩
  all_goals cases e; exact .inl rfl

theorem blkPoll_hostMem (e : blkPoll s = .next t) :
    t.hostMem = s.hostMem ∨ (s.h.blkStage = .byte ∧ s.h.operation ≠ .write ∧ StoresPayload s t) := by
  unfold blkPoll at e
  split at e
  · cases e; exact .inl rfl
  · exact pollOn_hostMem (s := s.afterPrd .isr) e

/-! ## The byte is one of the buffer's (R53) -/

/-- A byte is due that the block receives. -/
structure ReceivesByte (h : Handle) : Prop where
  state : h.state = .busyReceiving
  left : h.dataCount.toNat < h.len.toNat

theorem receivesByte_of_rx {h : Handle} (ha : applicable h .rx = true) : ReceivesByte h := by
  obtain ⟨⟨hs, _⟩, hlt⟩ : (h.state = .busyReceiving ∧ h.operation.isAsync = true) ∧ h.dataCount < h.len := by
    simpa [applicable] using ha
  exact ⟨hs, hlt⟩

/-- A blocking transfer that is not a WRITE is a READ, which receives in its Byte stage (10_state.md R38). -/
theorem Handle.Inv.receivesByte {tPoll : Nat} {h : Handle} (hi : h.Inv tPoll) (hs : h.blkStage = .byte) (hw : h.operation ≠ .write) :
    ReceivesByte h := by
  obtain ⟨hflight, hblocking⟩ := hi.blocking.1 (by simp [hs])
  have hread : h.operation = .read := (Operation.isBlocking_iff.1 hblocking).resolve_left hw
  refine ⟨?_, hi.byteLeft hs⟩
  cases hst : h.state with
  | ready => exact absurd hst hflight
  | busyAddressingSubphase => simpa [hread, Operation.isMemory] using (hi.addressing hst).1
  | busyTransmitting => simpa [hread] using hi.transmitting hst
  | busyReceiving => rfl

/-- The buffer of a transfer in flight does not wrap, so the address of a byte that is due is the sum of its parts. -/
theorem Handle.Inv.payloadAddr_toNat {tPoll : Nat} {h : Handle} (hi : h.Inv tPoll) (hr : ReceivesByte h) :
    (payloadAddr h).toNat = h.bufBase.toNat + h.dataCount.toNat := by
  obtain ⟨_, _, hfits⟩ := hi.inFlight (by simp [hr.state])
  have hbound : h.bufBase.toNat + h.len.toNat - 1 ≤ 0xFFFFFFFF := by simpa [bufferFits] using hfits
  have hleft := hr.left
  have hwide : (h.dataCount.zeroExtend 32).toNat = h.dataCount.toNat := by
    simp
    omega
  rw [payloadAddr, BitVec.toNat_add, hwide, Nat.mod_eq_of_lt (by omega)]

/-- Settles O58: only the RX branch and a poll of a READ store a byte, both at `payloadAddr`, which the invariant places in the buffer. -/
theorem blockWritesOnlyItsBuffer : Obligations.BlockWritesOnlyItsBuffer := by
  intro i s t a hi hb e hne
  have hinv : s.h.Inv s.params.tPoll := hi.handlesInv s.port.inst
  have hcases : t.hostMem = s.hostMem ∨ (ReceivesByte s.h ∧ StoresPayload s t) := by
    rcases e with e | e
    · exact (exec_hostMem hi.noNest hb e).imp_right fun ⟨ha, hstore⟩ => ⟨receivesByte_of_rx ha, hstore⟩
    · exact (blkPoll_hostMem e).imp_right fun ⟨hs, hw, hstore⟩ => ⟨hinv.receivesByte hs hw, hstore⟩
  rcases hcases with hsame | ⟨hrec, v, hmem⟩
  · exact absurd (by rw [hsame]) hne
  · have ha : a = payloadAddr s.h := by
      by_contra hother
      rw [hmem, Memory.byteAt_store, if_neg (Ne.symm hother)] at hne
      exact hne rfl
    have haddr := hinv.payloadAddr_toNat hrec
    have hleft := hrec.left
    rw [ha]
    exact ⟨hrec.state, by omega, by omega, haddr⟩

end Sys2Proof.Machine
end

section
/-! PROOFS. 20_memory.md R55, R56: the recorded register views follow the register accesses on the trace, through every operation of the
model, the callback bodies and every agent's step. -/

namespace Sys2Proof.Machine

/-- What was put on the trace from `s` to `t` leads the register views from those of `s` to those of `t`. -/
def ViewsFollow (s t : State) : Prop :=
  ∃ l, t.trace = s.trace ++ l ∧ ∀ p, t.viewAt p = l.foldl (TraceItem.leavesIn p) (s.viewAt p)

namespace ViewsFollow

variable {s t u : State}

theorem refl (s : State) : ViewsFollow s s := ⟨[], by simp, fun _ => rfl⟩

theorem trans (a : ViewsFollow s t) (b : ViewsFollow t u) : ViewsFollow s u := by
  obtain ⟨l, hl, hst⟩ := a
  obtain ⟨m, hm, htu⟩ := b
  exact ⟨l ++ m, by rw [hm, hl, List.append_assoc], fun p => by rw [htu p, hst p, List.foldl_append]⟩

/-! ## Single updates -/

/-- An update that puts nothing on the trace and leaves the views. -/
theorem quiet (h : ViewsFollow s t) (hv : u.views = t.views) (ht : u.trace = t.trace) : ViewsFollow s u := by
  obtain ⟨l, hl, hviews⟩ := h
  exact ⟨l, ht.trans hl, fun p => by rw [← hviews p, State.viewAt, hv, State.viewAt]⟩

/-- An update that puts one item on the trace and leaves in each view what the item does. -/
theorem item (h : ViewsFollow s t) (x : TraceItem) (ht : u.trace = t.trace ++ [x]) (hv : ∀ p, u.viewAt p = x.leavesIn p (t.viewAt p)) :
    ViewsFollow s u := by
  obtain ⟨l, hl, hviews⟩ := h
  refine ⟨l ++ [x], by rw [ht, hl, List.append_assoc], fun p => ?_⟩
  rw [hv p, hviews p, List.foldl_append, List.foldl_cons, List.foldl_nil]

theorem modifyH (h : ViewsFollow s t) (f : Handle → Handle) : ViewsFollow s (t.modifyH f) := h.quiet rfl rfl

theorem answer (h : ViewsFollow s t) (r : Result) : ViewsFollow s (t.answer r) := h.item _ rfl fun _ => rfl

theorem refuse (h : ViewsFollow s t) (why : RefuseReason) : ViewsFollow s (t.refuse why) := h.item _ rfl fun _ => rfl

theorem afterPrd (h : ViewsFollow s t) (r : PReg) : ViewsFollow s (t.afterPrd r) :=
  h.item _ rfl fun p => by
    rw [State.viewAt_afterPrd]
    show _ = if t.h.periphRef = p then _ else _
    split
    · subst_vars; rfl
    · rfl

theorem pwr (h : ViewsFollow s t) (r : PReg) (v : Word) : ViewsFollow s (t.pwr r v) :=
  h.item _ rfl fun p => by
    rw [State.viewAt_pwr]
    show _ = if t.h.periphRef = p then _ else _
    split
    · subst_vars; rfl
    · rfl

theorem noteCall (h : ViewsFollow s t) : ViewsFollow s t.noteCall := h.quiet (by simp) (by simp)

theorem memWrite (h : ViewsFollow s t) {a : Word} {v : Byte} (e : memWrite a v t = .next u) : ViewsFollow s u := by
  obtain ⟨_, rfl⟩ := memWrite_eq_next.1 e
  exact h.item (.memWrite a v) rfl fun _ => rfl

theorem memRead (h : ViewsFollow s t) (a : Word) (v : Byte) : ViewsFollow s (t.log (.memRead a v)) := h.item _ rfl fun _ => rfl

theorem afterCheckIdle (h : ViewsFollow s t) : ViewsFollow s t.afterCheckIdle := by
  by_cases hr : t.h.state = .ready
  · rw [State.afterCheckIdle_ready hr]; exact h.afterPrd _
  · rw [State.afterCheckIdle_busy hr]; exact h

/-! ## Commands -/

theorem arm (h : ViewsFollow s t) (op : Operation) (dev : BitVec 7) (reg : Word) (w : BitVec 3) (buf : Word) (len : BitVec 8) :
    ViewsFollow s (t.arm op dev reg w buf len) := by
  have hcleared := (h.modifyH (Handle.armed op dev reg w buf len)).pwr .icr icrBOTH
  unfold State.arm
  dsimp only
  split
  · exact ((hcleared.afterPrd .cr1).pwr .cr1 _).pwr .cr2 _
  · exact hcleared.pwr .cr2 _

theorem asyncStart (h : ViewsFollow s t) (op : Operation) (dev : BitVec 7) (reg : Word) (w : BitVec 3) (buf : Word) (len : BitVec 8) :
    ViewsFollow s (t.asyncStart op dev reg w buf len) :=
  (h.arm ..).answer .ok

theorem blkStart (h : ViewsFollow s t) (op : Operation) (dev : BitVec 7) (buf : Word) (len : BitVec 8) :
    ViewsFollow s (t.blkStart op dev buf len) :=
  ((h.arm ..).modifyH _).noteCall

theorem transfer (ok : Bool) (buf : Word) (len : BitVec 8) {start : State → State}
    (hstart : ∀ u, ViewsFollow s u → ViewsFollow s (start u)) : ViewsFollow s (transfer ok buf len start s) := by
  have h := refl s
  rcases transfer_cases ok buf len start s with ⟨_, e⟩ | ⟨_, _, e⟩ | ⟨_, _, _, e⟩ | ⟨_, _, _, _, e⟩ | ⟨_, _, _, _, e⟩ <;> rw [e]
  · exact h.refuse _
  · exact h.refuse _
  · exact h.refuse _
  · exact h.afterCheckIdle.answer _
  · exact hstart _ h.afterCheckIdle

/-! ## The dispatcher -/

theorem finishEvent (h : ViewsFollow s t) : ViewsFollow s (finishEvent t) :=
  (((h.afterPrd .cr1).pwr .cr1 _).modifyH _).answer .ok

theorem notify (h : ViewsFollow s t) (k : CbKind) : ViewsFollow s (notify k t) := by
  unfold Machine.notify
  split
  · exact h.item (.notify t.port.inst k (t.h.cb.get k).handler) rfl fun _ => rfl
  · exact h.finishEvent

theorem cpDataBranch (h : ViewsFollow s t) : ViewsFollow s (cpDataBranch t) := by
  unfold Machine.cpDataBranch
  split
  · exact (h.pwr .icr icrSTOP).finishEvent
  · exact (h.pwr .icr icrSTOP).notify _

theorem runBranch (h : ViewsFollow s t) {b : Branch} (e : runBranch b t = .next u) : ViewsFollow s u := by
  cases b with
  | nack => cases e; exact ((h.modifyH _).pwr .icr icrNACK).notify _
  | rx =>
    obtain ⟨x, hx, e⟩ := andThen_eq_next.1 e
    cases e
    exact (((h.afterPrd .rxdr).memWrite hx).modifyH _).answer .ok
  | tx =>
    simp only [Machine.runBranch] at e
    split at e
    · cases e; exact ((h.pwr .txdr _).modifyH _).answer .ok
    · obtain ⟨v, _, e⟩ := memRead_eq_next.1 e
      cases e
      exact (((h.memRead _ v).pwr .txdr _).modifyH _).answer .ok
  | cp =>
    simp only [Machine.runBranch] at e
    split at e <;> cases e
    · exact (((h.pwr .icr icrSTOP).modifyH _).pwr .cr2 _).answer .ok
    · exact h.cpDataBranch

theorem eventStep (e : eventStep s = .next t) : ViewsFollow s t := by
  have h := refl s
  unfold Machine.eventStep at e
  split at e
  · cases e; exact h.refuse _
  · split at e
    · cases e; exact h.answer _
    · unfold eventOn at e
      split at e
      · cases e; exact (h.afterPrd .isr).answer _
      · exact (h.afterPrd .isr).runBranch e

theorem nestedExec {i : Instr} (e : nestedExec i s = .next t) : ViewsFollow s t := by
  have h := refl s
  cases i with
  | init p =>
    simp only [Machine.nestedExec, execInit] at e
    split at e <;> cases e
    · exact h.refuse _
    · exact (h.modifyH _).answer _
  | setcb k inst en hd =>
    simp only [Machine.nestedExec, execSetcb] at e
    split at e
    · cases e; exact h.refuse _
    · split at e <;> cases e
      · exact h.refuse _
      · exact (h.modifyH _).answer _
  | write d b l => cases e; exact transfer _ _ _ fun u hu => hu.blkStart ..
  | read d b l => cases e; exact transfer _ _ _ fun u hu => hu.blkStart ..
  | writea d b l => cases e; exact transfer _ _ _ fun u hu => hu.asyncStart ..
  | reada d b l => cases e; exact transfer _ _ _ fun u hu => hu.asyncStart ..
  | memwra d r w b l => cases e; exact transfer _ _ _ fun u hu => hu.asyncStart ..
  | memrda d r w b l => cases e; exact transfer _ _ _ fun u hu => hu.asyncStart ..
  | event => exact eventStep e

/-! ## Callback bodies -/

theorem bodyCommand (h : ViewsFollow s t) {n : Nat} {ws : List Word} (e : bodyCommand n ws t = .next u) : ViewsFollow s u := by
  unfold Machine.bodyCommand at e
  split at e
  · have hport : ViewsFollow s { t with port := { inst := n, agent := .callback } } := h.quiet rfl rfl
    dsimp only at e
    split at e
    · cases e; exact hport.refuse _
    · obtain ⟨x, hx, e⟩ := andThen_eq_next.1 e
      cases e
      have hdone := hport.trans (nestedExec hx)
      unfold State.waitIfArmed
      split
      · exact hdone.quiet rfl rfl
      · exact hdone
  · cases e

theorem bodyStep (h : ViewsFollow s t) {x : BodyStep} (e : bodyStep x t = .next u) : ViewsFollow s u := by
  cases x with
  | command n ws => exact h.bodyCommand e
  | hostStore a v => cases e; exact h.quiet rfl rfl
  | hostRelease a => cases e; exact h.quiet rfl rfl
  | neverReturns => cases e

theorem runCalls (fuel : Nat) (h : ViewsFollow s t) (e : runCalls fuel t = .next u) : ViewsFollow s u := by
  induction fuel generalizing t with
  | zero => cases e
  | succ fuel ih =>
    simp only [Machine.runCalls] at e
    split at e
    · cases e; exact h
    · rename_i r rest _
      split at e
      · have hport : ViewsFollow s { t with port := r.port, calls := rest } := h.quiet rfl rfl
        exact ih hport.finishEvent e
      · rename_i x left _
        split at e
        · cases e; exact h.quiet rfl rfl
        · obtain ⟨y, hy, e⟩ := andThen_eq_next.1 e
          have hpop : ViewsFollow s { t with calls := { r with body := left } :: rest } := h.quiet rfl rfl
          exact ih (hpop.bodyStep hy) e

theorem exec {i : Instr} (h : ViewsFollow s t) (e : exec i t = .next u) : ViewsFollow s u := by
  by_cases hi : i = .event
  · subst hi
    obtain ⟨x, hx, e⟩ := andThen_eq_next.1 e
    exact (h.trans (eventStep hx)).runCalls _ e
  · exact h.trans (nestedExec (exec_eq_nestedExec hi t ▸ e))

/-! ## Polls -/

theorem blkEnd (h : ViewsFollow s t) (r : Result) : ViewsFollow s (t.blkEnd r) :=
  ((h.modifyH Handle.endPolling).quiet (u := (t.modifyH Handle.endPolling).endCall t.port.inst) rfl rfl).answer r

theorem pollByte (h : ViewsFollow s t) (e : pollByte t = .next u) : ViewsFollow s u := by
  unfold Machine.pollByte at e
  split at e
  · obtain ⟨v, _, e⟩ := memRead_eq_next.1 e
    cases e
    exact ((h.memRead _ v).pwr .txdr _).modifyH _
  · obtain ⟨x, hx, e⟩ := andThen_eq_next.1 e
    cases e
    exact ((h.afterPrd .rxdr).memWrite hx).modifyH _

theorem pollOn (h : ViewsFollow s t) {v : Word} (e : pollOn v t = .next u) : ViewsFollow s u := by
  rcases pollOn_cases v t with ⟨_, hp⟩ | ⟨_, _, _, hp⟩ | ⟨_, _, _, hp⟩ | ⟨_, _, hp⟩ | ⟨_, _, hp⟩ <;> rw [hp] at e
  case inr.inl => exact h.pollByte e
  all_goals cases e
  · exact ((h.pwr .icr icrNACK).modifyH _).blkEnd _
  · exact (h.pwr .icr icrSTOP).blkEnd _
  · exact (h.modifyH _).blkEnd _
  · exact h.modifyH _

theorem pollInstance (h : ViewsFollow s t) {n : Nat} (e : pollInstance n t = .next u) : ViewsFollow s u := by
  unfold Machine.pollInstance at e
  split at e
  · have hport : ViewsFollow s { t with port := { inst := n, agent := .foreground } } := h.quiet rfl rfl
    unfold blkPoll at e
    split at e
    · cases e; exact hport
    · exact (hport.afterPrd .isr).pollOn e
  · cases e

/-! ## Steps of the agents -/

theorem deliver (h : ViewsFollow s t) {a : Agent} {n : Nat} {ws : List Word} (e : deliver a n ws t = .next u) : ViewsFollow s u := by
  unfold Machine.deliver at e
  split at e
  · have hport : ViewsFollow s { t with port := { inst := n, agent := a } } := h.quiet rfl rfl
    split at e
    · exact hport.exec e
    · cases e; exact hport.refuse _
  · cases e

theorem bodyTurn (h : ViewsFollow s t) {k : Nat} (e : bodyTurn k t = .next u) : ViewsFollow s u := by
  unfold Machine.bodyTurn at e
  split at e
  · cases e; exact h
  · rename_i w _
    split at e
    · exact h.pollInstance e
    · have hresumed : ViewsFollow s { t with calls := w.runs, suspended := t.suspended.eraseIdx k } := h.quiet rfl rfl
      exact hresumed.runCalls _ e

theorem idleStep (h : ViewsFollow s t) (e : idleStep t = .next u) : ViewsFollow s u := by
  unfold Machine.idleStep at e
  split at e
  · exact h.bodyTurn e
  · split at e
    · exact h.pollInstance e
    · cases e; exact h

theorem offer (h : ViewsFollow s t) {a : Agent} {n : Nat} {ws : List Word} {rest : List Input} (e : offer a n ws rest t = .next u) :
    ViewsFollow s u := by
  by_cases hmid : t.midEvent n = true
  · rw [offer_heldBack hmid] at e
    exact h.bodyTurn e
  · rw [Machine.offer, if_neg hmid] at e
    have htaken : ViewsFollow s { t with inbox := rest } := h.quiet rfl rfl
    exact htaken.deliver e

theorem powerOnInstance (h : ViewsFollow s t) {n : Nat} (e : powerOnInstance n t = .next u) : ViewsFollow s u := by
  unfold Machine.powerOnInstance at e
  split at e <;> cases e
  exact h.quiet rfl rfl

end ViewsFollow

/-- Settles O55, by the first entry of the inbox. -/
theorem viewsAreWhatAccessesLeave : Obligations.ViewsAreWhatAccessesLeave := by
  intro s t e
  have h := ViewsFollow.refl s
  have htaken (rest : List Input) : ViewsFollow s { s with inbox := rest } := h.quiet rfl rfl
  match hi : s.inbox with
  | [] =>
    rw [step_of_inbox_nil hi] at e
    exact h.idleStep e
  | .foreground n ws :: rest =>
    match hf : s.fgCall with
    | some m =>
      rw [step_of_foreground_waiting hi hf] at e
      exact h.pollInstance e
    | none =>
      rw [step_of_foreground_free hi hf] at e
      exact h.offer e
  | .interrupt n ws :: rest =>
    rw [step_of_interrupt hi] at e
    exact h.offer e
  | .poll n :: rest =>
    rw [step_of_poll hi] at e
    exact (htaken rest).pollInstance e
  | .callback k :: rest =>
    rw [step_of_callback hi] at e
    exact (htaken rest).bodyTurn e
  | .hostStore a v :: rest =>
    rw [step_of_hostStore hi] at e
    cases e
    exact h.quiet rfl rfl
  | .hostRelease a :: rest =>
    rw [step_of_hostRelease hi] at e
    cases e
    exact h.quiet rfl rfl
  | .powerOn n :: rest =>
    rw [step_of_powerOn hi] at e
    exact (htaken rest).powerOnInstance e

end Sys2Proof.Machine
end

section
/-! PROOFS. 20_memory.md R57: two runs that read status words with the same five flags of 30_encoding.md R90. They go through the same states
but for the status word, where it is recorded: on the trace, in the register view, and in the answers still to come. -/

namespace Sys2Proof.Machine

/-! ## Status words -/

/-- Status words that agree in the five event predicates of R90. -/
structure SameFlags (v w : Word) : Prop where
  nack : nackEv v = nackEv w
  rx : rxEv v = rxEv w
  tx : txEv v = txEv w
  cp : cpEv v = cpEv w
  busy : busyF v = busyF w

theorem SameFlags.takenBranch {v w : Word} (h : SameFlags v w) (x : Handle) : takenBranch x v = takenBranch x w := by
  rw [takenBranch_eq, takenBranch_eq, h.nack, h.rx, h.tx, h.cp]

theorem SameFlags.readyFlag {v w : Word} (h : SameFlags v w) (op : Operation) : readyFlag op v = readyFlag op w := by
  cases op with
  | write => exact h.tx
  | _ => exact h.rx

/-! ## States that differ in the status word only -/

/-- `t` is `s` but for the register views, the status words on the trace, and the status words still to come. -/
def SameButStatus (s t : State) : Prop :=
  ∃ views trace isr, trace.map TraceItem.blindStatus = s.trace.map TraceItem.blindStatus
    ∧ t = { s with views := views, trace := trace, script := { s.script with isr := isr } }

namespace SameButStatus

variable {s t : State}

theorem h_eq (h : SameButStatus s t) : t.h = s.h := by obtain ⟨_, _, _, _, rfl⟩ := h; rfl

theorem nextAnswer_eq (h : SameButStatus s t) {r : PReg} (hr : r ≠ .isr) : t.nextAnswer r = s.nextAnswer r := by
  obtain ⟨_, _, _, _, rfl⟩ := h
  cases r with
  | isr => exact absurd rfl hr
  | _ => rfl

theorem port_eq (h : SameButStatus s t) : t.port = s.port := by obtain ⟨_, _, _, _, rfl⟩ := h; rfl

theorem params_eq (h : SameButStatus s t) : t.params = s.params := by obtain ⟨_, _, _, _, rfl⟩ := h; rfl

theorem calls_eq (h : SameButStatus s t) : t.calls = s.calls := by obtain ⟨_, _, _, _, rfl⟩ := h; rfl

theorem inBody_eq (h : SameButStatus s t) (n : Nat) : t.inBody n = s.inBody n := by obtain ⟨_, _, _, _, rfl⟩ := h; rfl

theorem midEvent_eq (h : SameButStatus s t) (n : Nat) : t.midEvent n = s.midEvent n := by obtain ⟨_, _, _, _, rfl⟩ := h; rfl

theorem hostMem_eq (h : SameButStatus s t) : t.hostMem = s.hostMem := by obtain ⟨_, _, _, _, rfl⟩ := h; rfl

/-! ## Updates that both runs make -/

theorem log (h : SameButStatus s t) {x y : TraceItem} (hxy : y.blindStatus = x.blindStatus) : SameButStatus (s.log x) (t.log y) := by
  obtain ⟨_, _, _, ht, rfl⟩ := h
  exact ⟨_, _, _, by simp [ht, hxy], rfl⟩

theorem answer (h : SameButStatus s t) (r : Result) : SameButStatus (s.answer r) (t.answer r) := by
  obtain ⟨_, _, _, ht, rfl⟩ := h
  exact ⟨_, _, _, by simp [ht], rfl⟩

theorem refuse (h : SameButStatus s t) (why : RefuseReason) : SameButStatus (s.refuse why) (t.refuse why) := by
  obtain ⟨_, _, _, ht, rfl⟩ := h
  exact ⟨_, _, _, by simp [ht], rfl⟩

theorem modifyH (h : SameButStatus s t) (f : Handle → Handle) : SameButStatus (s.modifyH f) (t.modifyH f) := by
  obtain ⟨_, _, _, ht, rfl⟩ := h
  exact ⟨_, _, _, ht, rfl⟩

theorem pwr (h : SameButStatus s t) (r : PReg) {v w : Word} (hvw : w = v) : SameButStatus (s.pwr r v) (t.pwr r w) := by
  obtain ⟨_, _, _, ht, rfl⟩ := h
  subst hvw
  exact ⟨_, _, _, by simp [ht]; rfl, rfl⟩

/-- A read of any register but ISR takes the same answer in both runs. -/
theorem afterPrd (h : SameButStatus s t) {r : PReg} (hr : r ≠ .isr) : SameButStatus (s.afterPrd r) (t.afterPrd r) := by
  have hread := h.nextAnswer_eq hr
  obtain ⟨_, _, _, ht, rfl⟩ := h
  cases r with
  | isr => exact absurd rfl hr
  | _ => exact ⟨_, _, _, by simp [ht, hread]; rfl, rfl⟩

theorem setHostMem (h : SameButStatus s t) (m : List Host.Cell) : SameButStatus { s with hostMem := m } { t with hostMem := m } := by
  obtain ⟨_, _, _, ht, rfl⟩ := h
  exact ⟨_, _, _, ht, rfl⟩

theorem noteCall (h : SameButStatus s t) : SameButStatus s.noteCall t.noteCall := by
  obtain ⟨_, _, _, ht, rfl⟩ := h
  unfold State.noteCall
  cases s.port.agent <;> exact ⟨_, _, _, ht, rfl⟩

theorem endCall (h : SameButStatus s t) (n : Nat) : SameButStatus (s.endCall n) (t.endCall n) := by
  obtain ⟨_, _, _, ht, rfl⟩ := h
  exact ⟨_, _, _, ht, rfl⟩

theorem finishEvent (h : SameButStatus s t) : SameButStatus (finishEvent s) (finishEvent t) := by
  have hread : t.nextAnswer .cr1 = s.nextAnswer .cr1 := h.nextAnswer_eq (by decide)
  exact (((h.afterPrd (by decide)).pwr .cr1 (by rw [hread])).modifyH _).answer .ok

/-- The EVENT of `p`, whose callback body is done, ends in both runs. -/
theorem closeEvent (h : SameButStatus s t) (p : Port) (rest : List BodyRun) : SameButStatus (closeEvent p rest s) (closeEvent p rest t) := by
  have hrest : SameButStatus { s with port := p, calls := rest } { t with port := p, calls := rest } := by
    obtain ⟨_, _, _, ht, rfl⟩ := h
    exact ⟨_, _, _, ht, rfl⟩
  exact hrest.finishEvent

theorem beginBody (h : SameButStatus s t) (k : CbKind) : SameButStatus (s.beginBody k) (t.beginBody k) := by
  obtain ⟨_, _, _, ht, rfl⟩ := h
  exact ⟨_, _, _, by simp [ht]; rfl, rfl⟩

theorem notify (h : SameButStatus s t) (k : CbKind) : SameButStatus (notify k s) (notify k t) := by
  unfold Machine.notify
  rw [h.h_eq]
  split
  · exact h.beginBody k
  · exact h.finishEvent

theorem cpOffsetBranch (h : SameButStatus s t) : SameButStatus (cpOffsetBranch s) (cpOffsetBranch t) := by
  unfold Machine.cpOffsetBranch
  rw [h.h_eq]
  exact ((h.pwr .icr rfl).modifyH _).pwr .cr2 rfl

theorem cpDataBranch (h : SameButStatus s t) : SameButStatus (cpDataBranch s) (cpDataBranch t) := by
  unfold Machine.cpDataBranch
  rw [h.h_eq]
  split
  · exact (h.pwr .icr rfl).finishEvent
  · exact (h.pwr .icr rfl).notify _

theorem blkEnd (h : SameButStatus s t) (r : Result) : SameButStatus (s.blkEnd r) (t.blkEnd r) := by
  unfold State.blkEnd
  rw [h.port_eq]
  exact ((h.modifyH Handle.endPolling).endCall _).answer r

/-! ## Arming -/

theorem enableInts (h : SameButStatus s t) (m : Word) : SameButStatus (s.enableInts m) (t.enableInts m) :=
  (h.afterPrd (by decide)).pwr .cr1 (by rw [h.nextAnswer_eq (r := .cr1) (by decide)])

theorem arm (h : SameButStatus s t) (op : Operation) (dev : BitVec 7) (reg : Word) (w : BitVec 3) (buf : Word) (len : BitVec 8) :
    SameButStatus (s.arm op dev reg w buf len) (t.arm op dev reg w buf len) := by
  have hcleared := (h.modifyH (Handle.armed op dev reg w buf len)).pwr .icr (v := icrBOTH) rfl
  unfold State.arm
  dsimp only
  split
  · have henabled := hcleared.enableInts (ieMask op)
    exact henabled.pwr .cr2 (by rw [henabled.h_eq])
  · exact hcleared.pwr .cr2 (by rw [hcleared.h_eq])

theorem asyncStart (h : SameButStatus s t) (op : Operation) (dev : BitVec 7) (reg : Word) (w : BitVec 3) (buf : Word) (len : BitVec 8) :
    SameButStatus (s.asyncStart op dev reg w buf len) (t.asyncStart op dev reg w buf len) :=
  (h.arm ..).answer .ok

theorem blkStart (h : SameButStatus s t) (op : Operation) (dev : BitVec 7) (buf : Word) (len : BitVec 8) :
    SameButStatus (s.blkStart op dev buf len) (t.blkStart op dev buf len) :=
  ((h.arm ..).modifyH _).noteCall

end SameButStatus

/-! ## Outcomes that differ in the status word only -/

/-- Next states that differ in the status word only, or the same stop. -/
inductive SameOutcome : Out → Out → Prop where
  | next {s t : State} (h : SameButStatus s t) : SameOutcome (.next s) (.next t)
  | fault (f : Fault) : SameOutcome (.fault f) (.fault f)
  | refused (r : Refusal) : SameOutcome (.refused r) (.refused r)

namespace SameOutcome

variable {s t : State} {o p : Out}

theorem andThen (h : SameOutcome o p) {j k : State → Out}
    (hk : ∀ x y, o = .next x → SameButStatus x y → SameOutcome (j x) (k y)) : SameOutcome (andThen o j) (andThen p k) := by
  cases h with
  | next h => exact hk _ _ rfl h
  | fault f => exact .fault f
  | refused r => exact .refused r

theorem memRead (h : SameButStatus s t) (a : Word) {j k : Byte → State → Out}
    (hk : ∀ v x y, SameButStatus x y → SameOutcome (j v x) (k v y)) : SameOutcome (memRead a s j) (memRead a t k) := by
  unfold Machine.memRead
  rw [h.hostMem_eq]
  split
  · exact hk _ _ _ (h.log rfl)
  · exact .fault _

theorem memWrite (h : SameButStatus s t) (a : Word) (v : Byte) : SameOutcome (memWrite a v s) (memWrite a v t) := by
  unfold Machine.memWrite
  rw [h.hostMem_eq]
  split
  · exact .next ((h.setHostMem _).log rfl)
  · exact .fault _

/-! ## The dispatcher -/

theorem runBranch (h : SameButStatus s t) (b : Branch) : SameOutcome (runBranch b s) (runBranch b t) := by
  have hh := h.h_eq
  cases b with
  | nack => exact .next (((h.modifyH _).pwr .icr rfl).notify _)
  | rx =>
    have hread : t.nextAnswer .rxdr = s.nextAnswer .rxdr := h.nextAnswer_eq (by decide)
    simp only [Machine.runBranch, rxBranch, hh, hread]
    exact (memWrite (h.afterPrd (by decide)) _ _).andThen fun x y _ hxy => .next ((hxy.modifyH _).answer .ok)
  | tx =>
    simp only [Machine.runBranch, hh]
    split
    · exact .next (((h.pwr .txdr (by rw [hh])).modifyH _).answer .ok)
    · simp only [txDataBranch, hh]
      exact memRead h _ fun v x y hxy => .next (((hxy.pwr .txdr rfl).modifyH _).answer .ok)
  | cp =>
    simp only [Machine.runBranch, hh]
    split
    · exact .next (h.cpOffsetBranch.answer .ok)
    · exact .next h.cpDataBranch

theorem eventOn (h : SameButStatus s t) {v w : Word} (hf : SameFlags v w) : SameOutcome (eventOn v s) (eventOn w t) := by
  unfold Machine.eventOn
  rw [h.h_eq, hf.takenBranch]
  split
  · exact .next (h.answer .ok)
  · exact runBranch h _

/-! ## Polls -/

theorem pollByte (h : SameButStatus s t) : SameOutcome (pollByte s) (pollByte t) := by
  have hread : t.nextAnswer .rxdr = s.nextAnswer .rxdr := h.nextAnswer_eq (by decide)
  unfold Machine.pollByte
  rw [h.h_eq, hread]
  split
  · exact memRead h _ fun v x y hxy => .next ((hxy.pwr .txdr rfl).modifyH _)
  · exact (memWrite (h.afterPrd (by decide)) _ _).andThen fun x y _ hxy => .next (hxy.modifyH _)

theorem pollOn (h : SameButStatus s t) {v w : Word} (hf : SameFlags v w) : SameOutcome (pollOn v s) (pollOn w t) := by
  unfold Machine.pollOn
  rw [h.h_eq, h.params_eq, hf.nack, hf.readyFlag, hf.cp]
  split
  · exact .next (((h.pwr .icr rfl).modifyH _).blkEnd _)
  · split
    · exact pollByte h
    · split
      · exact .next ((h.pwr .icr rfl).blkEnd _)
      · split
        · exact .next ((h.modifyH _).blkEnd _)
        · exact .next (h.modifyH _)

end SameOutcome

/-! ## The read of ISR -/

/-- Two runs about to read status words of the same flags. -/
structure SameFlagsNext (s t : State) : Prop where
  before : SameButStatus s t
  after : SameButStatus (s.afterPrd .isr) (t.afterPrd .isr)
  flags : SameFlags (s.nextAnswer .isr) (t.nextAnswer .isr)

namespace SameFlagsNext

variable {s t : State}

/-- Each run has its own status word as the next answer of ISR, and the same answers after it. -/
theorem ofScript (s : State) {v w : Word} (l : List Word) (hf : SameFlags v w) :
    SameFlagsNext { s with script := { s.script with isr := v :: l } } { s with script := { s.script with isr := w :: l } } where
  before := ⟨_, _, _, rfl, rfl⟩
  after := ⟨_, _, _, by simp; rfl, rfl⟩
  flags := hf

theorem isBusy_eq (h : SameFlagsNext s t) : t.isBusy = s.isBusy := by
  unfold State.isBusy
  rw [h.before.h_eq, h.flags.busy]

theorem afterCheckIdle (h : SameFlagsNext s t) : SameButStatus s.afterCheckIdle t.afterCheckIdle := by
  unfold State.afterCheckIdle
  rw [h.before.h_eq]
  split
  · exact h.before
  · exact h.after

theorem transfer (h : SameFlagsNext s t) (ok : Bool) (buf : Word) (len : BitVec 8) {start : State → State}
    (hstart : ∀ x y, SameButStatus x y → SameButStatus (start x) (start y)) :
    SameOutcome (.next (transfer ok buf len start s)) (.next (transfer ok buf len start t)) := by
  unfold Machine.transfer
  rw [h.before.h_eq, h.isBusy_eq]
  split
  · exact .next (h.before.refuse _)
  · split
    · exact .next (h.before.refuse _)
    · split
      · exact .next (h.before.refuse _)
      · split
        · exact .next (h.afterCheckIdle.answer _)
        · exact .next (hstart _ _ h.afterCheckIdle)

theorem eventStep (h : SameFlagsNext s t) : SameOutcome (eventStep s) (eventStep t) := by
  unfold Machine.eventStep
  rw [h.before.h_eq, h.before.port_eq, h.before.inBody_eq, h.before.midEvent_eq]
  split
  · exact .next (h.before.refuse _)
  · split
    · exact .next (h.before.answer _)
    · exact SameOutcome.eventOn h.after h.flags

theorem execInit (h : SameFlagsNext s t) (periph : BitVec 8) : SameOutcome (execInit periph s) (execInit periph t) := by
  unfold Machine.execInit
  rw [h.before.h_eq]
  split
  · exact .next (h.before.refuse _)
  · exact .next ((h.before.modifyH _).answer _)

theorem execSetcb (h : SameFlagsNext s t) (k : CbKind) (inst en : Bool) (handler : Word) :
    SameOutcome (execSetcb k inst en handler s) (execSetcb k inst en handler t) := by
  unfold Machine.execSetcb
  rw [h.before.h_eq]
  split
  · exact .next (h.before.refuse _)
  · split
    · exact .next (h.before.refuse _)
    · exact .next ((h.before.modifyH _).answer _)

theorem execEvent (h : SameFlagsNext s t) (hc : s.calls = []) (hb : s.script.bodies = []) :
    SameOutcome (execEvent s) (execEvent t) := by
  refine h.eventStep.andThen fun x y hx hxy => ?_
  rcases eventStep_bodies hx with ⟨hcalls, _⟩ | ⟨hcalls, _⟩
  · have hx : x.calls = [] := hcalls.trans hc
    rw [State.runCallbacks_nil hx, State.runCallbacks_nil (hxy.calls_eq.trans hx)]
    exact .next hxy
  · have hx : x.calls = [{ port := s.port, body := [] }] := by rw [hcalls, hc, Script.nextBody_nil hb]
    rw [State.runCallbacks_empty hx, State.runCallbacks_empty (hxy.calls_eq.trans hx)]
    exact .next (hxy.closeEvent _ _)

theorem exec (h : SameFlagsNext s t) (hc : s.calls = []) (hb : s.script.bodies = []) (i : Instr) :
    SameOutcome (exec i s) (exec i t) := by
  cases i with
  | init p => exact h.execInit p
  | setcb k inst en hd => exact h.execSetcb k inst en hd
  | write d b l => exact h.transfer _ _ _ fun _ _ hxy => hxy.blkStart ..
  | read d b l => exact h.transfer _ _ _ fun _ _ hxy => hxy.blkStart ..
  | writea d b l => exact h.transfer _ _ _ fun _ _ hxy => hxy.asyncStart ..
  | reada d b l => exact h.transfer _ _ _ fun _ _ hxy => hxy.asyncStart ..
  | memwra d r w b l => exact h.transfer _ _ _ fun _ _ hxy => hxy.asyncStart ..
  | memrda d r w b l => exact h.transfer _ _ _ fun _ _ hxy => hxy.asyncStart ..
  | event => exact h.execEvent hc hb

theorem blkPoll (h : SameFlagsNext s t) : SameOutcome (blkPoll s) (blkPoll t) := by
  unfold Machine.blkPoll
  rw [h.before.h_eq]
  split
  · exact .next h.before
  · exact SameOutcome.pollOn h.after h.flags

end SameFlagsNext

/-- What the statement compares is the same in such outcomes. -/
theorem SameOutcome.observed {o p : Out} (h : SameOutcome o p) :
    (∀ t, o = .next t → ∃ u, p = .next u ∧ u.handles = t.handles ∧ u.hostMem = t.hostMem ∧ u.refusalMark = t.refusalMark
      ∧ u.fgCall = t.fgCall ∧ u.suspended = t.suspended ∧ u.calls = t.calls
      ∧ u.trace.map TraceItem.blindStatus = t.trace.map TraceItem.blindStatus)
    ∧ ∀ f, o = .fault f → p = .fault f := by
  cases h with
  | next h =>
    obtain ⟨_, _, _, ht, rfl⟩ := h
    exact ⟨fun t e => by cases e; exact ⟨_, rfl, rfl, rfl, rfl, rfl, rfl, rfl, ht⟩, nofun⟩
  | fault f => exact ⟨nofun, fun _ e => e⟩
  | refused r => exact ⟨nofun, nofun⟩

/-- Settles O60: a command and a poll read ISR at most once, branch on the five flags of the word, and from then on the two runs take the
same answers. -/
theorem onlyTheFiveFlagsMatter : Obligations.OnlyTheFiveFlagsMatter := by
  intro s v w l i htx hrx hnack hbusy hcp hc hb a b same
  have h : SameFlagsNext a b := .ofScript s l ⟨hnack, hrx, htx, hcp, hbusy⟩
  exact ⟨(h.exec hc hb i).observed, h.blkPoll.observed⟩

end Sys2Proof.Machine
end

section
/-! PROOFS. 30_encoding.md R72 to R76: the words of a command as numbers, the words the decoder answers, and the round trip in both
directions. -/

namespace Sys2Proof

/-! ## Words as numbers -/

theorem toNat_append_eq_add {m n : Nat} (x : BitVec m) (y : BitVec n) : (x ++ y).toNat = x.toNat * 2 ^ n + y.toNat := by
  rw [BitVec.toNat_append, ← Nat.shiftLeft_add_eq_or_of_lt y.isLt, Nat.shiftLeft_eq]

/-- A field of a word as arithmetic on it. -/
theorem toNat_field (w : Word) (lo n : Nat) : (w.extractLsb' lo n).toNat = w.toNat / 2 ^ lo % 2 ^ n := by
  rw [BitVec.extractLsb'_toNat, Nat.shiftRight_eq_div_pow]

/-- A word whose bits from `k` on are 0 is below `2 ^ k`. -/
theorem toNat_lt_two_pow_iff (w : Word) (k : Nat) : w.toNat < 2 ^ k ↔ ∀ i, k ≤ i → w.getLsbD i = false :=
  ⟨fun h _ hi => Nat.testBit_lt_two_pow (h.trans_le (Nat.pow_le_pow_right (by decide) hi)), Nat.lt_pow_two_of_testBit _⟩

/-- Word 0 of format N. -/
theorem initWord_toNat (periph : BitVec 8) :
    ((0 : BitVec 20) ++ periph ++ (0x0 : BitVec 4)).toNat = 0 + 2 ^ 4 * periph.toNat := by
  simp only [toNat_append_eq_add, BitVec.reduceToNat]
  omega

/-- Word 0 of format C. -/
theorem setcbWord_toNat (inst en : Bool) (kind : BitVec 3) :
    ((0 : BitVec 23) ++ BitVec.ofBool inst ++ BitVec.ofBool en ++ kind ++ (0x1 : BitVec 4)).toNat
      = 1 + 2 ^ 4 * kind.toNat + 2 ^ 7 * en.toNat + 2 ^ 8 * inst.toNat := by
  simp only [toNat_append_eq_add, BitVec.reduceToNat, BitVec.toNat_ofBool]
  omega

/-- Word 0 of formats T and M. -/
theorem transferWord_toNat (op : BitVec 4) (dev : BitVec 7) (rw : BitVec 3) (len : BitVec 8) :
    (transferWord op dev rw len).toNat = op.toNat + 2 ^ 4 * dev.toNat + 2 ^ 11 * rw.toNat + 2 ^ 14 * len.toNat := by
  simp only [transferWord, toNat_append_eq_add, BitVec.reduceToNat]
  omega

/-! ## The bits named 0 (R72, R75 points 1 and 2) -/

theorem and_eq_zero_iff (w m : Word) : w &&& m = 0 ↔ ∀ i, i < 32 → m.getLsbD i = true → w.getLsbD i = false := by
  constructor
  · intro h i _ hm
    simpa [hm] using congrArg (·.getLsbD i) h
  · intro h
    apply BitVec.eq_of_getLsbD_eq
    intro i hi
    have hw := h i hi
    rw [BitVec.getLsbD_and]
    cases hm : m.getLsbD i
    · simp
    · simp [hw hm]

/-- A mask of the bits from `k` on. -/
theorem and_highMask_eq_zero_iff (w m : Word) (k : Nat) (hm : ∀ i, i < 32 → m.getLsbD i = decide (k ≤ i)) :
    w &&& m = 0 ↔ w.toNat < 2 ^ k := by
  rw [and_eq_zero_iff, toNat_lt_two_pow_iff]
  constructor
  · intro h i hk
    by_cases hi : i < 32
    · exact h i hi (by simp [hm i hi, hk])
    · exact BitVec.getLsbD_of_ge w i (by omega)
  · intro h i hi hk
    exact h i (by simpa [hm i hi] using hk)

/-- The mask of the RW field, which format T names 0. -/
theorem and_widthMask_eq_zero_iff (w : Word) : w &&& 0x3800 = 0 ↔ rwField w = 0 := by
  have mask : ∀ i, i < 32 → (0x3800 : Word).getLsbD i = decide (11 ≤ i ∧ i < 14) := by decide
  rw [and_eq_zero_iff]
  constructor
  · intro h
    refine extractLsb'_eq_of_bits w 11 0 fun i hi => ?_
    rw [h (11 + i) (by omega) (by rw [mask _ (by omega)]; exact decide_eq_true ⟨by omega, by omega⟩)]
    exact BitVec.getLsbD_zero.symm
  · intro h i hi hm
    rw [mask i hi, decide_eq_true_eq] at hm
    have hb : (rwField w).getLsbD (i - 11) = false := by rw [h]; simp
    rw [rwField, BitVec.getLsbD_extractLsb', show 11 + (i - 11) = i by omega] at hb
    simpa [show i - 11 < 3 by omega] using hb

theorem and_maskT_eq_zero_iff (w : Word) : w &&& 0xFFC03800 = 0 ↔ w.toNat < 2 ^ 22 ∧ rwField w = 0 := by
  rw [show (0xFFC03800 : Word) = 0xFFC00000 ||| 0x3800 from rfl, BitVec.and_or_distrib_left, ← and_widthMask_eq_zero_iff,
    ← and_highMask_eq_zero_iff w 0xFFC00000 22 (by decide)]
  exact BitVec.or_eq_zero_iff

/-- R75 point 2 by opcode, as bounds on the word. -/
theorem and_reservedMask_eq_zero_iff (w : Word) (op : BitVec 4) :
    w &&& reservedMask op = 0 ↔ (op.toNat = 0 → w.toNat < 2 ^ 12) ∧ (op.toNat = 1 → w.toNat < 2 ^ 9)
      ∧ (2 ≤ op.toNat ∧ op.toNat ≤ 5 → w.toNat < 2 ^ 22 ∧ rwField w = 0) ∧ (6 ≤ op.toNat ∧ op.toNat ≤ 7 → w.toNat < 2 ^ 22)
      ∧ (op.toNat = 8 → w.toNat < 2 ^ 4) := by
  unfold reservedMask
  split
  case h_1 h => simpa [h] using and_highMask_eq_zero_iff w 0xFFFFF000 12 (by decide)
  case h_2 h => simpa [h] using and_highMask_eq_zero_iff w 0xFFFFFE00 9 (by decide)
  case h_3 h | h_4 h | h_5 h | h_6 h => simpa [h] using and_maskT_eq_zero_iff w
  case h_7 h | h_8 h => simpa [h] using and_highMask_eq_zero_iff w 0xFFC00000 22 (by decide)
  case h_9 h => simpa [h] using and_highMask_eq_zero_iff w 0xFFFFFFF0 4 (by decide)
  case h_10 h0 h1 h2 h3 h4 h5 h6 h7 h8 =>
    simp only [imp_false] at h0 h1 h2 h3 h4 h5 h6 h7 h8
    exact iff_of_true BitVec.and_zero (by omega)

/-! ## The fields of word 0 -/

theorem enField_toNat (w : Word) : (enField w).toNat = w.toNat / 2 ^ 7 % 2 := Nat.toNat_testBit ..

theorem instField_toNat (w : Word) : (instField w).toNat = w.toNat / 2 ^ 8 % 2 := Nat.toNat_testBit ..

/-- Word 0 of format N is laid out from its fields. -/
theorem initWord_of_op {w : Word} (hop : (opField w).toNat = 0) (h : w.toNat < 2 ^ 12) :
    (0 : BitVec 20) ++ periphField w ++ (0x0 : BitVec 4) = w := by
  apply BitVec.eq_of_toNat_eq
  rw [opField, toNat_field] at hop
  rw [initWord_toNat, periphField, toNat_field]
  omega

/-- Word 0 of format C is laid out from its fields. -/
theorem setcbWord_of_op {w : Word} {k : CbKind} (hop : (opField w).toNat = 1) (h : w.toNat < 2 ^ 9)
    (hk : kindOfCode (kindField w) = some k) :
    (0 : BitVec 23) ++ BitVec.ofBool (instField w) ++ BitVec.ofBool (enField w) ++ k.code ++ (0x1 : BitVec 4) = w := by
  apply BitVec.eq_of_toNat_eq
  rw [opField, toNat_field] at hop
  rw [setcbWord_toNat, code_of_kindOfCode hk, kindField, toNat_field, enField_toNat, instField_toNat]
  omega

/-- Word 0 of formats T and M is laid out from its fields. -/
theorem transferWord_of_op {w : Word} {op : BitVec 4} (hop : (opField w).toNat = op.toNat) (h : w.toNat < 2 ^ 22) :
    transferWord op (devField w) (rwField w) (lenField w) = w := by
  rw [← BitVec.eq_of_toNat_eq hop]
  exact transferWord_fields w ((toNat_lt_two_pow_iff w 22).1 h)

/-- Word 0 of format E is its opcode. -/
theorem eventWord_of_op {w : Word} (hop : (opField w).toNat = 8) (h : w.toNat < 2 ^ 4) : w = 0x00000008 := by
  apply BitVec.eq_of_toNat_eq
  rw [opField, toNat_field] at hop
  show w.toNat = 8
  omega

/-- The operand of an encoded word of format N. -/
theorem initWord_operands (periph : BitVec 8) :
    let w : Word := (0 : BitVec 20) ++ periph ++ (0x0 : BitVec 4)
    opField w = 0 ∧ periphField w = periph := by
  revert periph
  decide

/-- The operands of an encoded word of format C. -/
theorem setcbWord_operands (kind : CbKind) (inst en : Bool) :
    let w : Word := (0 : BitVec 23) ++ BitVec.ofBool inst ++ BitVec.ofBool en ++ kind.code ++ (0x1 : BitVec 4)
    kindField w = kind.code ∧ instField w = inst ∧ enField w = en := by
  cases kind <;> cases inst <;> cases en <;> decide

/-! ## Fields and words -/

/-- Only the words of the command's format are looked at (R76). -/
theorem decodeFields_congr {w0 a b c d : Word}
    (h : [w0, a, b].take (commandLength (opField w0)) = [w0, c, d].take (commandLength (opField w0))) :
    decodeFields w0 a b = decodeFields w0 c d := by
  unfold decodeFields
  split
  case h_1 | h_9 | h_10 => rfl
  case h_2 hop | h_3 hop | h_4 hop | h_5 hop | h_6 hop =>
    have hac : a = c := by simpa [commandLength, hop] using h
    rw [hac]
  case h_7 hop | h_8 hop =>
    have hacd : a = c ∧ b = d := by simpa [commandLength, hop] using h
    rw [hacd.1, hacd.2]

/-- A command read from fields spells exactly the words it was read from, where the bits named 0 are clear. -/
theorem encode_of_decodeFields {w0 w1 w2 : Word} {i : Instr} (hmask : w0 &&& reservedMask (opField w0) = 0)
    (h : decodeFields w0 w1 w2 = .ok i) : encode i = [w0, w1, w2].take (commandLength (opField w0)) := by
  obtain ⟨hN, hC, hT, hM, hE⟩ := (and_reservedMask_eq_zero_iff w0 _).1 hmask
  have formatT {op : BitVec 4} (hop : (opField w0).toNat = op.toNat) (h2 : 2 ≤ op.toNat) (h5 : op.toNat ≤ 5) :
      transferWord op (devField w0) 0 (lenField w0) = w0 := by
    obtain ⟨hlt, hrw⟩ := hT (by omega)
    rw [← hrw]
    exact transferWord_of_op hop hlt
  unfold decodeFields at h
  split at h <;> rename_i hop
  case h_2 =>
    split at h
    · rename_i k hk
      cases h
      simp only [commandLength, hop]
      exact congrArg ([·, w1]) (setcbWord_of_op hop (hC hop) hk)
    · cases h
  all_goals cases h
  all_goals simp only [commandLength, hop]
  case h_1 => exact congrArg ([·]) (initWord_of_op hop (hN hop))
  case h_3 | h_4 | h_5 | h_6 => exact congrArg ([·, w1]) (formatT hop (by decide) (by decide))
  case h_7 | h_8 => exact congrArg ([·, w1, w2]) (transferWord_of_op hop (hM (by omega)))
  case h_9 => exact congrArg ([·]) (eventWord_of_op hop (hE hop)).symm

/-- The words of a command, the missing ones as 0, have its operands in their fields. -/
theorem decodeFields_encode (i : Instr) :
    decodeFields (wordsOf (encode i)).1 (wordsOf (encode i)).2.1 (wordsOf (encode i)).2.2 = .ok i := by
  cases i with
  | init periph =>
    obtain ⟨hop, hperiph⟩ := initWord_operands periph
    simp only [encode, wordsOf, decodeFields, hop, hperiph]
    simp
  | setcb kind inst en handler =>
    obtain ⟨hkind, hinst, hen⟩ := setcbWord_operands kind inst en
    simp only [encode, wordsOf, decodeFields, hkind, hinst, hen, (Laws.EncodingShape.setcbWord kind inst en).1]
    simp
  | write dev buf len => simp [encode, wordsOf, decodeFields]
  | read dev buf len => simp [encode, wordsOf, decodeFields]
  | writea dev buf len => simp [encode, wordsOf, decodeFields]
  | reada dev buf len => simp [encode, wordsOf, decodeFields]
  | memwra dev reg rw buf len => simp [encode, wordsOf, decodeFields]
  | memrda dev reg rw buf len => simp [encode, wordsOf, decodeFields]
  | event => rfl

/-! ## What the decoder answers -/

theorem decodeFields_opcode_le {w0 w1 w2 : Word} {i : Instr} (h : decodeFields w0 w1 w2 = .ok i) : (opField w0).toNat ≤ 8 := by
  unfold decodeFields at h
  split at h
  case h_10 => cases h
  all_goals omega

theorem checkOperands_eq_ok_iff {i j : Instr} : checkOperands i = .ok j ↔ i.wellFormed = true ∧ i = j := by
  unfold checkOperands
  split <;> simp_all

theorem commandLength_bounds (op : BitVec 4) : 1 ≤ commandLength op ∧ commandLength op ≤ 3 := by
  unfold commandLength
  split <;> decide

/-- The words a command takes are those at the front of the list. -/
theorem take_wordsOf {ws : List Word} {n : Nat} (hn : n ≤ 3) (h : n ≤ ws.length) :
    [(wordsOf ws).1, (wordsOf ws).2.1, (wordsOf ws).2.2].take n = ws.take n := by
  match ws with
  | [] => rw [Nat.le_zero.1 h]; rfl
  | [a] => rw [List.length_singleton] at h; interval_cases n <;> rfl
  | [a, b] => rw [List.length_cons, List.length_singleton] at h; interval_cases n <;> rfl
  | a :: b :: c :: t => interval_cases n <;> rfl

theorem wordsOf_cons_fst (w : Word) (t : List Word) : (wordsOf (w :: t)).1 = w := by
  match t with
  | [] => rfl
  | [_] => rfl
  | _ :: _ :: _ => rfl

theorem ite_error_eq_ok_iff {ε α : Type} {c : Prop} [Decidable c] {e : ε} {x : Except ε α} {a : α} :
    (if c then .error e else x) = .ok a ↔ ¬ c ∧ x = .ok a := by
  split <;> simp [*]

theorem decode_cons_eq_ok_iff {w0 : Word} {t rest : List Word} {i : Instr} :
    decode (w0 :: t) = .ok (i, rest) ↔
      w0 &&& reservedMask (opField w0) = 0 ∧ (opField w0).toNat ≤ 8 ∧ commandLength (opField w0) ≤ (w0 :: t).length
        ∧ decodeFields w0 (wordsOf (w0 :: t)).2.1 (wordsOf (w0 :: t)).2.2 = .ok i ∧ i.wellFormed = true
        ∧ (w0 :: t).drop (commandLength (opField w0)) = rest := by
  simp only [decode, ite_error_eq_ok_iff, bne_iff_ne, ne_eq, not_not, Nat.not_lt]
  refine and_congr_right fun _ => and_congr_right fun _ => and_congr_right fun _ => ?_
  constructor
  · intro h
    split at h
    · cases h
    · rename_i hf
      split at h
      · cases h
      · rename_i hcheck
        obtain ⟨hwf, rfl⟩ := checkOperands_eq_ok_iff.1 hcheck
        cases h
        exact ⟨hf, hwf, rfl⟩
  · rintro ⟨hf, hwf, rfl⟩
    simp [hf, checkOperands_eq_ok_iff.2 ⟨hwf, rfl⟩]

/-- The decoder answers a command where its words are at the front of the list, the bits named 0 clear, and the fields read from them
spell it (R73 to R76). -/
theorem decode_eq_ok_iff {ws rest : List Word} {i : Instr} :
    decode ws = .ok (i, rest) ↔
      ∃ w0 w1 w2, ws = [w0, w1, w2].take (commandLength (opField w0)) ++ rest ∧ w0 &&& reservedMask (opField w0) = 0
        ∧ decodeFields w0 w1 w2 = .ok i ∧ i.wellFormed = true := by
  constructor
  · intro h
    match ws with
    | [] => cases h
    | w0 :: t =>
      obtain ⟨hmask, -, hlen, hf, hwf, rfl⟩ := decode_cons_eq_ok_iff.1 h
      refine ⟨w0, _, _, ?_, hmask, hf, hwf⟩
      have hw := take_wordsOf (commandLength_bounds (opField w0)).2 hlen
      rw [wordsOf_cons_fst] at hw
      rw [hw, List.take_append_drop]
  · rintro ⟨w0, w1, w2, rfl, hmask, hf, hwf⟩
    obtain ⟨hpos, hle⟩ := commandLength_bounds (opField w0)
    obtain ⟨m, hm⟩ : ∃ m, commandLength (opField w0) = m + 1 := ⟨_, (Nat.sub_add_cancel hpos).symm⟩
    rw [hm, List.take_succ_cons, List.cons_append, decode_cons_eq_ok_iff, hm]
    have hlen : (([w1, w2].take m).length) = m := List.length_take_of_le (by simp; omega)
    refine ⟨hmask, decodeFields_opcode_le hf, by simp; omega, ?_, hwf, by simp [hlen]⟩
    rw [← hf]
    apply decodeFields_congr
    have hw := take_wordsOf (ws := w0 :: ([w1, w2].take m ++ rest)) hle (by simp [hm]; omega)
    rw [wordsOf_cons_fst] at hw
    rw [hw, hm]
    simp [hlen]

/-! ## The round trip -/

/-- Every command has the shape of R71, R72 and R76. -/
theorem encodingShape (i : Instr) : Laws.EncodingShape.Statement i := by
  cases i with
  | init periph => exact Laws.EncodingShape.init periph
  | setcb kind inst en handler => exact Laws.EncodingShape.setcb kind inst en handler
  | write dev buf len => exact Laws.EncodingShape.write dev buf len
  | read dev buf len => exact Laws.EncodingShape.read dev buf len
  | writea dev buf len => exact Laws.EncodingShape.writea dev buf len
  | reada dev buf len => exact Laws.EncodingShape.reada dev buf len
  | memwra dev reg rw buf len => exact Laws.EncodingShape.memwra dev reg rw buf len
  | memrda dev reg rw buf len => exact Laws.EncodingShape.memrda dev reg rw buf len
  | event => exact Laws.EncodingShape.event

/-- Settles O1: the shape of the encoded words meets what the decoder asks of them, and their fields are the operands. -/
theorem decodeOfEncode : Obligations.DecodeOfEncode := by
  intro i rest hwf
  obtain ⟨hlen, w, hhead, hop, hmask⟩ := encodingShape i
  obtain ⟨t, ht⟩ : ∃ t, encode i = w :: t := List.head?_eq_some_iff.1 hhead
  have hw := take_wordsOf (commandLength_bounds i.opcode).2 hlen.ge
  have hf := decodeFields_encode i
  have hw0 : (wordsOf (encode i)).1 = w := by rw [ht, wordsOf_cons_fst]
  rw [hw0] at hw hf
  refine decode_eq_ok_iff.2 ⟨w, _, _, ?_, hop ▸ hmask, hf, hwf⟩
  rw [hop, hw, ← hlen, List.take_length]

/-- Settles O2: the fields a command is read from, with the bits named 0 clear, lay out its words again. -/
theorem decodedWordsAreItsEncoding : Obligations.DecodedWordsAreItsEncoding := by
  intro ws rest i h
  obtain ⟨w0, w1, w2, rfl, hmask, hf, hwf⟩ := decode_eq_ok_iff.1 h
  exact ⟨by rw [encode_of_decodeFields hmask hf], hwf⟩

/-! ## Commands delivered whole (R70) -/

theorem decodeCommand_eq_ok_iff {ws : List Word} {i : Instr} : decodeCommand ws = .ok i ↔ decode ws = .ok (i, []) := by
  unfold decodeCommand
  split <;> simp_all

theorem decodeCommand_encode {i : Instr} (h : i.wellFormed = true) : decodeCommand (encode i) = .ok i := by
  rw [decodeCommand_eq_ok_iff, ← List.append_nil (encode i)]
  exact decodeOfEncode i [] h

/-- Settles O4: each list of words is the encoding of the command beside it. -/
theorem encodingVectorsDecode : Obligations.EncodingVectorsDecode :=
  ⟨decodeCommand_encode (i := .init 0xFF) rfl, decodeCommand_encode (i := .setcb .memoryReadComplete true true 0x08000123) rfl,
    decodeCommand_encode (i := .setcb .readComplete true false 0x1000) rfl, decodeCommand_encode (i := .write 0x5F 0x20000000 2) rfl,
    decodeCommand_encode (i := .read 0x5F 0x20000100 4) rfl, decodeCommand_encode (i := .writea 0x7F 0x20000000 255) rfl,
    decodeCommand_encode (i := .reada 0x5F 0x20000100 4) rfl, decodeCommand_encode (i := .memwra 0x5F 0x1234 2 0x20000200 2) rfl,
    decodeCommand_encode (i := .memrda 0x50 0x11223344 3 0x20000100 1) rfl, decodeCommand_encode (i := .event) rfl⟩

/-- Words of the right number (R76) spell a command where the bits named 0 are clear and the fields spell a well-formed one. -/
theorem decodeCommand_take_eq_ok_iff {w0 w1 w2 : Word} {i : Instr} :
    decodeCommand ([w0, w1, w2].take (commandLength (opField w0))) = .ok i ↔
      w0 &&& reservedMask (opField w0) = 0 ∧ decodeFields w0 w1 w2 = .ok i ∧ i.wellFormed = true := by
  rw [decodeCommand_eq_ok_iff, decode_eq_ok_iff]
  constructor
  · rintro ⟨v0, v1, v2, hws, hmask, hf, hwf⟩
    rw [List.append_nil] at hws
    have h0 : w0 = v0 := by
      have hhead := congrArg List.head? hws
      simpa [List.head?_take, Nat.ne_of_gt (commandLength_bounds _).1] using hhead
    subst h0
    exact ⟨hmask, (decodeFields_congr hws).trans hf, hwf⟩
  · rintro ⟨hmask, hf, hwf⟩
    exact ⟨w0, w1, w2, (List.append_nil _).symm, hmask, hf, hwf⟩

end Sys2Proof
end

section
/-! PROOFS. 30_encoding.md R75, 60_exceptions.md R203: which words spell no command, as arithmetic on them, and what delivering such words
does. -/

namespace Sys2Proof

/-! ## The checks on operands as arithmetic -/

theorem lenOk_iff {len : BitVec 8} : lenOk len = true ↔ len.toNat ≠ 0 := by
  rw [lenOk, bne_iff_ne, ne_eq, ← BitVec.toNat_inj]
  rfl

theorem widthOk_iff {rw : BitVec 3} : widthOk rw = true ↔ 1 ≤ rw.toNat ∧ rw.toNat ≤ 4 := by
  simp [widthOk]

theorem removalOk_iff {inst en : Bool} {handler : Word} :
    removalOk inst en handler = true ↔ inst.toNat = 1 ∨ (en.toNat = 0 ∧ handler.toNat = 0) := by
  have h0 : handler = 0#32 ↔ handler.toNat = 0 := BitVec.toNat_inj.symm
  cases inst <;> cases en <;> simp [removalOk, h0]

theorem exists_kindOfCode_iff {k : BitVec 3} : (∃ c, kindOfCode k = some c) ↔ k.toNat < 5 := by
  unfold kindOfCode
  split
  case h_6 h0 h1 h2 h3 h4 =>
    simp only [imp_false] at h0 h1 h2 h3 h4
    exact iff_of_false (by simp) (by omega)
  all_goals simp [*]

/-- Points 1, 3, 4 and 5 of R75 on the fields of word 0 and on word 1. -/
theorem exists_decodeFields_iff {w0 w1 w2 : Word} :
    (∃ i, decodeFields w0 w1 w2 = .ok i ∧ i.wellFormed = true) ↔
      (opField w0).toNat ≤ 8
        ∧ ((opField w0).toNat = 1 → (kindField w0).toNat < 5
          ∧ ((instField w0).toNat = 1 ∨ ((enField w0).toNat = 0 ∧ w1.toNat = 0)))
        ∧ (2 ≤ (opField w0).toNat ∧ (opField w0).toNat ≤ 7 → (lenField w0).toNat ≠ 0)
        ∧ (6 ≤ (opField w0).toNat ∧ (opField w0).toNat ≤ 7 → 1 ≤ (rwField w0).toNat ∧ (rwField w0).toNat ≤ 4) := by
  unfold decodeFields
  split <;> rename_i hop
  case h_2 =>
    rw [← exists_kindOfCode_iff]
    cases hk : kindOfCode (kindField w0) <;> simp [hop, Instr.wellFormed, removalOk_iff]
  case h_1 | h_9 => simp [hop, Instr.wellFormed]
  case h_3 | h_4 | h_5 | h_6 => simp [hop, Instr.wellFormed, lenOk_iff]
  case h_7 | h_8 => simp [hop, Instr.wellFormed, lenOk_iff, widthOk_iff, and_comm]
  case h_10 h0 h1 h2 h3 h4 h5 h6 h7 =>
    simp only [imp_false] at h0 h1 h2 h3 h4 h5 h6 h7 hop
    exact iff_of_false (by simp) (by omega)

end Sys2Proof

namespace Sys2Proof.Machine

/-- Words of the right number spell a command where none of the points of R75 holds of them. -/
theorem exists_decodeCommand_take_iff (w0 w1 w2 : Word) :
    (∃ i, decodeCommand ([w0, w1, w2].take (commandLength (opField w0))) = .ok i) ↔ ¬ spellsNoCommand w0 w1 := by
  have hw1 : w1 = 0 ↔ w1.toNat = 0 := BitVec.toNat_inj.symm
  have hrw : rwField w0 = 0 ↔ (rwField w0).toNat = 0 := BitVec.toNat_inj.symm
  have hlt (k : Nat) : w0.toNat < 2 ^ k ↔ w0.toNat / 2 ^ k = 0 := (Nat.div_eq_zero_iff_lt (Nat.two_pow_pos k)).symm
  simp only [decodeCommand_take_eq_ok_iff, exists_and_left, exists_decodeFields_iff, and_reservedMask_eq_zero_iff, hrw, hlt]
  simp only [opField, kindField, rwField, lenField, toNat_field, instField_toNat, enField_toNat, spellsNoCommand, ne_eq, hw1,
    Nat.pow_zero, Nat.div_one]
  generalize w0.toNat % 16 = op
  have format : op = 0 ∨ op = 1 ∨ (2 ≤ op ∧ op ≤ 5) ∨ (6 ≤ op ∧ op ≤ 7) ∨ op = 8 ∨ 9 ≤ op := by omega
  rcases format with h | h | h | h | h | h <;> simp [h] <;> omega

theorem deliver_decoded {s : State} {a : Agent} {n : Nat} {ws : List Word} {i : Instr} (hn : n < s.params.nInst)
    (h : decodeCommand ws = .ok i) : deliver a n ws s = exec i { s with port := ⟨n, a⟩ } := by
  simp [deliver, hn, h]

/-- Words that spell no command are refused, and nothing else happens (R203). -/
theorem deliver_refused {s : State} {a : Agent} {n : Nat} {ws : List Word} (hn : n < s.params.nInst)
    (h : ¬ ∃ i, decodeCommand ws = .ok i) :
    deliver a n ws s = .next (({ s with port := ⟨n, a⟩ } : State).refuse .reservedEncoding) := by
  cases hd : decodeCommand ws with
  | ok i => exact absurd ⟨i, hd⟩ h
  | error e => simp [deliver, hn, hd]

/-- Settles O3: the five points are what the mask of R72 and the checks on the fields leave out. -/
theorem reservedWordsAreRefused : Obligations.ReservedWordsAreRefused := by
  intro w0 w1 w2 ws
  have hspell := exists_decodeCommand_take_iff w0 w1 w2
  refine ⟨hspell, fun a n s hno hn => ?_⟩
  exact deliver_refused hn fun h => hspell.1 h hno

end Sys2Proof.Machine
end

section
/-! PROOFS. 30_encoding.md R70: a command first in the inbox is carried out. -/

namespace Sys2Proof.Machine

theorem offer_taken {s : State} {a : Agent} {n : Nat} {ws : List Word} {rest : List Input} (h : s.midEvent n = false) :
    offer a n ws rest s = deliver a n ws { s with inbox := rest } := by
  simp [offer, h]

/-- Settles O46: the entry is offered, taken, decoded and carried out. -/
theorem stepRunsDecodedCommand : Obligations.StepRunsDecodedCommand := by
  intro s n ws rest i hn hd hmid
  have taken (a : Agent) : offer a n ws rest s = exec i { s with inbox := rest, port := ⟨n, a⟩ } :=
    (offer_taken hmid).trans (deliver_decoded hn hd)
  exact ⟨fun hi hf => (step_of_foreground_free hi hf).trans (taken _), fun hi => (step_of_interrupt hi).trans (taken _)⟩

end Sys2Proof.Machine
end

section
/-! PROOFS. 30_encoding.md R79 to R83: the codes of the enumerations at the host's read port. -/

namespace Sys2Proof.Machine

/-- Settles O6: the read port shows the codes. -/
theorem enumerationCodesAtReadPort : Obligations.EnumerationCodesAtReadPort := by
  intro s n h
  refine ⟨?_, ?_, ?_, ?_, ?_⟩
  · show h.state.code.toNat = _
    cases h.state <;> rfl
  · show h.operation.code.toNat = _
    cases h.operation <;> rfl
  · show h.error.code.toNat = _
    cases h.error <;> rfl
  · show h.blkStage.code.toNat = _
    cases h.blkStage <;> rfl
  · intro k
    cases k <;> rfl

end Sys2Proof.Machine
end

section
/-! PROOFS. 30_encoding.md R85, 40_framing.md R100: the bits of the control word of a phase. -/

namespace Sys2Proof.Machine

/-- A field shifted to bit `k` shows there. -/
theorem shiftedField_inside {n : Nat} (x : BitVec n) {k b : Nat} (hb : b < 32) (hk : k ≤ b ∧ b < k + n) :
    (x.zeroExtend 32 <<< k).getLsbD b = x.getLsbD (b - k) := by
  rw [BitVec.getLsbD_shiftLeft, BitVec.getLsbD_setWidth]
  simp [hb, hk.1, show b - k < 32 by omega]

/-- It leaves every other bit 0. -/
theorem shiftedField_outside {n : Nat} (x : BitVec n) {k b : Nat} (h : b < k ∨ k + n ≤ b) :
    (x.zeroExtend 32 <<< k).getLsbD b = false := by
  rw [BitVec.getLsbD_shiftLeft, BitVec.getLsbD_setWidth]
  rcases h with h | h
  · simp [h]
  · simp [BitVec.getLsbD_of_ge x (b - k) (by omega)]

/-- The control word as fields, each shifted to its place (R85). -/
theorem frame_eq_fields (dev : BitVec 7) (n : BitVec 8) (dir : Dir) (mode : FrameMode) :
    frame dev n dir mode = (dev.zeroExtend 32 <<< 1) ||| ((BitVec.ofBool (decide (dir = .read))).zeroExtend 32 <<< 10)
      ||| ((BitVec.ofBool true).zeroExtend 32 <<< 13) ||| (n.zeroExtend 32 <<< 16)
      ||| ((BitVec.ofBool (decide (mode = .hold))).zeroExtend 32 <<< 24)
      ||| ((BitVec.ofBool (decide (mode = .autoEnd))).zeroExtend 32 <<< 25) := by
  cases dir <;> cases mode <;> rfl

/-- Settles O7: a bit lies in one field of the control word, or in none. -/
theorem controlWordBits : Obligations.ControlWordBits := by
  intro dev n dir mode b hb
  rw [frame_eq_fields]
  simp only [BitVec.getLsbD_or]
  split_ifs with hdev hdir hstart hn hreload hautoend
  all_goals simp (disch := omega) only [shiftedField_inside, shiftedField_outside, Bool.or_false, Bool.false_or]
  all_goals
    subst b
    exact BitVec.getLsbD_ofBool ..

end Sys2Proof.Machine
end

section
/-! PROOFS. 30_encoding.md R91: the numbers the assembler reads, and a line with a comment. -/

namespace Sys2Proof.Machine

/-! ## Digits and numbers -/

theorem asmDigit_digitChar {d : Nat} (h : d < 16) : asmDigit d.digitChar = some d := by
  interval_cases d <;> rfl

/-- Digits after a value are read one by one. -/
theorem asmDigits_append (b acc : Nat) (l : List Char) (c : Char) :
    asmDigits b acc (l ++ [c]) = (asmDigits b acc l).bind fun v => asmDigits b v [c] := by
  induction l generalizing acc with
  | nil => rfl
  | cons x t ih =>
    simp only [List.cons_append, asmDigits]
    split
    · split
      · exact ih _
      · rfl
    · rfl

/-- The digits of a number read as it, in every base whose digits the assembler knows. -/
theorem asmDigits_toDigits {b : Nat} (hb : 1 < b) (hb16 : b ≤ 16) (n : Nat) : asmDigits b 0 (Nat.toDigits b n) = some n := by
  have last (v : Nat) {d : Nat} (hd : d < b) : asmDigits b v [d.digitChar] = some (v * b + d) := by
    simp [asmDigits, asmDigit_digitChar (hd.trans_le hb16), hd]
  induction n using Nat.strongRecOn with
  | ind n ih =>
    by_cases hn : n < b
    · rw [Nat.toDigits_of_lt_base hn, last 0 hn, Nat.zero_mul, Nat.zero_add]
    · have hdiv : n / b < n := Nat.div_lt_self (by omega) hb
      rw [Nat.toDigits_of_base_le hb (Nat.not_lt.1 hn), asmDigits_append, ih _ hdiv, Option.bind_some,
        last _ (Nat.mod_lt n (by omega)), Nat.mul_comm, Nat.div_add_mod]

/-- Decimal digits are not taken for hexadecimal ones: `x` is no digit. -/
theorem asmNumber_decimal {l : List Char} {n : Nat} (hl : l ≠ []) (h : asmDigits 10 0 l = some n) : asmNumber l = some n := by
  unfold asmNumber
  split
  · exact absurd rfl hl
  · simp [asmDigits, asmDigit] at h
  · exact h

theorem asmNumber_hexadecimal {l : List Char} {n : Nat} (hl : l ≠ []) (h : asmDigits 16 0 l = some n) :
    asmNumber ('0' :: 'x' :: l) = some n := by
  obtain ⟨d, t, rfl⟩ := List.exists_cons_of_ne_nil hl
  exact h

theorem asmNumber_toDigits (n : Nat) :
    asmNumber (Nat.toDigits 10 n) = some n ∧ asmNumber ('0' :: 'x' :: Nat.toDigits 16 n) = some n :=
  ⟨asmNumber_decimal Nat.toDigits_ne_nil (asmDigits_toDigits (by decide) (by decide) n),
    asmNumber_hexadecimal Nat.toDigits_ne_nil (asmDigits_toDigits (by decide) (by decide) n)⟩

/-! ## Comments -/

theorem asmCode_append_comment (line comment : List Char) : asmCode (line ++ ';' :: comment) = asmCode line := by
  unfold asmCode
  rw [List.takeWhile_append]
  split
  · rename_i h
    rw [List.takeWhile_cons_of_neg (by simp), List.append_nil]
    exact ((List.takeWhile_prefix _).eq_of_length h).symm
  · rfl

theorem assembleLine_append_comment (line comment : List Char) : assembleLine (line ++ ';' :: comment) = assembleLine line := by
  rw [assembleLine, assembleLine, asmCode_append_comment]

end Sys2Proof.Machine
end

section
/-! PROOFS. 30_encoding.md R91, R92: what the assembler makes of operands, and of the line of each mnemonic. -/

namespace Sys2Proof.Machine

/-! ## What a reading answers -/

/-- A reading answers a value with the property `good` where its text is `right`, and is refused where it is not. -/
def Reads {α : Type} (r : Except AsmError α) (right : Prop) (good : α → Prop) : Prop :=
  (right → ∃ a, r = .ok a ∧ good a) ∧ (¬ right → ∃ e, r = .error e)

namespace Reads
variable {α β : Type} {r : Except AsmError α} {p q : Prop} {good : α → Prop}

theorem ok {a : α} (h : good a) : Reads (.ok a) True good := ⟨fun _ => ⟨a, rfl, h⟩, fun h => absurd trivial h⟩

/-- One reading after another: both texts have to be right. -/
theorem bind {f : α → Except AsmError β} {next : β → Prop} (h : Reads r p good) (hf : ∀ a, good a → Reads (f a) q next) :
    Reads (r >>= f) (p ∧ q) next := by
  by_cases hp : p
  · obtain ⟨a, rfl, ha⟩ := h.1 hp
    have hfa := hf a ha
    exact ⟨fun hpq => hfa.1 hpq.2, fun hpq => hfa.2 fun hq => hpq ⟨hp, hq⟩⟩
  · obtain ⟨e, rfl⟩ := h.2 hp
    exact ⟨fun hpq => absurd hpq.1 hp, fun _ => ⟨e, rfl⟩⟩

/-- The last reading of a command. -/
theorem map {f : α → β} {next : β → Prop} (h : Reads r p good) (hf : ∀ a, good a → next (f a)) :
    Reads (r >>= fun a => pure (f a)) p next := by
  constructor
  · intro hp
    obtain ⟨a, rfl, ha⟩ := h.1 hp
    exact ⟨f a, rfl, hf a ha⟩
  · intro hp
    obtain ⟨e, rfl⟩ := h.2 hp
    exact ⟨e, rfl⟩

end Reads

/-! ## Operands -/

theorem asmField_reads {cs : List Char} {n : Nat} (w : Nat) (h : asmNumber cs = some n) :
    Reads (asmField w cs) (n < 2 ^ w) (fun x => x.toNat = n) :=
  ⟨fun hn => ⟨_, asmField_fits h hn, (BitVec.toNat_ofNat ..).trans (Nat.mod_eq_of_lt hn)⟩, fun hn => ⟨_, asmField_overflow h hn⟩⟩

theorem asmBit_reads {cs : List Char} {n : Nat} (h : asmNumber cs = some n) :
    Reads (asmBit cs) (n < 2) (fun x => x.toNat = n) := by
  constructor
  · intro hn
    refine ⟨_, by rw [asmBit, asmField_fits h hn], ?_⟩
    interval_cases n <;> rfl
  · intro hn
    exact ⟨_, by rw [asmBit, asmField_overflow h hn]⟩

theorem asmKind_of_number {cs : List Char} {n : Nat} (h : asmNumber cs = some n) :
    Reads (asmKind cs) (n < 5) (fun k => k.code.toNat = n) := by
  have no_name {m : List Char} (hm : asmNumber m = none) : cs ≠ m := by rintro rfl; rw [hm] at h; cases h
  unfold asmKind
  rw [if_neg (no_name rfl), if_neg (no_name rfl), if_neg (no_name rfl), if_neg (no_name rfl), if_neg (no_name rfl)]
  by_cases h8 : n < 2 ^ 3
  · rw [asmField_fits h h8]
    interval_cases n <;> simp [Reads, kindOfCode, CbKind.code]
  · rw [asmField_overflow h h8]
    exact ⟨fun hn => by omega, fun _ => ⟨_, rfl⟩⟩

theorem asmKind_reads {cs : List Char} {n : Nat} (h : kindText cs n) :
    Reads (asmKind cs) (n < 5) (fun k => k.code.toNat = n) := by
  rcases h with ⟨rfl, rfl⟩ | ⟨rfl, rfl⟩ | ⟨rfl, rfl⟩ | ⟨rfl, rfl⟩ | ⟨rfl, rfl⟩ | h
  case inr.inr.inr.inr.inr => exact asmKind_of_number h
  all_goals exact ⟨fun _ => ⟨_, rfl, rfl⟩, fun hn => absurd (by decide) hn⟩

/-! ## Lines -/

/-- The command spells one where `q` holds, with these words, each as its number. -/
def SpellsWords (q : Prop) (ws : List Nat) (i : Instr) : Prop :=
  (i.wellFormed = true ↔ q) ∧ (encode i).map BitVec.toNat = ws

/-- A line of clean texts is its command, where its operands are right and spell one (R75). -/
theorem lineGives_of_reads {m : List Char} {ops : List (List Char)} {p q right : Prop} {ws : List Nat} (hm : CleanText m)
    (ho : ∀ x ∈ ops, CleanText x) (h : Reads (asmInstr m ops) p (SpellsWords q ws)) (hr : right ↔ p ∧ q) :
    lineGives m ops right ws := by
  unfold lineGives
  rw [assembleLine_asmLine hm ho, hr]
  by_cases hp : p
  · obtain ⟨i, hi, hwf, hws⟩ := h.1 hp
    have hwords : encode i = ws.map (BitVec.ofNat 32) := by rw [← hws, List.map_map]; simp [Function.comp_def]
    rw [hi, asmWords]
    by_cases hq : q
    · rw [if_pos (hwf.2 hq), hwords]
      exact ⟨fun _ => rfl, fun hpq => absurd ⟨hp, hq⟩ hpq⟩
    · rw [if_neg (mt hwf.1 hq)]
      exact ⟨fun hpq => absurd hpq.2 hq, fun _ => ⟨_, rfl⟩⟩
  · obtain ⟨e, he⟩ := h.2 hp
    rw [he]
    exact ⟨fun hpq => absurd hpq.1 hp, fun _ => ⟨e, rfl⟩⟩

/-- What the assembler emits is a command's words (R91). -/
theorem assembleLine_emits {line : List Char} {ws : List Word} (h : assembleLine line = .ok (some ws)) :
    ∃ i, decodeCommand ws = .ok i ∧ i.wellFormed = true := by
  unfold assembleLine at h
  split at h
  · cases h
  · unfold asmWords at h
    split at h
    · cases h
    · rename_i i _
      split at h
      · rename_i hwf
        cases h
        exact ⟨i, decodeCommand_encode hwf, hwf⟩
      · cases h

/-- A mnemonic of capital letters is clean. -/
theorem cleanText_upper {m : List Char} (hm : m ≠ []) (h : m.all Char.isUpper = true) : CleanText m := by
  refine ⟨hm, fun c hc => ?_⟩
  have hupper : c.isUpper = true := List.all_eq_true.1 h c hc
  have not_upper {x : Char} (hx : x.isUpper = false) : c ≠ x := by rintro rfl; rw [hx] at hupper; cases hupper
  exact ⟨by simp [asmBlank, not_upper], not_upper rfl, not_upper rfl⟩

/-! ## The words of each format (R72) -/

theorem spellsWords_init {per : BitVec 8} {nPer : Nat} (hper : per.toNat = nPer) :
    SpellsWords True [0 + 2 ^ 4 * nPer] (.init per) :=
  ⟨by simp [Instr.wellFormed], by rw [← hper, ← initWord_toNat]; rfl⟩

theorem spellsWords_setcb {k : CbKind} {inst en : Bool} {handler : Word} {nKd nIns nEn nHd : Nat} (hkd : k.code.toNat = nKd)
    (hins : inst.toNat = nIns) (hen : en.toNat = nEn) (hhd : handler.toNat = nHd) :
    SpellsWords (nIns = 1 ∨ (nEn = 0 ∧ nHd = 0)) [1 + 2 ^ 4 * nKd + 2 ^ 7 * nEn + 2 ^ 8 * nIns, nHd] (.setcb k inst en handler) := by
  subst hkd hins hen hhd
  exact ⟨removalOk_iff, by rw [← setcbWord_toNat]; rfl⟩

theorem asmTransfer_reads {mk : BitVec 7 → Word → BitVec 8 → Instr} {op : BitVec 4} {dev buf len : List Char} {nDev nBuf nLen : Nat}
    (hmk : ∀ d b l, encode (mk d b l) = [transferWord op d 0 l, b] ∧ (mk d b l).wellFormed = lenOk l)
    (hdev : asmNumber dev = some nDev) (hbuf : asmNumber buf = some nBuf) (hlen : asmNumber len = some nLen) :
    Reads (asmTransfer mk [dev, buf, len]) (nDev < 2 ^ 7 ∧ nBuf < 2 ^ 32 ∧ nLen < 2 ^ 8)
      (SpellsWords (nLen ≠ 0) [op.toNat + 2 ^ 4 * nDev + 2 ^ 14 * nLen, nBuf]) := by
  refine (asmField_reads 7 hdev).bind fun d hd => (asmField_reads 32 hbuf).bind fun b hb => (asmField_reads 8 hlen).map fun l hl => ?_
  subst hd hb hl
  refine ⟨?_, ?_⟩
  · rw [(hmk d b l).2, lenOk_iff]
  · simp [(hmk d b l).1, transferWord_toNat]

theorem asmMemory_reads {mk : BitVec 7 → Word → BitVec 3 → Word → BitVec 8 → Instr} {op : BitVec 4} {dev reg wid buf len : List Char}
    {nDev nReg nWid nBuf nLen : Nat}
    (hmk : ∀ d r w b l, encode (mk d r w b l) = [transferWord op d w l, b, r] ∧ (mk d r w b l).wellFormed = (widthOk w && lenOk l))
    (hdev : asmNumber dev = some nDev) (hreg : asmNumber reg = some nReg) (hwid : asmNumber wid = some nWid)
    (hbuf : asmNumber buf = some nBuf) (hlen : asmNumber len = some nLen) :
    Reads (asmMemory mk [dev, reg, wid, buf, len])
      (nDev < 2 ^ 7 ∧ nReg < 2 ^ 32 ∧ nWid < 2 ^ 3 ∧ nBuf < 2 ^ 32 ∧ nLen < 2 ^ 8)
      (SpellsWords ((1 ≤ nWid ∧ nWid ≤ 4) ∧ nLen ≠ 0)
        [op.toNat + 2 ^ 4 * nDev + 2 ^ 11 * nWid + 2 ^ 14 * nLen, nBuf, nReg]) := by
  refine (asmField_reads 7 hdev).bind fun d hd => (asmField_reads 32 hreg).bind fun r hr => (asmField_reads 3 hwid).bind fun w hw =>
    (asmField_reads 32 hbuf).bind fun b hb => (asmField_reads 8 hlen).map fun l hl => ?_
  subst hd hr hw hb hl
  refine ⟨?_, ?_⟩
  · rw [(hmk d r w b l).2, Bool.and_eq_true, widthOk_iff, lenOk_iff]
  · simp [(hmk d r w b l).1, transferWord_toNat]

/-! ## The lines of each format -/

theorem lineGives_init {per : List Char} {nPer : Nat} (hper : asmNumber per = some nPer) :
    lineGives ['I', 'N', 'I', 'T'] [per] (nPer < 2 ^ 8) [0 + 2 ^ 4 * nPer] :=
  lineGives_of_reads (cleanText_upper (by decide) rfl) (by simp [asmNumber_clean hper])
    ((asmField_reads 8 hper).map fun _ hp => spellsWords_init hp) (by simp)

theorem lineGives_setcb {kd ins en hd : List Char} {nKd nIns nEn nHd : Nat} (hkd : kindText kd nKd) (hins : asmNumber ins = some nIns)
    (hen : asmNumber en = some nEn) (hhd : asmNumber hd = some nHd) :
    lineGives ['S', 'E', 'T', 'C', 'B'] [kd, ins, en, hd]
      (nKd < 5 ∧ nIns < 2 ∧ nEn < 2 ∧ nHd < 2 ^ 32 ∧ (nIns = 1 ∨ (nEn = 0 ∧ nHd = 0)))
      [1 + 2 ^ 4 * nKd + 2 ^ 7 * nEn + 2 ^ 8 * nIns, nHd] :=
  lineGives_of_reads (cleanText_upper (by decide) rfl)
    (by simp [kindText_clean hkd, asmNumber_clean hins, asmNumber_clean hen, asmNumber_clean hhd])
    ((asmKind_reads hkd).bind fun _ hk => (asmBit_reads hins).bind fun _ hi => (asmBit_reads hen).bind fun _ he =>
      (asmField_reads 32 hhd).map fun _ hh => spellsWords_setcb hk hi he hh)
    (by simp only [and_assoc])

theorem lineGives_transfer {m dev buf len : List Char} {mk : BitVec 7 → Word → BitVec 8 → Instr} {op : BitVec 4} {nDev nBuf nLen : Nat}
    (hm : CleanText m) (hinstr : ∀ ops, asmInstr m ops = asmTransfer mk ops)
    (hmk : ∀ d b l, encode (mk d b l) = [transferWord op d 0 l, b] ∧ (mk d b l).wellFormed = lenOk l)
    (hdev : asmNumber dev = some nDev) (hbuf : asmNumber buf = some nBuf) (hlen : asmNumber len = some nLen) :
    lineGives m [dev, buf, len] (transferFits nDev nBuf nLen) [op.toNat + 2 ^ 4 * nDev + 2 ^ 14 * nLen, nBuf] := by
  refine lineGives_of_reads hm (by simp [asmNumber_clean hdev, asmNumber_clean hbuf, asmNumber_clean hlen])
    (hinstr _ ▸ asmTransfer_reads hmk hdev hbuf hlen) ?_
  unfold transferFits
  omega

theorem lineGives_memory {m dev reg wid buf len : List Char} {mk : BitVec 7 → Word → BitVec 3 → Word → BitVec 8 → Instr}
    {op : BitVec 4} {nDev nReg nWid nBuf nLen : Nat} (hm : CleanText m) (hinstr : ∀ ops, asmInstr m ops = asmMemory mk ops)
    (hmk : ∀ d r w b l, encode (mk d r w b l) = [transferWord op d w l, b, r] ∧ (mk d r w b l).wellFormed = (widthOk w && lenOk l))
    (hdev : asmNumber dev = some nDev) (hreg : asmNumber reg = some nReg) (hwid : asmNumber wid = some nWid)
    (hbuf : asmNumber buf = some nBuf) (hlen : asmNumber len = some nLen) :
    lineGives m [dev, reg, wid, buf, len] (transferFits nDev nBuf nLen ∧ nReg < 2 ^ 32 ∧ 1 ≤ nWid ∧ nWid ≤ 4)
      [op.toNat + 2 ^ 4 * nDev + 2 ^ 11 * nWid + 2 ^ 14 * nLen, nBuf, nReg] := by
  refine lineGives_of_reads hm
    (by simp [asmNumber_clean hdev, asmNumber_clean hreg, asmNumber_clean hwid, asmNumber_clean hbuf, asmNumber_clean hlen])
    (hinstr _ ▸ asmMemory_reads hmk hdev hreg hwid hbuf hlen) ?_
  unfold transferFits
  omega

theorem lineGives_event : lineGives ['E', 'V', 'E', 'N', 'T'] [] True [8] :=
  lineGives_of_reads (q := True) (cleanText_upper (by decide) rfl) (by simp) (.ok ⟨by simp [Instr.wellFormed], rfl⟩) (by simp)

/-- ONCB and MUTECB (R92): SETCB with INST = 1 and a fixed EN. -/
theorem lineGives_install {m kd hd : List Char} {en : Bool} {nKd nHd : Nat} (hm : CleanText m)
    (hinstr : asmInstr m [kd, hd] = do return .setcb (← asmKind kd) true en (← asmField 32 hd))
    (hkd : kindText kd nKd) (hhd : asmNumber hd = some nHd) :
    lineGives m [kd, hd] (nKd < 5 ∧ nHd < 2 ^ 32) [1 + 2 ^ 4 * nKd + 2 ^ 7 * en.toNat + 2 ^ 8 * 1, nHd] :=
  lineGives_of_reads hm (by simp [kindText_clean hkd, asmNumber_clean hhd])
    (hinstr ▸ (asmKind_reads hkd).bind fun _ hk => (asmField_reads 32 hhd).map fun _ hh => spellsWords_setcb hk rfl rfl hh)
    (by simp)

/-- OFFCB (R92): a removal. -/
theorem lineGives_offcb {kd : List Char} {nKd : Nat} (hkd : kindText kd nKd) :
    lineGives ['O', 'F', 'F', 'C', 'B'] [kd] (nKd < 5) [1 + 2 ^ 4 * nKd + 2 ^ 7 * 0 + 2 ^ 8 * 0, 0] :=
  lineGives_of_reads (cleanText_upper (by decide) rfl) (by simp [kindText_clean hkd])
    ((asmKind_reads hkd).map fun _ hk => spellsWords_setcb (inst := false) (en := false) (handler := 0) hk rfl rfl rfl) (by simp)

/-- Settles O5: the lines of each format come apart into clean operands, each is read into the field of its name, and numbers and
comments are read as R91 says. -/
theorem assembledLineDecodes : Obligations.AssembledLineDecodes := by
  refine ⟨fun _ _ => assembleLine_emits, ?_, asmNumber_toDigits, assembleLine_append_comment⟩
  intro per dev reg wid buf len hd ins en kd nPer nDev nReg nWid nBuf nLen nHd nIns nEn nKd hper hdev hreg hwid hbuf hlen hhd hins hen hkd
  refine ⟨lineGives_init hper, lineGives_setcb hkd hins hen hhd, ?transfer, ?memory, lineGives_event, ?oncb, ?mutecb, lineGives_offcb hkd⟩
  case transfer =>
    simp only [List.forall_mem_cons, List.not_mem_nil, false_imp_iff, implies_true, and_true]
    refine ⟨?write, ?read, ?writea, ?reada⟩
    case write =>
      exact lineGives_transfer (op := 2) (cleanText_upper (by decide) rfl) (fun _ => rfl) (fun _ _ _ => ⟨rfl, rfl⟩) hdev hbuf hlen
    case read =>
      exact lineGives_transfer (op := 3) (cleanText_upper (by decide) rfl) (fun _ => rfl) (fun _ _ _ => ⟨rfl, rfl⟩) hdev hbuf hlen
    case writea =>
      exact lineGives_transfer (op := 4) (cleanText_upper (by decide) rfl) (fun _ => rfl) (fun _ _ _ => ⟨rfl, rfl⟩) hdev hbuf hlen
    case reada =>
      exact lineGives_transfer (op := 5) (cleanText_upper (by decide) rfl) (fun _ => rfl) (fun _ _ _ => ⟨rfl, rfl⟩) hdev hbuf hlen
  case memory =>
    simp only [List.forall_mem_cons, List.not_mem_nil, false_imp_iff, implies_true, and_true]
    refine ⟨?memwra, ?memrda, ?wrreg, ?rdreg⟩
    case memwra | wrreg =>
      exact lineGives_memory (op := 6) (cleanText_upper (by decide) rfl) (fun _ => rfl) (fun _ _ _ _ _ => ⟨rfl, rfl⟩)
        hdev hreg hwid hbuf hlen
    case memrda | rdreg =>
      exact lineGives_memory (op := 7) (cleanText_upper (by decide) rfl) (fun _ => rfl) (fun _ _ _ _ _ => ⟨rfl, rfl⟩)
        hdev hreg hwid hbuf hlen
  case oncb => exact lineGives_install (en := true) (cleanText_upper (by decide) rfl) rfl hkd hhd
  case mutecb => exact lineGives_install (en := false) (cleanText_upper (by decide) rfl) rfl hkd hhd

end Sys2Proof.Machine
end

section
/-! PROOFS. 40_framing.md R102, R103: the bytes of the register offset, and SetState. -/

namespace Sys2Proof.Machine

/-- Settles O8: shifting by whole bytes and keeping 8 bits reads a byte of RegAddr. -/
theorem offsetBytesMostSignificantFirst : Obligations.OffsetBytesMostSignificantFirst := by
  intro h k j _ _ hk hj
  refine ⟨?_, by omega⟩
  rw [offByte, BitVec.getLsbD_setWidth, BitVec.getLsbD_ushiftRight]
  simp [hj]

/-- Settles O9: SetState writes the handle on the port only, and that handle as R103 says. -/
theorem setStateKeepsOldState : Obligations.SetStateKeepsOldState := by
  intro st s
  obtain ⟨_, _, _, _, hother, _⟩ := SameOutside.setState s st
  exact ⟨State.h_setState s st, hother, State.setState_trace s st⟩

end Sys2Proof.Machine
end

section
/-! PROOFS. 40_framing.md R109 to R111: a transfer command as its checks and what it then starts, and what it does where a check fails. -/

namespace Sys2Proof.Machine

/-- R111, as the bound on the last byte. -/
theorem bufferFits_iff {buf : Word} {len : BitVec 8} : bufferFits buf len = true ↔ buf.toNat + len.toNat ≤ 2 ^ 32 := by
  rw [bufferFits, decide_eq_true_iff]
  omega

/-! ## The bodies that run and wait -/

/-- The instance on the port, the callback bodies that run and those that wait are the same. -/
structure SameRuns (s t : State) : Prop where
  port : t.port = s.port
  calls : t.calls = s.calls
  suspended : t.suspended = s.suspended

theorem SameRuns.trans {s t u : State} (a : SameRuns s t) (b : SameRuns t u) : SameRuns s u :=
  ⟨b.port.trans a.port, b.calls.trans a.calls, b.suspended.trans a.suspended⟩

theorem SameRuns.answer (s : State) (r : Result) : SameRuns s (s.answer r) := ⟨rfl, rfl, rfl⟩

theorem SameRuns.refuse (s : State) (why : RefuseReason) : SameRuns s (s.refuse why) := ⟨rfl, rfl, rfl⟩

theorem SameOutside.sameRuns {s t : State} (ho : SameOutside s t) (hw : SameCalls s t) : SameRuns s t := by
  obtain ⟨_, _, hport, hcalls, _⟩ := ho
  obtain ⟨_, hsusp⟩ := hw
  exact ⟨hport, hcalls, hsusp⟩

theorem SameRuns.arm (op : Operation) (dev : BitVec 7) (reg : Word) (w : BitVec 3) (buf : Word) (len : BitVec 8) (s : State) :
    SameRuns s (s.arm op dev reg w buf len) := by
  obtain ⟨_, hout, _, _, hcalls, _⟩ := State.arm_frame op dev reg w buf len s
  exact hout.sameRuns hcalls

theorem SameRuns.asyncStart (op : Operation) (dev : BitVec 7) (reg : Word) (w : BitVec 3) (buf : Word) (len : BitVec 8) (s : State) :
    SameRuns s (s.asyncStart op dev reg w buf len) := (SameRuns.arm op dev reg w buf len s).trans (.answer _ .ok)

theorem SameRuns.blkStart (op : Operation) (dev : BitVec 7) (buf : Word) (len : BitVec 8) (s : State) :
    SameRuns s (s.blkStart op dev buf len) :=
  (SameRuns.arm op dev 0 0 buf len s).trans ⟨State.noteCall_port _, State.noteCall_calls _, State.noteCall_suspended _⟩

theorem SameRuns.transfer (ok : Bool) (buf : Word) (len : BitVec 8) {start : State → State} (s : State)
    (h : ∀ t, SameRuns t (start t)) : SameRuns s (transfer ok buf len start s) := by
  have hi : SameRuns s s.afterCheckIdle := by
    obtain ⟨_, _, _, hout, hcalls, _⟩ := s.afterCheckIdle_frame
    exact hout.sameRuns hcalls
  rcases transfer_cases ok buf len start s with ⟨_, e⟩ | ⟨_, _, e⟩ | ⟨_, _, _, e⟩ | ⟨_, _, _, _, e⟩ | ⟨_, _, _, _, e⟩ <;> rw [e]
  · exact SameRuns.refuse s _
  · exact SameRuns.refuse s _
  · exact SameRuns.refuse s _
  · exact hi.trans (.answer _ .busy)
  · exact hi.trans (h _)

/-! ## Transfer commands -/

/-- Each of the six transfer commands is the checks of R110 on its own operands, and then what it starts. -/
theorem exec_transfer {i : Instr} {buf : Word} {len : BitVec 8} (h : transferBuffer i = some (buf, len)) :
    ∃ start, (∀ t, SameRuns t (start t)) ∧ ∀ s, exec i s = .next (transfer i.wellFormed buf len start s) := by
  cases i with
  | init | setcb | event => cases h
  | write | read => cases h; exact ⟨_, .blkStart _ _ _ _, fun _ => rfl⟩
  | writea | reada | memwra | memrda => cases h; exact ⟨_, .asyncStart _ _ _ _ _ _, fun _ => rfl⟩

section
variable {i : Instr} {buf : Word} {len : BitVec 8} {s : State}

theorem exec_transfer_unbound (hi : transferBuffer i = some (buf, len)) (hw : i.wellFormed = true) (hb : s.h.bound = false) :
    exec i s = .next (s.refuse .unbound) := by
  obtain ⟨start, _, e⟩ := exec_transfer hi
  rw [e]
  simp [transfer, hw, hb]

theorem exec_transfer_wraps (hi : transferBuffer i = some (buf, len)) (hw : i.wellFormed = true) (hb : s.h.bound = true)
    (hf : bufferFits buf len = false) : exec i s = .next (s.refuse .bufferWraps) := by
  obtain ⟨start, _, e⟩ := exec_transfer hi
  rw [e]
  simp [transfer, hw, hb, hf]

theorem exec_transfer_busy (hi : transferBuffer i = some (buf, len)) (hw : i.wellFormed = true) (hb : s.h.bound = true)
    (hf : bufferFits buf len = true) (hbusy : s.isBusy = true) : exec i s = .next (s.afterCheckIdle.answer .busy) := by
  obtain ⟨start, _, e⟩ := exec_transfer hi
  rw [e]
  simp [transfer, hw, hb, hf, hbusy]

end

/-- Settles O22: outside Ready, CheckIdle answers Busy with no access. -/
theorem secondTransferReturnsBusy : Obligations.SecondTransferReturnsBusy := by
  intro i buf len s hi hw hb hf hs
  rw [exec_transfer_busy hi hw hb (bufferFits_iff.2 hf) (by simp [State.isBusy, hs]), State.afterCheckIdle_busy hs]
  rfl

/-- Settles O23: in Ready, CheckIdle reads ISR and answers Busy on its flag. -/
theorem busyPeripheralReturnsBusy : Obligations.BusyPeripheralReturnsBusy := by
  intro i buf len s hi hw hb hf hs hbusy
  have hexec := exec_transfer_busy hi hw hb (bufferFits_iff.2 hf) (show s.isBusy = true by simp [State.isBusy, busyF, hbusy])
  obtain ⟨hhandles, hmem, hmark, hout, hcalls, _⟩ := s.afterCheckIdle_frame
  refine ⟨_, hexec, ?_, hhandles, hout, fun _ => congrArg (Memory.byteAt · _) hmem, hcalls, hmark⟩
  simp [State.afterCheckIdle_ready hs]

/-- Settles O24: the value checks come before CheckIdle. -/
theorem transferValueChecksRefuse : Obligations.TransferValueChecksRefuse := by
  intro i buf len s hi hw
  refine ⟨exec_transfer_unbound hi hw, fun hb hwrap => exec_transfer_wraps hi hw hb ?_⟩
  rw [Bool.eq_false_iff, ne_eq, bufferFits_iff]
  omega

end Sys2Proof.Machine
end

section
/-! PROOFS. 40_framing.md R108, 60_exceptions.md R210: what the callback bodies that run do next, one equation for each next step of the
innermost. -/

namespace Sys2Proof.Machine

variable {s t : State}

/-! ## EVENT arms no blocking transfer -/

theorem finishEvent_stage (s : State) : (finishEvent s).h.blkStage = s.h.blkStage := by
  simp [finishEvent]

theorem notify_stage (k : CbKind) (s : State) : (notify k s).h.blkStage = s.h.blkStage := by
  unfold notify
  split
  · rfl
  · exact finishEvent_stage s

theorem runBranch_stage {b : Branch} (e : runBranch b s = .next t) : t.h.blkStage = s.h.blkStage := by
  cases b with
  | nack =>
    cases e
    simp [nackBranch, notify_stage, Handle.withError]
  | rx =>
    obtain ⟨u, hu, e⟩ := andThen_eq_next.1 e
    obtain ⟨_, rfl⟩ := memWrite_eq_next.1 hu
    cases e
    rw [State.h_answer, State.h_modifyH, Handle.countData]
    rfl
  | tx =>
    simp only [runBranch] at e
    split at e
    · cases e
      simp [txOffsetBranch, Handle.countOffset]
    · obtain ⟨v, _, e⟩ := memRead_eq_next.1 e
      cases e
      simp [Handle.countData]
  | cp =>
    simp only [runBranch] at e
    split at e
    · cases e
      simp [cpOffsetBranch]
    · cases e
      unfold cpDataBranch
      split
      · exact finishEvent_stage _
      · exact notify_stage _ _

/-- A dispatcher invocation, up to the body it may begin, leaves BlkStage alone. -/
theorem eventStep_stage (e : eventStep s = .next t) : t.h.blkStage = s.h.blkStage := by
  unfold eventStep at e
  split at e
  · cases e; rfl
  · split at e
    · cases e; rfl
    · unfold eventOn at e
      split at e
      · cases e; rfl
      · exact runBranch_stage (s := s.afterPrd .isr) e

/-! ## Commands other than EVENT -/

/-- Every command but EVENT completes, and leaves the bodies as they are. -/
theorem exec_completes {i : Instr} (hi : i ≠ .event) (s : State) : ∃ u, exec i s = .next u ∧ SameRuns s u := by
  cases ht : transferBuffer i with
  | some operands =>
    obtain ⟨start, hstart, e⟩ := exec_transfer ht
    exact ⟨_, e s, .transfer _ _ _ _ hstart⟩
  | none =>
    cases i with
    | init periph =>
      show ∃ u, execInit periph s = .next u ∧ _
      unfold execInit
      split
      · exact ⟨_, rfl, .refuse _ _⟩
      · exact ⟨_, rfl, rfl, rfl, rfl⟩
    | setcb kind inst en handler =>
      show ∃ u, execSetcb kind inst en handler s = .next u ∧ _
      unfold execSetcb
      split
      · exact ⟨_, rfl, .refuse _ _⟩
      · split
        · exact ⟨_, rfl, .refuse _ _⟩
        · exact ⟨_, rfl, rfl, rfl, rfl⟩
    | event => exact absurd rfl hi
    | _ => cases ht

/-! ## One nested command -/

/-- The state in which a callback body's command to instance `n` is carried out. -/
def State.nested (s : State) (n : Nat) : State := { s with port := { inst := n, agent := .callback } }

theorem State.waitIfArmed_none {before : BlkStage} (h : ¬ (before = .idle ∧ s.h.blkStage ≠ .idle)) : s.waitIfArmed before = s :=
  if_neg h

theorem State.waitIfArmed_some {before : BlkStage} (h : before = .idle ∧ s.h.blkStage ≠ .idle) :
    s.waitIfArmed before = s.suspend (some s.port.inst) :=
  if_pos h

section
variable {n : Nat} {ws : List Word} (hn : n < s.params.nInst)
include hn

theorem bodyCommand_refused (hd : ∀ i, decodeCommand ws ≠ .ok i) :
    bodyCommand n ws s = .next ((s.nested n).refuse .reservedEncoding) := by
  cases h : decodeCommand ws with
  | ok i => exact absurd h (hd i)
  | error => simp [bodyCommand, hn, h, State.nested]

theorem bodyCommand_event (hd : decodeCommand ws = .ok .event) : bodyCommand n ws s = eventStep (s.nested n) := by
  have hkeep (o : Out) (ho : eventStep (s.nested n) = o) :
      andThen o (fun u => .next (u.waitIfArmed (s.nested n).h.blkStage)) = o := by
    cases o with
    | next u => rw [andThen_next, State.waitIfArmed_none (by rw [eventStep_stage ho]; simp)]
    | fault | refused => rfl
  simp only [bodyCommand, hn, hd, if_true]
  exact hkeep _ rfl

theorem bodyCommand_other {i : Instr} (hd : decodeCommand ws = .ok i) (hi : i ≠ .event) {u : State} (hu : exec i (s.nested n) = .next u) :
    bodyCommand n ws s = .next (u.waitIfArmed (s.nested n).h.blkStage) := by
  rw [exec_eq_nestedExec hi] at hu
  simp only [bodyCommand, hn, hd, if_true]
  exact congrArg (andThen · _) hu

end

/-- EVENT inside an EVENT of the same instance is refused (R210). -/
theorem eventStep_nested (h : s.inBody s.port.inst = true) : eventStep s = .next (s.refuse .nestedEvent) := by
  simp [eventStep, h]

/-! ## The innermost body's next step -/

section
variable {p : Port} {left : List BodyStep} {rest : List BodyRun}

/-- The bodies with the innermost body's next step taken off. -/
def State.popped (s : State) (p : Port) (left : List BodyStep) (rest : List BodyRun) : State :=
  { s with calls := { port := p, body := left } :: rest }

theorem State.runCallbacks_neverReturns (hc : s.calls = { port := p, body := .neverReturns :: left } :: rest) :
    s.runCallbacks = .fault .callbackNeverReturns :=
  State.runCallbacks_step hc rfl

variable {n : Nat} {ws : List Word} (hc : s.calls = { port := p, body := .command n ws :: left } :: rest)
  (hmid : s.midEvent n = false) (hn : n < s.params.nInst)
include hc hmid hn

theorem State.runCallbacks_undecoded (hd : ∀ i, decodeCommand ws ≠ .ok i) :
    s.runCallbacks = State.runCallbacks (((s.popped p left rest).nested n).refuse .reservedEncoding) := by
  rw [State.runCallbacks_step hc hmid]
  exact congrArg (andThen · State.runCallbacks) (bodyCommand_refused (s := s.popped p left rest) hn hd)

theorem State.runCallbacks_event (hd : decodeCommand ws = .ok .event) :
    s.runCallbacks = exec .event ((s.popped p left rest).nested n) := by
  rw [State.runCallbacks_step hc hmid]
  exact congrArg (andThen · State.runCallbacks) (bodyCommand_event (s := s.popped p left rest) hn hd)

/-- EVENT to an instance inside whose EVENT the body runs is refused, and the bodies go on. -/
theorem State.runCallbacks_nestedEvent (hd : decodeCommand ws = .ok .event) (hin : ∃ r ∈ s.calls, r.port.inst = n) :
    s.runCallbacks = State.runCallbacks (((s.popped p left rest).nested n).refuse .nestedEvent) := by
  rw [State.runCallbacks_event hc hmid hn hd]
  refine congrArg (andThen · State.runCallbacks) (eventStep_nested ?_)
  simpa [State.inBody, State.nested, State.popped, hc] using hin

/-- Any other command is carried out; where it arms a blocking transfer the bodies wait for it, else they go on. -/
theorem State.runCallbacks_command {i : Instr} (hd : decodeCommand ws = .ok i) (hi : i ≠ .event) :
    let c := (s.popped p left rest).nested n
    ∃ u, exec i c = .next u ∧ SameRuns c u
      ∧ (c.h.blkStage = .idle ∧ u.h.blkStage ≠ .idle → s.runCallbacks
          = .next { u with calls := [], suspended := s.suspended ++ [⟨some n, { port := p, body := left } :: rest⟩] })
      ∧ (¬ (c.h.blkStage = .idle ∧ u.h.blkStage ≠ .idle) → s.runCallbacks = u.runCallbacks) := by
  intro c
  obtain ⟨u, hu, hsame⟩ := exec_completes hi c
  have hrun : s.runCallbacks = (u.waitIfArmed c.h.blkStage).runCallbacks := by
    rw [State.runCallbacks_step hc hmid]
    exact congrArg (andThen · State.runCallbacks) (bodyCommand_other (s := s.popped p left rest) hn hd hi hu)
  refine ⟨u, hu, hsame, fun harm => ?_, fun hno => ?_⟩
  · obtain ⟨hport, hcalls, hsusp⟩ := hsame
    rw [hrun, State.waitIfArmed_some harm, State.runCallbacks_nil (State.suspend_calls u _), State.suspend, hport, hcalls, hsusp]
    rfl
  · rw [hrun, State.waitIfArmed_none hno]

end

/-- Settles O45: the equations of the innermost body's next step. -/
theorem callbackBodyStep : Obligations.CallbackBodyStep := by
  intro s p rest
  refine ⟨State.runCallbacks_nil, State.runCallbacks_done, fun x left hc => ?_⟩
  refine ⟨?store, ?release, ?hang, ?command⟩
  case store =>
    rintro a v rfl
    exact State.runCallbacks_step hc rfl
  case release =>
    rintro a rfl
    exact State.runCallbacks_step hc rfl
  case hang =>
    rintro rfl
    exact State.runCallbacks_neverReturns hc
  case command =>
    rintro n ws rfl
    refine ⟨State.runCallbacks_heldBack hc, fun hmid hn => ?_⟩
    refine ⟨State.runCallbacks_undecoded hc hmid hn, fun hd => ?_, fun i hd hi => ?_⟩
    · exact ⟨State.runCallbacks_event hc hmid hn hd, State.runCallbacks_nestedEvent hc hmid hn hd⟩
    · obtain ⟨u, hu, _, hwait, hgo⟩ := State.runCallbacks_command hc hmid hn hd hi
      exact ⟨u, hu, hwait, hgo⟩

end Sys2Proof.Machine
end

section
/-! PROOFS. 40_framing.md R108, 44_dispatcher.md R172, R177, 70_reset_and_hazards.md R237: the notification of an EVENT that ends an async
transfer, the callback body it begins, and the end of the EVENT. -/

namespace Sys2Proof.Machine

variable {s u : State} {k : CbKind}

/-! ## An EVENT that ends an async transfer -/

theorem completionKind_ne_notAcknowledged {op : Operation} (h : completionKind op = some k) : k ≠ .notAcknowledged := by
  rintro rfl
  cases op <;> cases h

theorem endsWith.exists_takes (h : endsWith s k) : ∃ b, takes s b := by
  rcases h with ⟨ht, _⟩ | ⟨ht, _⟩ <;> exact ⟨_, ht⟩

/-- A transfer that ends was in flight (R171). -/
theorem endsWith.state_ne_ready (h : endsWith s k) : s.h.state ≠ .ready := by
  obtain ⟨b, _, _, _, ht⟩ := h.exists_takes
  intro hr
  rw [takenBranch_ready hr] at ht
  cases ht

/-! ## The state at the notification -/

/-- What an ending EVENT leaves before its notification: the ISR read, and by R172 the Error field and NACKCF, by R177 STOPCF. -/
def State.atNotice (s : State) (k : CbKind) : State :=
  if k = .notAcknowledged then ((s.afterPrd .isr).modifyH (Handle.withError .notAcknowledged)).pwr .icr icrNACK
  else (s.afterPrd .isr).pwr .icr icrSTOP

section
variable (s : State) (k : CbKind)

@[simp] theorem State.atNotice_hostMem : (s.atNotice k).hostMem = s.hostMem := by unfold State.atNotice; split <;> rfl
@[simp] theorem State.atNotice_refusalMark : (s.atNotice k).refusalMark = s.refusalMark := by unfold State.atNotice; split <;> rfl
@[simp] theorem State.atNotice_script : (s.atNotice k).script = s.script.dropAnswer .isr := by unfold State.atNotice; split <;> rfl
@[simp] theorem State.atNotice_port : (s.atNotice k).port = s.port := by unfold State.atNotice; split <;> rfl
@[simp] theorem State.atNotice_params : (s.atNotice k).params = s.params := by unfold State.atNotice; split <;> rfl
@[simp] theorem State.atNotice_calls : (s.atNotice k).calls = s.calls := by unfold State.atNotice; split <;> rfl
@[simp] theorem State.atNotice_suspended : (s.atNotice k).suspended = s.suspended := by unfold State.atNotice; split <;> rfl

@[simp] theorem State.nextAnswer_atNotice (r : PReg) : (s.atNotice k).nextAnswer r = (s.afterPrd .isr).nextAnswer r := by
  unfold State.atNotice; split <;> rfl

theorem SameCalls.atNotice : SameCalls s (s.atNotice k) := by unfold State.atNotice; split <;> exact ⟨rfl, rfl⟩

@[simp] theorem State.h_atNotice : (s.atNotice k).h = { s.h with error := endingError s.h k } := by
  unfold State.atNotice endingError
  split <;> simp [Handle.withError]

theorem SameOutside.atNotice : SameOutside s (s.atNotice k) := by
  have hread := SameOutside.afterPrd s .isr
  unfold State.atNotice
  split
  · have herror := hread.trans rfl (.modifyH _ (Handle.withError .notAcknowledged))
    exact herror.trans (by simp [Handle.withError]) (.pwr _ .icr icrNACK)
  · exact hread.trans rfl (.pwr _ .icr icrSTOP)

/-- The notification is put out after what `atNotice` put out. -/
theorem State.atNotice_trace :
    (s.atNotice k).trace ++ [.notify s.port.inst k (s.h.cb.get k).handler] = s.trace ++ endingAccesses s k := by
  unfold State.atNotice endingAccesses
  split <;> simp [Handle.withError, icrNACK, icrSTOP]

end

/-- An EVENT that ends an async transfer notifies, and the body it began then runs. -/
theorem exec_event_endsWith (h : endsWith s k) : exec .event s = (notify k (s.atNotice k)).runCallbacks := by
  rcases h with ⟨ht, rfl⟩ | ⟨ht, hs, hk⟩
  · exact exec_event_takes ht
  · rw [exec_event_takes ht, State.atNotice, if_neg (completionKind_ne_notAcknowledged hk)]
    simp [runBranch, hs, cpDataBranch, hk]

/-! ## The callback body -/

/-- `bodyStart` by the fields in which it differs from the state before the notification. -/
theorem bodyStart_eq_atNotice (s : State) (k : CbKind) (b : List BodyStep) :
    bodyStart s k b = { s.atNotice k with
      trace := s.trace ++ endingAccesses s k, script := { (s.atNotice k).script with bodies := s.script.bodies.tail },
      calls := { port := s.port, body := b } :: s.calls } := rfl

theorem beginBody_atNotice (s : State) (k : CbKind) : (s.atNotice k).beginBody k = bodyStart s k s.script.nextBody := by
  rw [bodyStart_eq_atNotice, ← State.atNotice_trace, State.beginBody]
  simp [State.log, Script.nextBody]

/-- Where the kind is installed and enabled, the EVENT runs the callback body. -/
theorem exec_event_callsBack (h : callsBack s k) : exec .event s = (bodyStart s k s.script.nextBody).runCallbacks := by
  obtain ⟨hends, hdelivered⟩ := h
  rw [exec_event_endsWith hends, notify_delivered (by simpa using hdelivered), beginBody_atNotice]

@[simp] theorem bodyStart_params (s : State) (k : CbKind) (b : List BodyStep) : (bodyStart s k b).params = s.params :=
  State.atNotice_params s k

@[simp] theorem bodyStart_suspended (s : State) (k : CbKind) (b : List BodyStep) : (bodyStart s k b).suspended = s.suspended :=
  State.atNotice_suspended s k

@[simp] theorem midEvent_bodyStart (s : State) (k : CbKind) (b : List BodyStep) (n : Nat) :
    (bodyStart s k b).midEvent n = s.midEvent n := by
  simp [State.midEvent]

/-- The body's single command is carried out, and then the EVENT ends, or, where it armed a blocking transfer, the body waits. -/
theorem exec_event_command (h : callsBack s k) {n : Nat} {i : Instr} (hbody : s.script.nextBody = [.command n (encode i)])
    (hw : i.wellFormed = true) (hi : i ≠ .event) (hn : n < s.params.nInst) (hmid : s.midEvent n = false) :
    let b := (bodyStart s k []).nested n
    ∃ u, exec i b = .next u
      ∧ (¬ (b.h.blkStage = .idle ∧ u.h.blkStage ≠ .idle) → eventAnswers s (closeEvent s.port s.calls u))
      ∧ (b.h.blkStage = .idle ∧ u.h.blkStage ≠ .idle → exec .event s
          = .next { u with calls := [], suspended := s.suspended ++ [⟨some n, ⟨s.port, []⟩ :: s.calls⟩] }) := by
  intro b
  obtain ⟨u, hu, hsame, harm, hgo⟩ := State.runCallbacks_command (s := bodyStart s k [.command n (encode i)]) (p := s.port) (left := [])
    (rest := s.calls) rfl (by rwa [midEvent_bodyStart]) (by rwa [bodyStart_params]) (decodeCommand_encode hw) hi
  have hexec := exec_event_callsBack h
  rw [hbody] at hexec
  refine ⟨u, hu, fun hno => ?_, fun hyes => ?_⟩
  · have hclose : exec .event s = (closeEvent s.port s.calls u).runCallbacks :=
      (hexec.trans (hgo hno)).trans (State.runCallbacks_done hsame.calls)
    exact ⟨fun hc => hclose.trans (State.runCallbacks_nil hc), hclose⟩
  · rw [hexec, harm hyes, bodyStart_suspended]

/-- Settles O44: the body runs from `bodyStart`, and its first step is the one taken. -/
theorem callbackCommandsRun : Obligations.CallbackCommandsRun := by
  intro s k h
  refine ⟨exec_event_callsBack h, fun n i hbody hw hi hn hmid => exec_event_command h hbody hw hi hn hmid, fun rest hbody => ?_⟩
  rw [exec_event_callsBack h, hbody]
  exact State.runCallbacks_neverReturns rfl

/-! ## The end of the EVENT -/

/-- Where the branch of an ending EVENT of `s` has put out `items` and its callback body, if any, has left the instance and its peripheral
alone. -/
structure BranchDone (s : State) (k : CbKind) (items : List TraceItem) (u : State) : Prop where
  handle : u.h = { s.h with error := endingError s.h k }
  cr1 : u.nextAnswer .cr1 = (s.afterPrd .isr).nextAnswer .cr1
  trace : u.trace = s.trace ++ items
  outside : SameOutside s u
  memory : u.hostMem = s.hostMem
  waits : SameCalls s u

@[simp] theorem finishEvent_refusalMark (s : State) : (finishEvent s).refusalMark = s.refusalMark := rfl

namespace BranchDone

variable {items : List TraceItem} (h : BranchDone s k items u)
include h

theorem finish_handle (hs : s.h.state ≠ .ready) :
    (finishEvent u).h = { s.h with error := endingError s.h k, previousState := s.h.state, state := .ready } := by
  rw [finishEvent, State.h_answer, State.h_terminate, h.handle]
  exact Handle.setState_ne hs

/-- Terminate reads and writes CR1, and EVENT answers Ok (R106, R172, R177). -/
theorem finish_trace : (finishEvent u).trace = s.trace ++ items ++ terminateAccesses s ++ [.answer s.port.inst .ok] := by
  obtain ⟨_, _, hport, _⟩ := h.outside
  simp [finishEvent, State.terminate, State.disableInts, terminateAccesses, h.trace, h.handle, h.cr1, hport, ieALL]

theorem finish_frame : SameOutside s (finishEvent u) ∧ SameMemory s (finishEvent u) ∧ SameCalls s (finishEvent u) := by
  have hp : u.h.periphRef = s.h.periphRef := by rw [h.handle]
  refine ⟨h.outside.trans hp ((SameOutside.terminate u).trans ?_ (.answer _ .ok)), fun _ => ?_, h.waits⟩
  · simp
  · rw [finishEvent_hostMem, h.memory]

end BranchDone

/-- The state the callback body of an ending EVENT leaves where it put out `items` and did nothing else. -/
def State.bodyDone (s : State) (k : CbKind) (items : List TraceItem) : State :=
  { bodyStart s k [] with port := s.port, calls := s.calls, trace := s.trace ++ endingAccesses s k ++ items }

theorem State.bodyDone_branchDone (s : State) (k : CbKind) (items : List TraceItem) :
    BranchDone s k (endingAccesses s k ++ items) (s.bodyDone k items) := by
  have hport := State.atNotice_port s k
  obtain ⟨hparams, hinbox, _, _, hhandles, hviews⟩ := SameOutside.atNotice s k
  refine ⟨?_, ?_, List.append_assoc .., ⟨hparams, hinbox, rfl, rfl, hhandles, hviews⟩, State.atNotice_hostMem s k, SameCalls.atNotice s k⟩
  · rw [← State.h_atNotice, State.h_def (s.atNotice k), hport]
    rfl
  · exact State.nextAnswer_atNotice s k .cr1

/-- A transfer command to the same instance finds it in flight and answers Busy (R109), and the EVENT ends from there. -/
theorem exec_event_transfer (h : callsBack s k) {i : Instr} {buf : Word} {len : BitVec 8}
    (hbody : s.script.nextBody = [.command s.port.inst (encode i)]) (hi : transferBuffer i = some (buf, len))
    (hw : i.wellFormed = true) (hf : buf.toNat + len.toNat ≤ 2 ^ 32) (hn : s.port.inst < s.params.nInst) :
    eventAnswers s (finishEvent (s.bodyDone k [.answer s.port.inst .busy])) := by
  have hends : endsWith s k := h.1
  obtain ⟨_, _, hmid, hbound, _⟩ := hends.exists_takes
  have hh : ((bodyStart s k []).nested s.port.inst).h = { s.h with error := endingError s.h k } := (s.bodyDone_branchDone k []).handle
  have hbusy : exec i ((bodyStart s k []).nested s.port.inst) = .next (((bodyStart s k []).nested s.port.inst).answer .busy) :=
    secondTransferReturnsBusy i buf len _ hi hw (by rw [hh]; exact hbound) hf (by rw [hh]; exact hends.state_ne_ready)
  obtain ⟨u, hu, hclose, _⟩ := exec_event_command h hbody hw (by rintro rfl; cases hi) hn hmid
  cases hu.symm.trans hbusy
  exact hclose (by rw [State.h_answer]; simp)

/-- Settles O43: the command answers Busy in the body, and the EVENT ends as one with a body that does nothing. -/
theorem callbackTransferReturnsBusy : Obligations.CallbackTransferReturnsBusy := by
  intro s k i buf len h hn hbody hi hw hf
  have hflight : s.h.state ≠ .ready := h.1.state_ne_ready
  have hdone := s.bodyDone_branchDone k [.answer s.port.inst .busy]
  refine ⟨_, exec_event_transfer h hbody hi hw hf hn, hdone.finish_handle hflight, ?_, ?_, hdone.finish_frame⟩
  · rw [hdone.finish_trace, ← List.append_assoc s.trace]
  · rw [finishEvent_refusalMark]
    exact State.atNotice_refusalMark s k

end Sys2Proof.Machine
end

section
/-! PROOFS. 41_control.md R120, R121: INIT and SETCB, each as one equation per branch; where one completes it answers Ok and writes
the handle on the port only. -/

namespace Sys2Proof.Machine

/-! ## The registry, read after a write (10_state.md R35) -/

@[simp] theorem Registry.get_set_same (r : Registry) (k : CbKind) (e : CbEntry) : (r.set k e).get k = e := by
  cases k <;> rfl

theorem Registry.get_set_ne {k k' : CbKind} (h : k' ≠ k) (r : Registry) (e : CbEntry) : (r.set k e).get k' = r.get k' := by
  revert h
  cases k <;> cases k' <;> simp [Registry.get, Registry.set]

/-! ## A configuration command that completes -/

/-- The answer Ok is put out; but for that and the handle on the port, `t` is `s`. -/
def ConfiguredOk (s t : State) : Prop :=
  t.trace = s.trace ++ [.answer s.port.inst .ok] ∧ t.views = s.views ∧ t.script = s.script ∧ t.draws = s.draws
    ∧ SameOutside s t ∧ SameMemory s t ∧ SameCalls s t ∧ t.refusalMark = s.refusalMark

/-- This frame holds for INIT too, which may bind another peripheral: the register views are not written at all. -/
theorem ConfiguredOk.modifyH_answer (s : State) (f : Handle → Handle) : ConfiguredOk s ((s.modifyH f).answer .ok) :=
  ⟨rfl, rfl, rfl, rfl, SameOutside.modifyH s f, fun _ => rfl, ⟨rfl, rfl⟩, rfl⟩

/-! ## INIT (41_control.md R120) -/

section
variable {p : BitVec 8} {s t : State}

theorem exec_init_idle (p : BitVec 8) (h : s.h.blkStage = .idle) :
    exec (.init p) s = .next ((s.modifyH (Handle.initialised p)).answer .ok) := by
  simp [exec, execInit, h]

theorem exec_init_blocking (p : BitVec 8) (h : s.h.blkStage ≠ .idle) :
    exec (.init p) s = .next (s.refuse .initDuringBlocking) := by
  simp [exec, execInit, h]

/-- An INIT after which no refusal is recorded was carried out. -/
theorem exec_init_carriedOut (e : exec (.init p) s = .next t) (hmark : t.refusalMark = false) :
    t = (s.modifyH (Handle.initialised p)).answer .ok := by
  by_cases h : s.h.blkStage = .idle
  · rw [exec_init_idle p h] at e
    cases e
    rfl
  · rw [exec_init_blocking p h] at e
    cases e
    cases hmark

end

/-- INIT takes nothing from the handle it finds but the registry, and leaves that unchanged. -/
theorem Handle.initialised_initialised (p : BitVec 8) (h : Handle) : (h.initialised p).initialised p = h.initialised p := rfl

/-- Settles O11: outside a blocking transfer INIT writes the initialised handle and answers Ok. -/
theorem initResetsHandle : Obligations.InitResetsHandle := by
  intro p s hidle
  refine ⟨_, exec_init_idle p hidle, ?_, ConfiguredOk.modifyH_answer s _⟩
  rw [State.h_answer, State.h_modifyH]
  rfl

/-- Settles O12: INIT checks BlkStage before anything else. -/
theorem initRefusedDuringBlocking : Obligations.InitRefusedDuringBlocking :=
  fun p _ hblocking => exec_init_blocking p hblocking

/-- Settles O13: the first INIT leaves BlkStage Idle, so that the second is carried out too, on the handle the first left. -/
theorem initIsIdempotent : Obligations.InitIsIdempotent := by
  intro p s t hfirst hmark
  have hh : t.h = s.h.initialised p := by
    rw [exec_init_carriedOut hfirst hmark, State.h_answer, State.h_modifyH]
  have hagain : t.h.initialised p = t.h := by rw [hh, Handle.initialised_initialised]
  refine ⟨_, exec_init_idle p (by rw [hh]; rfl), hmark, fun n => ?_⟩
  rw [State.handleAt_answer, State.handleAt_modifyH, hagain, State.h_def]
  split
  · next hn => rw [hn]
  · rfl

/-! ## SETCB (41_control.md R121) -/

section
variable (k : CbKind) {inst en : Bool} {hd : Word} {s : State}

/-- Bound is not among the checks. -/
theorem exec_setcb_carriedOut (hword : removalOk inst en hd = true) (hready : inst = true ∨ s.h.state = .ready) :
    exec (.setcb k inst en hd) s = .next ((s.modifyH (Handle.setCallback k (callbackEntry inst en hd))).answer .ok) := by
  obtain rfl | hstate := hready
  · simp [exec, execSetcb, hword]
  · simp [exec, execSetcb, hword, hstate]

theorem exec_setcb_inFlight (hword : removalOk false en hd = true) (hstate : s.h.state ≠ .ready) :
    exec (.setcb k false en hd) s = .next (s.refuse .removalInFlight) := by
  simp [exec, execSetcb, hword, hstate]

theorem exec_setcb_reserved (hword : removalOk inst en hd = false) :
    exec (.setcb k inst en hd) s = .next (s.refuse .reservedEncoding) := by
  simp [exec, execSetcb, hword]

end

/-- Settles O14: the entry of the kind is written into the registry of the handle on the port. -/
theorem setcbWritesOneEntry : Obligations.SetcbWritesOneEntry := by
  intro k inst en hd s hcond
  have hexec : exec (.setcb k inst en hd) s
      = .next ((s.modifyH (Handle.setCallback k (callbackEntry inst en hd))).answer .ok) := by
    obtain rfl | ⟨rfl, rfl, hstate⟩ := hcond
    · exact exec_setcb_carriedOut k rfl (.inl rfl)
    · exact exec_setcb_carriedOut k (by simp [removalOk]) (.inr hstate)
  refine ⟨_, hexec, ?_, fun k' hk => ?_, ?_, ConfiguredOk.modifyH_answer s _⟩ <;> rw [State.h_answer, State.h_modifyH]
  · exact Registry.get_set_same _ k _
  · exact Registry.get_set_ne hk _ _
  · rfl

/-- Settles O15: a removal is refused in flight, and with operands R75 reserves whatever the State. -/
theorem setcbRemovalRefused : Obligations.SetcbRemovalRefused := by
  refine fun k en hd s => ⟨exec_setcb_inFlight k (by decide), fun hoperands => exec_setcb_reserved k ?_⟩
  obtain rfl | hhandler := hoperands
  · rfl
  · simpa [removalOk] using fun _ => hhandler

end Sys2Proof.Machine
end

section
/-! PROOFS. 42_blocking.md R130 to R132: WRITE and READ where they arm; and, for them and for the polls, what one step put out and left
unchanged. -/

namespace Sys2Proof.Machine

/-! ## Inside one step -/

/-- From `s` the step being taken put out `items` and came to `t`: outside the instance on the port and its peripheral nothing changed
but, where the step says so, host memory and who waits for a blocking transfer. -/
structure PutsOut (s : State) (items : List TraceItem) (t : State) : Prop where
  trace : t.trace = s.trace ++ items
  outside : SameOutside s t
  periph : t.h.periphRef = s.h.periphRef
  mark : t.refusalMark = s.refusalMark

namespace PutsOut

variable {s t : State} {items : List TraceItem}

theorem refl (s : State) : PutsOut s [] s := ⟨(List.append_nil _).symm, .refl s, rfl, rfl⟩

theorem port (h : PutsOut s items t) : t.port = s.port := by
  obtain ⟨_, _, hport, _⟩ := h.outside
  exact hport

/-- A further part of the step, which puts out `more`. -/
theorem extend {u : State} {more : List TraceItem} (h : PutsOut s items t) (htrace : u.trace = t.trace ++ more)
    (houtside : SameOutside t u) (hperiph : u.h.periphRef = t.h.periphRef) (hmark : u.refusalMark = t.refusalMark) :
    PutsOut s (items ++ more) u where
  trace := by rw [htrace, h.trace, List.append_assoc]
  outside := h.outside.trans h.periph houtside
  periph := hperiph.trans h.periph
  mark := hmark.trans h.mark

/-- A further part of the step, which puts nothing out. -/
theorem quiet {u : State} (h : PutsOut s items t) (htrace : u.trace = t.trace) (houtside : SameOutside t u)
    (hperiph : u.h.periphRef = t.h.periphRef) (hmark : u.refusalMark = t.refusalMark) : PutsOut s items u :=
  ⟨htrace.trans h.trace, h.outside.trans h.periph houtside, hperiph.trans h.periph, hmark.trans h.mark⟩

theorem log (h : PutsOut s items t) (x : TraceItem) : PutsOut s (items ++ [x]) (t.log x) :=
  h.extend rfl (.log t x) rfl rfl

theorem answer (h : PutsOut s items t) (r : Result) : PutsOut s (items ++ [.answer s.port.inst r]) (t.answer r) := by
  rw [← h.port]
  exact h.log _

theorem afterPrd (h : PutsOut s items t) (r : PReg) :
    PutsOut s (items ++ [.regRead s.h.periphRef r (t.nextAnswer r)]) (t.afterPrd r) := by
  rw [← h.periph]
  exact h.extend (State.afterPrd_trace t r) (.afterPrd t r) rfl rfl

theorem pwr (h : PutsOut s items t) (r : PReg) (v : Word) : PutsOut s (items ++ [.regWrite s.h.periphRef r v]) (t.pwr r v) := by
  rw [← h.periph]
  exact h.extend (State.pwr_trace t r v) (.pwr t r v) rfl rfl

theorem modifyH (h : PutsOut s items t) {f : Handle → Handle} (hf : (f t.h).periphRef = t.h.periphRef) : PutsOut s items (t.modifyH f) :=
  h.quiet rfl (.modifyH t f) (by rw [State.h_modifyH, hf]) rfl

theorem noteCall (h : PutsOut s items t) : PutsOut s items t.noteCall :=
  h.quiet (State.noteCall_trace t) (.noteCall t) (by rw [State.h_noteCall]) (State.noteCall_refusalMark t)

theorem endCall (h : PutsOut s items t) (n : Nat) : PutsOut s items (t.endCall n) :=
  h.quiet rfl (.endCall t n) rfl rfl

/-- A byte stored to host memory. -/
theorem store (h : PutsOut s items t) (a : Word) (v : Byte) :
    PutsOut s (items ++ [.memWrite a v]) (({ t with hostMem := Memory.store t.hostMem a v }).log (.memWrite a v)) :=
  h.extend rfl ⟨rfl, rfl, rfl, rfl, fun _ _ => rfl, fun _ _ => rfl⟩ rfl rfl

end PutsOut

/-! ## Arming (40_framing.md R104, R110) -/

section
variable (op : Operation) (dev : BitVec 7) (reg : Word) (w : BitVec 3) (buf : Word) (len : BitVec 8) (h : Handle)

@[simp] theorem Handle.armed_periphRef : (h.armed op dev reg w buf len).periphRef = h.periphRef := by simp [Handle.armed]

@[simp] theorem Handle.armed_devAddr : (h.armed op dev reg w buf len).devAddr = dev := by
  unfold Handle.armed Handle.setState; split <;> rfl

@[simp] theorem Handle.armed_len : (h.armed op dev reg w buf len).len = len := by
  unfold Handle.armed Handle.setState; split <;> rfl

end

theorem lenOk_of_mayArm {buf : Word} {len : BitVec 8} {s : State} (h : mayArm s buf len) : lenOk len = true := by
  obtain ⟨hlen, _⟩ := h
  exact bne_iff_ne.2 hlen

theorem ready_of_mayArm {buf : Word} {len : BitVec 8} {s : State} (h : mayArm s buf len) : s.h.state = .ready := by
  obtain ⟨_, _, _, hready, _⟩ := h
  exact hready

/-- Where `mayArm` holds, the checks of R110 pass with one ISR read, and the command goes on to what it starts. -/
theorem transfer_of_mayArm {ok : Bool} {buf : Word} {len : BitVec 8} {s : State} (start : State → State) (hok : ok = true)
    (h : mayArm s buf len) : transfer ok buf len start s = start (s.afterPrd .isr) := by
  obtain ⟨_, hbound, hfits, hready, hflag⟩ := h
  have hidle : s.isBusy = false := State.isBusy_eq_false.2 ⟨hready, hflag⟩
  simp [transfer, hok, hbound, bufferFits_iff.2 hfits, hidle, State.afterCheckIdle_ready hready]

/-! ## Arming a blocking transfer (42_blocking.md R130) -/

@[simp] theorem State.noteCall_fgCall (s : State) :
    s.noteCall.fgCall = if s.port.agent = .foreground then some s.port.inst else s.fgCall := by
  unfold State.noteCall
  cases s.port.agent <;> rfl

theorem Operation.isMemory_of_blocking {op : Operation} (h : op.isAsync = false) : op.isMemory = false :=
  Bool.eq_false_iff.2 fun hm => Bool.eq_false_iff.1 h (Operation.isAsync_of_isMemory hm)

section
variable {op : Operation} (hop : op.isAsync = false) (dev : BitVec 7) (buf : Word) (len : BitVec 8)
include hop

theorem firstFrame_armed_blocking (reg : Word) (w : BitVec 3) (h : Handle) :
    firstFrame (h.armed op dev reg w buf len) op = frame dev len op.dir .autoEnd := by
  simp [firstFrame, Operation.isMemory_of_blocking hop]

/-- Arming a blocking operation writes ICR and the one control word, and enables no interrupt (R104, R105). -/
theorem State.arm_blocking (reg : Word) (w : BitVec 3) (s : State) :
    s.arm op dev reg w buf len
      = ((s.modifyH (Handle.armed op dev reg w buf len)).pwr .icr icrBOTH).pwr .cr2 (frame dev len op.dir .autoEnd) := by
  simp only [State.arm, hop, Bool.false_eq_true, if_false, State.h_pwr, State.h_modifyH, firstFrame_armed_blocking hop]

theorem PutsOut.blkStart {s t : State} {items : List TraceItem} (h : PutsOut s items t) :
    PutsOut s (items ++ [.regWrite s.h.periphRef .icr 0x30] ++ [.regWrite s.h.periphRef .cr2 (frame dev len op.dir .autoEnd)])
      (t.blkStart op dev buf len) := by
  rw [State.blkStart, State.arm_blocking hop]
  have hfields := h.modifyH (f := Handle.armed op dev 0 0 buf len) (Handle.armed_periphRef ..)
  have hwrites := (hfields.pwr .icr icrBOTH).pwr .cr2 (frame dev len op.dir .autoEnd)
  exact (hwrites.modifyH (f := Handle.startPolling) rfl).noteCall

/-- The foreground waits for the blocking transfer it armed, and for no other agent's. -/
theorem State.blkStart_waits (u : State) :
    (u.blkStart op dev buf len).fgCall = (if u.port.agent = .foreground then some u.port.inst else u.fgCall)
      ∧ (u.blkStart op dev buf len).suspended = u.suspended := by
  rw [State.blkStart, State.arm_blocking hop]
  exact ⟨State.noteCall_fgCall _, State.noteCall_suspended _⟩

end

/-- The handle of a blocking transfer that has just been armed. -/
theorem State.h_blkStart {u : State} (hready : u.h.state = .ready) (op : Operation) (dev : BitVec 7) (buf : Word) (len : BitVec 8) :
    (u.blkStart op dev buf len).h
      = { armedHandle u.h op (initState op) dev 0 0 buf len with blkStage := .byte, pollCount := 0 } := by
  obtain ⟨hh, _⟩ := State.arm_frame op dev 0 0 buf len u
  rw [State.blkStart, State.h_noteCall, State.h_modifyH, hh, Handle.armed_of_ready hready]
  rfl

/-- WRITE and READ where they arm, before the result (R130 to R132). -/
def ArmsBlocking (op : Operation) (dev : BitVec 7) (buf : Word) (len : BitVec 8) (s t : State) : Prop :=
  t.h = { armedHandle s.h op (initState op) dev 0 0 buf len with blkStage := .byte, pollCount := 0 }
    ∧ t.trace = s.trace ++ [.regRead s.h.periphRef .isr (s.nextAnswer .isr), .regWrite s.h.periphRef .icr 0x30,
        .regWrite s.h.periphRef .cr2 (frame dev len op.dir .autoEnd)]
    ∧ t.fgCall = (if s.port.agent = .foreground then some s.port.inst else s.fgCall) ∧ t.suspended = s.suspended
    ∧ SameOutside s t ∧ SameMemory s t ∧ t.refusalMark = s.refusalMark

theorem ArmsBlocking.blkStart {op : Operation} (hop : op.isAsync = false) (dev : BitVec 7) (buf : Word) (len : BitVec 8) {s : State}
    (hready : s.h.state = .ready) : ArmsBlocking op dev buf len s ((s.afterPrd .isr).blkStart op dev buf len) := by
  obtain ⟨htrace, houtside, _, hmark⟩ := ((PutsOut.refl s).afterPrd .isr).blkStart hop dev buf len
  obtain ⟨hfg, hsusp⟩ := State.blkStart_waits hop dev buf len (s.afterPrd .isr)
  have hh := State.h_blkStart (u := s.afterPrd .isr) hready op dev buf len
  rw [State.h_afterPrd] at hh
  refine ⟨hh, htrace, hfg, hsusp, houtside, fun a => ?_, hmark⟩
  rw [State.blkStart_hostMem, State.afterPrd_hostMem]

/-- Settles O16: the checks pass, and WRITE arms. -/
theorem writeArms : Obligations.WriteArms := by
  intro dev buf len s h
  have hchecks := transfer_of_mayArm (State.blkStart .write dev buf len) (lenOk_of_mayArm h) h
  exact ⟨_, congrArg Host.Outcome.next hchecks, ArmsBlocking.blkStart (op := .write) rfl dev buf len (ready_of_mayArm h)⟩

/-- Settles O17: the checks pass, and READ arms. -/
theorem readArms : Obligations.ReadArms := by
  intro dev buf len s h
  have hchecks := transfer_of_mayArm (State.blkStart .read dev buf len) (lenOk_of_mayArm h) h
  exact ⟨_, congrArg Host.Outcome.next hchecks, ArmsBlocking.blkStart (op := .read) rfl dev buf len (ready_of_mayArm h)⟩

end Sys2Proof.Machine
end

section
/-! PROOFS. 42_blocking.md R133: one equation for each outcome of a poll of a transfer in progress, and what each leaves. -/

namespace Sys2Proof.Machine

variable {s : State}

/-! ## The outcomes -/

theorem blkPoll_idle (h : s.h.blkStage = .idle) : blkPoll s = .next s := if_pos h

theorem blkPoll_inProgress (h : s.h.blkStage ≠ .idle) : blkPoll s = pollOn (s.nextAnswer .isr) (s.afterPrd .isr) := if_neg h

theorem blkPoll_nack (hs : s.h.blkStage ≠ .idle) (hn : nackEv (s.nextAnswer .isr) = true) :
    blkPoll s = .next
      ((((s.afterPrd .isr).pwr .icr icrNACK).modifyH (Handle.withError .notAcknowledged)).blkEnd .notAcknowledged) := by
  rw [blkPoll_inProgress hs, pollOn, if_pos hn]

theorem blkPoll_complete (hs : s.h.blkStage = .ending) (hn : nackEv (s.nextAnswer .isr) = false)
    (hc : cpEv (s.nextAnswer .isr) = true) : blkPoll s = .next (((s.afterPrd .isr).pwr .icr icrSTOP).blkEnd .ok) := by
  simp [blkPoll, pollOn, hs, hn, hc]

/-- No progress, in the words of R133's conditions. -/
theorem noProgress_iff {v : Word} (hs : s.h.blkStage ≠ .idle) : noProgress s.h v ↔
    nackEv v = false ∧ ¬ (s.h.blkStage = .byte ∧ readyFlag s.h.operation v = true) ∧ ¬ (s.h.blkStage = .ending ∧ cpEv v = true) := by
  unfold noProgress
  refine and_congr_right fun _ => ?_
  cases hst : s.h.blkStage with
  | idle => exact absurd hst hs
  | byte => cases s.h.operation <;> simp [readyFlag, txEv, rxEv]
  | ending => simp [cpEv, and_assoc]

section
variable (hs : s.h.blkStage ≠ .idle) (hp : noProgress s.h (s.nextAnswer .isr))
include hs hp

theorem blkPoll_noProgress :
    blkPoll s = if s.h.pollCount + 1 = s.params.tPoll
      then .next (((s.afterPrd .isr).modifyH (Handle.withError .timeout)).blkEnd .timeout)
      else .next ((s.afterPrd .isr).modifyH Handle.pollMissed) := by
  obtain ⟨hn, hready, hcomplete⟩ := (noProgress_iff hs).1 hp
  simp only [blkPoll_inProgress hs, pollOn, State.h_afterPrd, hn, hready, hcomplete, Bool.false_eq_true, if_false]
  rfl

theorem blkPoll_exhausted (hlast : s.h.pollCount + 1 = s.params.tPoll) :
    blkPoll s = .next (((s.afterPrd .isr).modifyH (Handle.withError .timeout)).blkEnd .timeout) := by
  rw [blkPoll_noProgress hs hp, if_pos hlast]

theorem blkPoll_missed (hmore : s.h.pollCount + 1 ≠ s.params.tPoll) :
    blkPoll s = .next ((s.afterPrd .isr).modifyH Handle.pollMissed) := by
  rw [blkPoll_noProgress hs hp, if_neg hmore]

end

/-! ## A poll that ends the transfer -/

theorem endPolling_withError {h : Handle} (hs : h.state ≠ .ready) (e : ErrCode) : (h.withError e).endPolling = polledOut h e := by
  rw [Handle.endPolling, Handle.setState_ne (by simpa [Handle.withError] using hs)]
  rfl

theorem PutsOut.blkEnd {t : State} {items : List TraceItem} (h : PutsOut s items t) (r : Result) :
    PutsOut s (items ++ [.answer s.port.inst r]) (t.blkEnd r) :=
  ((h.modifyH (f := Handle.endPolling) (Handle.setState_periphRef _ _)).endCall _).answer r

@[simp] theorem State.blkEnd_params (r : Result) (t : State) : (t.blkEnd r).params = t.params := rfl

@[simp] theorem State.h_blkEnd (r : Result) (t : State) : (t.blkEnd r).h = t.h.endPolling := by simp [State.blkEnd]

theorem CallReturned.blkEnd {t : State} (hport : t.port = s.port) (h : SameCalls s t) (r : Result) :
    CallReturned s.port.inst s (t.blkEnd r) := by
  obtain ⟨hfg, hsusp⟩ := h
  constructor
  · show (if t.fgCall = some t.port.inst then none else t.fgCall) = _
    rw [hport, hfg]
  · show t.suspended.map (Waiting.ended t.port.inst) = _
    rw [hport, hsusp]
    rfl

/-- What every ending poll leaves: `e` is its Error, `r` its result, and before the result it puts out `items`. -/
def EndsPoll (s : State) (e : ErrCode) (r : Result) (items : List TraceItem) (t : State) : Prop :=
  t.h = polledOut s.h e ∧ t.trace = s.trace ++ (items ++ [.answer s.port.inst r]) ∧ CallReturned s.port.inst s t
    ∧ SameOutside s t ∧ SameMemory s t ∧ t.refusalMark = s.refusalMark

/-- BlkEnd after the accesses of the poll, none of them to host memory. -/
theorem EndsPoll.blkEnd {t : State} {items : List TraceItem} {e : ErrCode} (hs : s.h.state ≠ .ready) (h : PutsOut s items t)
    (ht : t.h = s.h.withError e) (hcalls : SameCalls s t) (hmem : t.hostMem = s.hostMem) (r : Result) :
    EndsPoll s e r items (t.blkEnd r) := by
  obtain ⟨htrace, houtside, _, hmark⟩ := h.blkEnd r
  refine ⟨?_, htrace, .blkEnd h.port hcalls r, houtside, fun a => congrArg (Memory.byteAt · a) hmem, hmark⟩
  rw [State.h_blkEnd, ht, endPolling_withError hs]

/-- Settles O25: NACKF is the first condition of a poll, and Error is written before the transfer ends. -/
theorem pollNackEndsTransfer : Obligations.PollNackEndsTransfer := by
  intro s hs hstate hn
  have hread := (PutsOut.refl s).afterPrd .isr
  have herror := (hread.pwr .icr icrNACK).modifyH (f := Handle.withError .notAcknowledged) rfl
  exact ⟨_, blkPoll_nack hs hn, EndsPoll.blkEnd hstate herror (by simp) ⟨by simp, by simp⟩ (by simp) .notAcknowledged⟩

/-- Settles O28: in the End stage a complete flag ends the transfer with the Error it had. -/
theorem pollCompletesTransfer : Obligations.PollCompletesTransfer := by
  intro s hs hstate hn hflags
  have hc : cpEv (s.nextAnswer .isr) = true := by simpa [cpEv, or_assoc] using hflags
  have hclear := ((PutsOut.refl s).afterPrd .isr).pwr .icr icrSTOP
  exact ⟨_, blkPoll_complete hs hn hc, EndsPoll.blkEnd hstate hclear (by simp [Handle.withError]) ⟨by simp, by simp⟩ (by simp) .ok⟩

/-! ## A poll without progress -/

theorem blkPoll_timeout (hs : s.h.blkStage ≠ .idle) (hstate : s.h.state ≠ .ready) (hp : noProgress s.h (s.nextAnswer .isr))
    (hlast : s.h.pollCount + 1 = s.params.tPoll) :
    ∃ t, blkPoll s = .next t ∧ EndsPoll s .timeout .timeout [.regRead s.h.periphRef .isr (s.nextAnswer .isr)] t := by
  have herror := ((PutsOut.refl s).afterPrd .isr).modifyH (f := Handle.withError .timeout) rfl
  exact ⟨_, blkPoll_exhausted hs hp hlast, .blkEnd hstate herror (by simp) ⟨by simp, by simp⟩ (by simp) .timeout⟩

/-- Settles O29: the poll counts, or is the one that reaches T_POLL. -/
theorem pollWithoutProgress : Obligations.PollWithoutProgress := by
  intro s hs hstate hp
  refine ⟨fun hmore => ?_, blkPoll_timeout hs hstate hp⟩
  obtain ⟨htrace, houtside, _, hmark⟩ := ((PutsOut.refl s).afterPrd .isr).modifyH (f := Handle.pollMissed) rfl
  exact ⟨_, blkPoll_missed hs hp hmore, State.h_modifyH _ _, htrace, houtside, fun _ => by simp, ⟨by simp, by simp⟩, hmark⟩

/-! ## A poll that moves a byte -/

theorem pollByte_write {v : Byte} (hop : s.h.operation = .write) (hv : Memory.byteAt s.hostMem (payloadAddr s.h) = some v) :
    pollByte s = .next (((s.log (.memRead (payloadAddr s.h) v)).pwr .txdr (dataWord v)).modifyH Handle.bytePolled) := by
  rw [pollByte, hop]
  exact memRead_some hv _

/-- The state after the received byte `v` was stored. -/
def State.received (v : Byte) (s : State) : State :=
  (({ s with hostMem := Memory.store s.hostMem (payloadAddr s.h) v }).log (.memWrite (payloadAddr s.h) v)).modifyH Handle.bytePolled

section
variable (v : Byte) (t : State)

@[simp] theorem State.received_params : (t.received v).params = t.params := rfl
@[simp] theorem State.received_fgCall : (t.received v).fgCall = t.fgCall := rfl
@[simp] theorem State.received_suspended : (t.received v).suspended = t.suspended := rfl

@[simp] theorem State.h_received : (t.received v).h = t.h.bytePolled := State.h_modifyH _ _

theorem State.byteAt_received (b : Word) :
    Memory.byteAt (t.received v).hostMem b = if payloadAddr t.h = b then some v else Memory.byteAt t.hostMem b :=
  Memory.byteAt_store ..

theorem PutsOut.received {t : State} {items : List TraceItem} (h : PutsOut s items t) :
    PutsOut s (items ++ [.memWrite (payloadAddr t.h) v]) (t.received v) :=
  (h.store (payloadAddr t.h) v).modifyH (f := Handle.bytePolled) rfl

end

theorem pollByte_read {old : Byte} (hop : s.h.operation ≠ .write) (hold : Memory.byteAt s.hostMem (payloadAddr s.h) = some old) :
    pollByte s = .next ((s.afterPrd .rxdr).received (dataByte (s.nextAnswer .rxdr))) := by
  unfold pollByte
  split
  · contradiction
  · exact congrArg (andThen · _) (memWrite_some (s := s.afterPrd .rxdr) _ hold)

theorem bytePolled_of_byte {h : Handle} (hs : h.blkStage = .byte) : h.bytePolled = { h with
    dataCount := h.dataCount + 1, pollCount := 0, blkStage := if h.dataCount + 1 = h.len then .ending else .byte } := by
  rw [Handle.bytePolled, hs]

/-- Settles O26: the byte is read from host memory, and written to TXDR before the counters are. -/
theorem pollSendsByte : Obligations.PollSendsByte := by
  intro s v hs hop hn hready hv
  have hpoll := blkPoll_ready hs hn (by rw [hop]; exact hready)
  rw [pollByte_write (s := s.afterPrd .isr) hop hv] at hpoll
  have hread := ((PutsOut.refl s).afterPrd .isr).log (.memRead (payloadAddr s.h) v)
  obtain ⟨htrace, houtside, _, hmark⟩ := (hread.pwr .txdr (dataWord v)).modifyH (f := Handle.bytePolled) rfl
  refine ⟨_, hpoll, ?_, htrace, houtside, fun _ => by simp, ⟨by simp, by simp⟩, hmark⟩
  rw [State.h_modifyH, State.h_pwr, State.h_log, State.h_afterPrd, bytePolled_of_byte hs]

/-- Settles O27: RXDR is read, and its byte stored before the counters are written. -/
theorem pollReceivesByte : Obligations.PollReceivesByte := by
  intro s old hs hop hn hready hold w
  have hpoll := blkPoll_ready hs hn (by rw [hop]; exact hready)
  rw [pollByte_read (s := s.afterPrd .isr) (by simp [hop]) hold] at hpoll
  obtain ⟨htrace, houtside, _, hmark⟩ := (((PutsOut.refl s).afterPrd .isr).afterPrd .rxdr).received (dataByte w)
  refine ⟨_, hpoll, ?handle, htrace, ?stored, fun b hb => ?others, houtside, ⟨by simp, by simp⟩, hmark⟩
  case handle => rw [State.h_received, State.h_afterPrd, State.h_afterPrd, bytePolled_of_byte hs]
  case stored => exact (State.byteAt_received ..).trans (if_pos rfl)
  case others => exact (State.byteAt_received ..).trans (if_neg hb.symm)

end Sys2Proof.Machine
end

section
/-! PROOFS. 42_blocking.md R134: how long a blocking transfer can take, in polls. -/

namespace Sys2Proof.Machine

variable {s t : State}

/-! ## What a poll can do to the handle -/

theorem pollByte_stuck_or_next (s : State) : pollByte s = .fault (.hostAccessStuck (payloadAddr s.h))
    ∨ ∃ t, pollByte s = .next t ∧ t.h = s.h.bytePolled ∧ t.params = s.params := by
  cases hmem : Memory.byteAt s.hostMem (payloadAddr s.h) with
  | none => exact .inl (pollByte_stuck hmem)
  | some v =>
    refine .inr ?_
    by_cases hop : s.h.operation = .write
    · exact ⟨_, pollByte_write hop hmem, by simp, by simp⟩
    · exact ⟨_, pollByte_read hop hmem, State.h_received .., State.received_params ..⟩

/-- What one poll made of the handle `h` of a transfer in progress. -/
inductive PolledTo (tPoll : Nat) (h : Handle) : Handle → Prop
  | ended {h' : Handle} (hidle : h'.blkStage = .idle) : PolledTo tPoll h h'
  | byte (hs : h.blkStage = .byte) : PolledTo tPoll h h.bytePolled
  | missed (hmore : h.pollCount + 1 ≠ tPoll) : PolledTo tPoll h h.pollMissed

theorem PolledTo.blkEnd (h : Handle) (tPoll : Nat) (r : Result) (t : State) : PolledTo tPoll h (t.blkEnd r).h :=
  .ended (by rw [State.h_blkEnd, Handle.endPolling])

/-- A poll of a transfer in progress is stuck, ends the transfer, moves a byte or counts. -/
theorem blkPoll_polledTo (hs : s.h.blkStage ≠ .idle) : (∃ a, blkPoll s = .fault (.hostAccessStuck a))
    ∨ ∃ t, blkPoll s = .next t ∧ t.params = s.params ∧ PolledTo s.params.tPoll s.h t.h := by
  rw [blkPoll_inProgress hs]
  rcases pollOn_cases (s.nextAnswer .isr) (s.afterPrd .isr) with
    ⟨_, e⟩ | ⟨_, hbyte, _, e⟩ | ⟨_, _, _, e⟩ | ⟨_, _, e⟩ | ⟨_, hmore, e⟩ <;> rw [e]
  · exact .inr ⟨_, rfl, by simp, .blkEnd ..⟩
  · rcases pollByte_stuck_or_next (s.afterPrd .isr) with hstuck | ⟨t, ht, hh, hparams⟩
    · exact .inl ⟨_, hstuck⟩
    · refine .inr ⟨t, ht, hparams, ?_⟩
      rw [hh]
      exact .byte hbyte
  · exact .inr ⟨_, rfl, by simp, .blkEnd ..⟩
  · exact .inr ⟨_, rfl, by simp, .blkEnd ..⟩
  · refine .inr ⟨_, rfl, by simp, ?_⟩
    rw [State.h_modifyH]
    exact .missed hmore

/-! ## The polls left (R134) -/

namespace Handle

/-- How many flags a transfer still waits for: one for each byte left, and one for its end. -/
def waitsLeft (h : Handle) : Nat :=
  match h.blkStage with
  | .idle => 0
  | .byte => h.len.toNat - h.dataCount.toNat + 1
  | .ending => 1

/-- A bound on the polls that a transfer can still take: T_POLL for each flag it waits for, less those counted. -/
def pollsLeft (tPoll : Nat) (h : Handle) : Nat := h.waitsLeft * tPoll - h.pollCount

/-- What every poll keeps, and the bound rests on. -/
structure Polling (tPoll : Nat) (h : Handle) : Prop where
  pollLt : h.pollCount < tPoll
  byteLeft : h.blkStage = .byte → h.dataCount.toNat < h.len.toNat

variable {tPoll : Nat} {h h' : Handle}

theorem waitsLeft_byte (hs : h.blkStage = .byte) : h.waitsLeft = h.len.toNat - h.dataCount.toNat + 1 := by rw [waitsLeft, hs]

theorem waitsLeft_ending (hs : h.blkStage = .ending) : h.waitsLeft = 1 := by rw [waitsLeft, hs]

theorem waitsLeft_pos (hs : h.blkStage ≠ .idle) : 0 < h.waitsLeft := by
  cases hst : h.blkStage with
  | idle => exact absurd hst hs
  | byte => rw [waitsLeft_byte hst]; exact Nat.succ_pos _
  | ending => rw [waitsLeft_ending hst]; exact Nat.one_pos

theorem Polling.pollsLeft_pos (hp : h.Polling tPoll) (hs : h.blkStage ≠ .idle) : 0 < h.pollsLeft tPoll :=
  Nat.sub_pos_of_lt (hp.pollLt.trans_le (Nat.le_mul_of_pos_left _ (waitsLeft_pos hs)))

theorem Polling.pollMissed (hp : h.Polling tPoll) (hmore : h.pollCount + 1 ≠ tPoll) : h.pollMissed.Polling tPoll :=
  ⟨Nat.lt_of_le_of_ne hp.pollLt hmore, hp.byteLeft⟩

theorem Polling.pollsLeft_pollMissed (hp : h.Polling tPoll) (hs : h.blkStage ≠ .idle) :
    h.pollMissed.pollsLeft tPoll < h.pollsLeft tPoll :=
  Nat.sub_succ_lt_self _ _ (Nat.lt_of_sub_pos (hp.pollsLeft_pos hs))

section
variable (hp : h.Polling tPoll) (hs : h.blkStage = .byte)
include hp hs

theorem Polling.toNat_dataCount_succ : (h.dataCount + 1).toNat = h.dataCount.toNat + 1 := by
  have := hp.byteLeft hs
  have := h.len.isLt
  bv_omega

/-- After the last byte the transfer waits for its end, else for the next byte. -/
theorem Polling.bytePolled_stage :
    h.bytePolled.blkStage = if h.dataCount.toNat + 1 = h.len.toNat then .ending else .byte := by
  rw [bytePolled_of_byte hs]
  exact if_congr (by rw [← BitVec.toNat_inj, hp.toNat_dataCount_succ hs]) rfl rfl

theorem Polling.bytePolled : h.bytePolled.Polling tPoll := by
  refine ⟨Nat.zero_lt_of_lt hp.pollLt, fun hbyte => ?_⟩
  have hlt := hp.byteLeft hs
  have hmore : h.dataCount.toNat + 1 ≠ h.len.toNat := fun hlast => by simp [hp.bytePolled_stage hs, hlast] at hbyte
  show (h.dataCount + 1).toNat < h.len.toNat
  rw [hp.toNat_dataCount_succ hs]
  omega

theorem Polling.waitsLeft_bytePolled : h.waitsLeft = h.bytePolled.waitsLeft + 1 := by
  have hlt := hp.byteLeft hs
  have hstage := hp.bytePolled_stage hs
  rw [waitsLeft_byte hs]
  by_cases hlast : h.dataCount.toNat + 1 = h.len.toNat
  · rw [if_pos hlast] at hstage
    rw [waitsLeft_ending hstage]
    omega
  · rw [if_neg hlast] at hstage
    rw [waitsLeft_byte hstage]
    show _ = h.len.toNat - (h.dataCount + 1).toNat + 1 + 1
    rw [hp.toNat_dataCount_succ hs]
    omega

/-- The polls for the byte moved are over, and of those left none is counted yet. -/
theorem Polling.pollsLeft_bytePolled : h.bytePolled.pollsLeft tPoll < h.pollsLeft tPoll := by
  have hlt := hp.pollLt
  show h.bytePolled.waitsLeft * tPoll - 0 < _
  rw [pollsLeft, hp.waitsLeft_bytePolled hs, Nat.succ_mul]
  omega

end

theorem Polling.polledTo (hp : h.Polling tPoll) (hs : h.blkStage ≠ .idle) (hto : PolledTo tPoll h h') :
    h'.blkStage = .idle ∨ (h'.Polling tPoll ∧ h'.pollsLeft tPoll < h.pollsLeft tPoll) := by
  cases hto with
  | ended hidle => exact .inl hidle
  | byte hbyte => exact .inr ⟨hp.bytePolled hbyte, hp.pollsLeft_bytePolled hbyte⟩
  | missed hmore => exact .inr ⟨hp.pollMissed hmore, hp.pollsLeft_pollMissed hs⟩

end Handle

/-! ## The bound -/

theorem blkPolls_idle (h : s.h.blkStage = .idle) (k : Nat) : blkPolls k s = .next s := by
  induction k with
  | zero => rfl
  | succ k ih => rw [blkPolls, blkPoll_idle h, andThen_next, ih]

/-- As many polls as are left end the transfer, unless one is stuck. -/
theorem blkPolls_over (k : Nat) (hp : s.h.Polling s.params.tPoll) (hk : s.h.pollsLeft s.params.tPoll ≤ k) :
    (∃ a, blkPolls k s = .fault (.hostAccessStuck a)) ∨ ∃ t, blkPolls k s = .next t ∧ t.h.blkStage = .idle := by
  induction k generalizing s with
  | zero =>
    refine .inr ⟨s, rfl, by_contra fun hs => ?_⟩
    have := hp.pollsLeft_pos hs
    omega
  | succ k ih =>
    by_cases hs : s.h.blkStage = .idle
    · exact .inr ⟨s, blkPolls_idle hs _, hs⟩
    · rw [blkPolls]
      rcases blkPoll_polledTo hs with ⟨a, e⟩ | ⟨t, e, hparams, hto⟩ <;> rw [e]
      · exact .inl ⟨a, rfl⟩
      · rw [andThen_next]
        rcases hp.polledTo hs hto with hidle | ⟨hp', hless⟩
        · exact .inr ⟨t, blkPolls_idle hidle _, hidle⟩
        · exact ih (hparams ▸ hp') (by rw [hparams]; omega)

/-- Settles O31: at the arming at most (Len + 1) · T_POLL polls are left, and each poll leaves fewer. -/
theorem blockingEndsWithinBound : Obligations.BlockingEndsWithinBound := by
  intro s hpos hs hcount hdata
  refine blkPolls_over _ ⟨by rw [hcount]; exact hpos, fun _ => hdata⟩ ?_
  rw [Handle.pollsLeft, Handle.waitsLeft_byte hs]
  exact (Nat.sub_le _ _).trans (Nat.mul_le_mul_right _ (Nat.succ_le_succ (Nat.sub_le _ _)))

/-! ## A silent peripheral -/

theorem noProgress_zero (h : Handle) : noProgress h 0 := by simp [noProgress]

theorem State.nextAnswer_isr {v : Word} (h : s.script.isr[0]? = some v) : s.nextAnswer .isr = v := by
  unfold State.nextAnswer Script.answers
  cases hl : s.script.isr with
  | nil => simp [hl] at h
  | cons w ws => simpa [hl] using h

theorem blkPolls_succ (k : Nat) (s : State) : blkPolls (k + 1) s = andThen (blkPolls k s) blkPoll := by
  induction k generalizing s with
  | zero => cases h : blkPoll s <;> simp [blkPolls, h]
  | succ k ih =>
    rw [blkPolls]
    cases h : blkPoll s with
    | next t => rw [andThen_next, ih, blkPolls, h, andThen_next]
    | fault | refused => rw [blkPolls, h]; rfl

/-- `t` comes after `k` polls of `s` that all read a status word 0, fewer than T_POLL of them. -/
structure SilentPolls (k : Nat) (s t : State) : Prop where
  polls : blkPolls k s = .next t
  handle : t.h = { s.h with pollCount := k }
  params : t.params = s.params
  port : t.port = s.port
  answers : t.script.isr = s.script.isr.drop k
  memory : t.hostMem = s.hostMem

theorem SilentPolls.silent {k : Nat} (h : SilentPolls k s t) (hk : s.script.isr[k]? = some 0) : noProgress t.h (t.nextAnswer .isr) := by
  rw [State.nextAnswer_isr (v := 0) (by rw [h.answers, List.getElem?_drop, Nat.add_zero, hk])]
  exact noProgress_zero _

theorem SilentPolls.succ {k : Nat} (h : SilentPolls k s t) (hs : s.h.blkStage ≠ .idle) (hk : s.script.isr[k]? = some 0)
    (hmore : k + 1 ≠ s.params.tPoll) : SilentPolls (k + 1) s ((t.afterPrd .isr).modifyH Handle.pollMissed) where
  polls := by
    rw [blkPolls_succ, h.polls, andThen_next]
    exact blkPoll_missed (by rw [h.handle]; exact hs) (h.silent hk) (by rw [h.handle, h.params]; exact hmore)
  handle := by
    rw [State.h_modifyH, State.h_afterPrd, h.handle]
    rfl
  params := h.params
  port := h.port
  answers := by
    rw [State.modifyH_script, State.afterPrd_script, Script.dropAnswer, h.answers, List.tail_drop]
  memory := h.memory

theorem SilentPolls.of_lt (hs : s.h.blkStage ≠ .idle) (hcount : s.h.pollCount = 0)
    (hsilent : ∀ k, k < s.params.tPoll → s.script.isr[k]? = some 0) (k : Nat) (hk : k < s.params.tPoll) : ∃ t, SilentPolls k s t := by
  induction k with
  | zero => exact ⟨s, rfl, by rw [← hcount], rfl, rfl, rfl, rfl⟩
  | succ k ih =>
    obtain ⟨t, ht⟩ := ih (Nat.lt_of_succ_lt hk)
    exact ⟨_, ht.succ hs (hsilent k (Nat.lt_of_succ_lt hk)) hk.ne⟩

/-- Settles O32: each poll before the T_POLL-th counts, and that one ends the transfer. -/
theorem silentPeripheralTimesOut : Obligations.SilentPeripheralTimesOut := by
  intro s hpos hs hstate hcount hsilent
  have hbusy : s.h.blkStage ≠ .idle := by simp [hs]
  have hbefore := SilentPolls.of_lt hbusy hcount hsilent
  refine ⟨fun k hk => ?_, ?_⟩
  · obtain ⟨t, ht⟩ := hbefore k hk
    exact ⟨t, ht.polls, ht.handle⟩
  · obtain ⟨k, hk⟩ := Nat.exists_eq_add_one_of_ne_zero hpos.ne'
    have hlt : k < s.params.tPoll := by omega
    obtain ⟨t, ht⟩ := hbefore k hlt
    obtain ⟨u, hu, hh, htrace, _, _, hmem, _⟩ := blkPoll_timeout (s := t) (by rw [ht.handle]; exact hbusy)
      (by rw [ht.handle]; exact hstate) (ht.silent (hsilent k hlt)) (by rw [ht.handle, ht.params, hk])
    refine ⟨u, ?_, ?_, ?_, ?_⟩
    · rw [hk, blkPolls_succ, ht.polls, andThen_next, hu]
    · rw [hh, ht.handle]
      rfl
    · rw [htrace, ht.port]
      simp
    · exact fun a => (hmem a).trans (by rw [ht.memory])

end Sys2Proof.Machine
end

section
/-! PROOFS. 43_async.md R150 to R154: WRITEA, READA, MEMWRA and MEMRDA where they arm. -/

namespace Sys2Proof.Machine

/-! ## Arming an async transfer (R150, 40_framing.md R104, R105) -/

theorem PutsOut.enableInts {s t : State} {items : List TraceItem} (h : PutsOut s items t) (m : Word) :
    PutsOut s (items ++ [.regRead s.h.periphRef .cr1 (t.nextAnswer .cr1)] ++ [.regWrite s.h.periphRef .cr1 (t.nextAnswer .cr1 ||| m)])
      (t.enableInts m) :=
  (h.afterPrd .cr1).pwr .cr1 _

section
variable {op : Operation} (hop : op.isAsync = true) (dev : BitVec 7) (reg : Word) (w : BitVec 3) (buf : Word) (len : BitVec 8)
include hop

/-- Arming an async operation enables its interrupts between ICR and the first control word. -/
theorem State.arm_async (s : State) :
    s.arm op dev reg w buf len
      = (((s.modifyH (Handle.armed op dev reg w buf len)).pwr .icr icrBOTH).enableInts (ieMask op)).pwr .cr2
          (firstFrame (s.h.armed op dev reg w buf len) op) := by
  simp only [State.arm, hop, if_true, State.h_enableInts, State.h_pwr, State.h_modifyH]

/-- After CheckIdle read ISR, an async arming puts out the accesses of R150 and the result, and changes nothing outside. -/
theorem PutsOut.asyncStart (s : State) :
    PutsOut s (asyncAccesses s (ieMask op) (firstFrame (s.h.armed op dev reg w buf len) op))
      ((s.afterPrd .isr).asyncStart op dev reg w buf len) := by
  rw [State.asyncStart, State.arm_async hop]
  have hfields := ((PutsOut.refl s).afterPrd .isr).modifyH (f := Handle.armed op dev reg w buf len) (Handle.armed_periphRef ..)
  exact (((hfields.pwr .icr icrBOTH).enableInts (ieMask op)).pwr .cr2 _).answer .ok

end

/-- What the four async commands leave where they arm (R151 to R154): the fields, the accesses with the first control word `cr2`, and
nothing else. -/
def ArmsAsync (op : Operation) (dev : BitVec 7) (reg : Word) (w : BitVec 3) (buf : Word) (len : BitVec 8) (s t : State) : Prop :=
  let h := armedHandle s.h op (initState op) dev reg w buf len
  t.h = h ∧ t.trace = s.trace ++ asyncAccesses s (ieMask op) (firstFrame h op)
    ∧ SameOutside s t ∧ SameMemory s t ∧ SameCalls s t ∧ t.refusalMark = s.refusalMark

/-- Where the checks of R110 pass, the command arms and answers Ok. -/
theorem ArmsAsync.transfer {op : Operation} (hop : op.isAsync = true) {ok : Bool} {buf : Word} {len : BitVec 8} {s : State}
    (hok : ok = true) (h : mayArm s buf len) (dev : BitVec 7) (reg : Word) (w : BitVec 3) :
    ArmsAsync op dev reg w buf len s (transfer ok buf len (State.asyncStart op dev reg w buf len) s) := by
  rw [transfer_of_mayArm _ hok h]
  have hready := ready_of_mayArm h
  obtain ⟨htrace, houtside, _, hmark⟩ := PutsOut.asyncStart hop dev reg w buf len s
  obtain ⟨hh, _, _, _, hcalls, _⟩ := State.arm_frame op dev reg w buf len (s.afterPrd .isr)
  rw [State.h_afterPrd, Handle.armed_of_ready hready] at hh
  rw [Handle.armed_of_ready hready] at htrace
  refine ⟨hh, htrace, houtside, fun a => ?_, hcalls, hmark⟩
  rw [State.asyncStart_hostMem, State.afterPrd_hostMem]

/-! ## The four commands -/

/-- Settles O18: the mask of WriteAsync is 0x72, and its single phase writes. -/
theorem writeaArms : Obligations.WriteaArms :=
  fun dev _ _ _ h => ⟨_, rfl, ArmsAsync.transfer (op := .writeAsync) rfl (lenOk_of_mayArm h) h dev 0 0⟩

/-- Settles O19: the mask of ReadAsync is 0x74, and its single phase reads. -/
theorem readaArms : Obligations.ReadaArms :=
  fun dev _ _ _ h => ⟨_, rfl, ArmsAsync.transfer (op := .readAsync) rfl (lenOk_of_mayArm h) h dev 0 0⟩

theorem operandsOk_of_mayArm {w : BitVec 3} {buf : Word} {len : BitVec 8} {s : State} (hpos : 1 ≤ w.toNat) (hle : w.toNat ≤ 4)
    (h : mayArm s buf len) : (widthOk w && lenOk len) = true := by
  rw [lenOk_of_mayArm h, widthOk_iff.2 ⟨hpos, hle⟩, Bool.and_true]

/-- Settles O20: the mask of MemoryWrite is 0x72, and its addressing phase counts the offset bytes and holds the bus. -/
theorem memwraArms : Obligations.MemwraArms :=
  fun dev reg w _ _ _ hpos hle h => ⟨_, rfl, ArmsAsync.transfer (op := .memoryWrite) rfl (operandsOk_of_mayArm hpos hle h) h dev reg w⟩

/-- Settles O21: the mask of MemoryRead is 0x76, and its addressing phase writes, as every one does. -/
theorem memrdaArms : Obligations.MemrdaArms :=
  fun dev reg w _ _ _ hpos hle h => ⟨_, rfl, ArmsAsync.transfer (op := .memoryRead) rfl (operandsOk_of_mayArm hpos hle h) h dev reg w⟩

end Sys2Proof.Machine
end

section
/-! PROOFS. 43_async.md R155: every change of State is a row of the transition table. For each command what it can do to State, and the
guards it then passed. -/

namespace Sys2Proof.Machine

variable {s t : State}

/-! ## Transfer commands (40_framing.md R104, R109) -/

@[simp] theorem Handle.armed_state (op : Operation) (dev : BitVec 7) (reg : Word) (w : BitVec 3) (buf : Word) (len : BitVec 8)
    (h : Handle) : (h.armed op dev reg w buf len).state = initState op :=
  Handle.setState_state _ _

@[simp] theorem State.h_afterCheckIdle (s : State) : s.afterCheckIdle.h = s.h := by
  unfold State.afterCheckIdle; split <;> rfl

theorem State.asyncStart_state (op : Operation) (dev : BitVec 7) (reg : Word) (w : BitVec 3) (buf : Word) (len : BitVec 8) (s : State) :
    (s.asyncStart op dev reg w buf len).h.state = initState op := by
  obtain ⟨hh, _⟩ := State.arm_frame op dev reg w buf len s
  rw [State.asyncStart, State.h_answer, hh, Handle.armed_state]

theorem State.blkStart_state (op : Operation) (dev : BitVec 7) (buf : Word) (len : BitVec 8) (s : State) :
    (s.blkStart op dev buf len).h.state = initState op := by
  obtain ⟨hh, _⟩ := State.arm_frame op dev 0 0 buf len s
  rw [State.blkStart, State.h_noteCall, State.h_modifyH, hh]
  exact Handle.armed_state ..

/-- A transfer command changes State only where CheckIdle passes, to the State of what it starts. -/
theorem transfer_state (ok : Bool) (buf : Word) (len : BitVec 8) {start : State → State} {st : BusState} (s : State)
    (hstart : ∀ u, (start u).h.state = st) :
    (transfer ok buf len start s).h.state = s.h.state
      ∨ ((s.h.state = .ready ∧ (s.nextAnswer .isr).getLsbD 15 = false) ∧ (transfer ok buf len start s).h.state = st) := by
  rcases transfer_cases ok buf len start s with ⟨_, e⟩ | ⟨_, _, e⟩ | ⟨_, _, _, e⟩ | ⟨_, _, _, _, e⟩ | ⟨_, _, _, hidle, e⟩ <;> rw [e]
  · exact .inl rfl
  · exact .inl rfl
  · exact .inl rfl
  · exact .inl (by rw [State.h_answer, State.h_afterCheckIdle])
  · exact .inr ⟨State.isBusy_eq_false.1 hidle, hstart _⟩

/-! ## Configuration commands (41_control.md R120, R121) -/

theorem exec_init_state {p : BitVec 8} (e : exec (.init p) s = .next t) :
    t.h.state = s.h.state ∨ (s.h.blkStage = .idle ∧ t.h.state = .ready) := by
  by_cases hidle : s.h.blkStage = .idle
  · rw [exec_init_idle p hidle] at e
    cases e
    refine .inr ⟨hidle, ?_⟩
    rw [State.h_answer, State.h_modifyH]
    rfl
  · rw [exec_init_blocking p hidle] at e
    cases e
    exact .inl rfl

/-- SETCB writes the registry at most. -/
theorem exec_setcb_state {k : CbKind} {inst en : Bool} {hd : Word} (e : exec (.setcb k inst en hd) s = .next t) :
    t.h.state = s.h.state := by
  simp only [exec, execSetcb] at e
  split at e
  · cases e; rfl
  · split at e <;> cases e
    · rfl
    · rw [State.h_answer, State.h_modifyH]
      rfl

/-! ## EVENT (44_dispatcher.md R170 to R178) -/

/-- A dispatcher invocation that takes no branch, refused, unbound or not applicable, leaves the handle as it is and begins no body. -/
theorem eventStep_noBranch (hno : ∀ b, ¬ takes s b) (e : eventStep s = .next t) : t.h = s.h ∧ t.calls = s.calls := by
  unfold eventStep at e
  split at e
  · cases e; exact ⟨rfl, rfl⟩
  · next hfree =>
    obtain ⟨hin, hmid⟩ : s.inBody s.port.inst = false ∧ s.midEvent s.port.inst = false := by simpa using hfree
    split at e
    · cases e; exact ⟨rfl, rfl⟩
    · next hbound =>
      have hnone : takenBranch s.h (s.nextAnswer .isr) = none :=
        Option.eq_none_iff_forall_ne_some.2 fun b ht => hno b ⟨hin, hmid, by simpa using hbound, ht⟩
      simp only [eventOn, State.h_afterPrd, hnone] at e
      cases e
      exact ⟨rfl, rfl⟩

theorem exec_event_noBranch (hc : s.calls = []) (hno : ∀ b, ¬ takes s b) (e : exec .event s = .next t) : t.h = s.h := by
  obtain ⟨u, hu, hrun⟩ := andThen_eq_next.1 e
  obtain ⟨hh, hcalls⟩ := eventStep_noBranch hno hu
  rw [State.runCallbacks_nil (hcalls.trans hc)] at hrun
  cases hrun
  exact hh

/-- An EVENT whose branch begins no body is over with its branch. -/
theorem runBranch_of_exec_event {b : Branch} (ht : takes s b) (hc : s.calls = [])
    (hnone : ∀ u, runBranch b (s.afterPrd .isr) = .next u → u.calls = s.calls) (e : exec .event s = .next t) :
    runBranch b (s.afterPrd .isr) = .next t := by
  rw [exec_event_takes ht] at e
  obtain ⟨u, hu, hrun⟩ := andThen_eq_next.1 e
  rw [State.runCallbacks_nil ((hnone u hu).trans hc)] at hrun
  cases hrun
  exact hu

/-- A branch that moves a byte leaves State, and begins no body. -/
theorem runBranch_byte_state {b : Branch} (hb : b = .rx ∨ b = .tx) (e : runBranch b s = .next t) :
    t.h.state = s.h.state ∧ t.calls = s.calls := by
  obtain rfl | rfl := hb
  · obtain ⟨u, hu, e⟩ := andThen_eq_next.1 e
    obtain ⟨_, rfl⟩ := memWrite_eq_next.1 hu
    cases e
    refine ⟨?_, rfl⟩
    rw [State.h_answer, State.h_modifyH]
    rfl
  · simp only [runBranch] at e
    split at e
    · cases e
      refine ⟨?_, rfl⟩
      rw [State.h_answer, txOffsetBranch, State.h_modifyH]
      rfl
    · obtain ⟨v, _, e⟩ := memRead_eq_next.1 e
      cases e
      refine ⟨?_, rfl⟩
      rw [State.h_answer, State.h_modifyH]
      rfl

/-- The CP branch in the addressing phase goes on to the data phase, and begins no body. -/
theorem runBranch_cp_addressing (hs : s.h.state = .busyAddressingSubphase) (e : runBranch .cp s = .next t) :
    t.h.state = dataState s.h.operation ∧ t.calls = s.calls := by
  rw [runBranch, if_pos hs] at e
  cases e
  refine ⟨?_, rfl⟩
  rw [State.h_answer, cpOffsetBranch, State.h_pwr, State.h_setState, Handle.setState_state]

theorem finishEvent_state (s : State) : (finishEvent s).h.state = .ready := by
  rw [finishEvent, State.h_answer, State.h_terminate, Handle.setState_state]

/-- A notification with no scripted body ends the EVENT in Ready, whether or not a body runs. -/
theorem notify_unscripted_state {k : CbKind} (hc : s.calls = []) (hb : s.script.bodies = [])
    (e : (notify k s).runCallbacks = .next t) : t.h.state = .ready := by
  unfold notify at e
  split at e
  · rw [State.runCallbacks_empty (p := s.port) (by rw [State.beginBody_calls, hc, Script.nextBody_nil hb])] at e
    cases e
    exact finishEvent_state _
  · rw [State.runCallbacks_nil (s := finishEvent s) hc] at e
    cases e
    exact finishEvent_state _

theorem exec_event_endsWith_state {k : CbKind} (h : endsWith s k) (hc : s.calls = []) (hb : s.script.bodies = [])
    (e : exec .event s = .next t) : t.h.state = .ready := by
  rw [exec_event_endsWith h] at e
  exact notify_unscripted_state (by rw [State.atNotice_calls, hc]) (by rw [State.atNotice_script, Script.dropAnswer_bodies, hb]) e

theorem completionKind_of_async {op : Operation} (h : op.isAsync = true) : ∃ k, completionKind op = some k := by
  cases op <;> simp_all [Operation.isAsync, completionKind]

/-- An EVENT changes State at the end of the addressing phase, to that of the data phase, or where it ends the transfer, to Ready. -/
theorem exec_event_state (hc : s.calls = []) (hb : s.script.bodies = []) (e : exec .event s = .next t) :
    t.h.state = s.h.state
      ∨ (takes s .cp ∧ s.h.state = .busyAddressingSubphase ∧ t.h.state = dataState s.h.operation)
      ∨ ((∃ k, endsWith s k) ∧ t.h.state = .ready) := by
  by_cases hno : ∀ b, ¬ takes s b
  · exact .inl (congrArg Handle.state (exec_event_noBranch hc hno e))
  obtain ⟨b, ht⟩ : ∃ b, takes s b := by simpa using hno
  have hends {k : CbKind} (hk : endsWith s k) : (∃ k, endsWith s k) ∧ t.h.state = .ready :=
    ⟨⟨k, hk⟩, exec_event_endsWith_state hk hc hb e⟩
  have hbyte (hmoves : b = .rx ∨ b = .tx) : t.h.state = s.h.state :=
    have hmove {u : State} := runBranch_byte_state (s := s.afterPrd .isr) (t := u) hmoves
    (hmove (runBranch_of_exec_event ht hc (fun _ hu => (hmove hu).2) e)).1
  cases b with
  | nack => exact .inr (.inr (hends (.inl ⟨ht, rfl⟩)))
  | rx => exact .inl (hbyte (.inl rfl))
  | tx => exact .inl (hbyte (.inr rfl))
  | cp =>
    by_cases hs : s.h.state = .busyAddressingSubphase
    · have hphase {u : State} := runBranch_cp_addressing (s := s.afterPrd .isr) (t := u) hs
      exact .inr (.inl ⟨ht, hs, (hphase (runBranch_of_exec_event ht hc (fun _ hu => (hphase hu).2) e)).1⟩)
    · have ⟨_, _, _, htaken⟩ := ht
      obtain ⟨k, hk⟩ := completionKind_of_async (async_of_cp (applicable_of_takenBranch htaken))
      exact .inr (.inr (hends (.inr ⟨ht, hs, hk⟩)))

/-- Those changes are rows of EVENT: an addressing phase belongs to a memory operation (10_state.md R38), and a transfer that ends was in
flight. -/
theorem exec_event_row (hi : s.Inv) (hb : s.script.bodies = []) (e : exec .event s = .next t) :
    t.h.state = s.h.state ∨ transitionRow s.h (s.nextAnswer .isr) .event t.h.state := by
  rcases exec_event_state hi.noNest hb e with hsame | ⟨⟨_, _, _, hcp⟩, hs, hdest⟩ | ⟨⟨k, hk⟩, hdest⟩
  · exact .inl hsame
  · obtain ⟨hmem, _⟩ := (hi.handlesInv s.port.inst).addressing hs
    rcases dataState_of_isMemory hmem with ⟨hop, hdata⟩ | ⟨hop, hdata⟩
    · exact .inr (.inl ⟨hcp, hs, hop, hdest.trans hdata⟩)
    · exact .inr (.inr (.inl ⟨hcp, hs, hop, hdest.trans hdata⟩))
  · have hflight := hk.state_ne_ready
    rcases hk with ⟨⟨_, _, _, hnack⟩, _⟩ | ⟨⟨_, _, _, hcp⟩, hs, _⟩
    · exact .inr (.inr (.inr (.inr ⟨hnack, hflight, async_of_nack (applicable_of_takenBranch hnack), hdest⟩)))
    · have hphase : s.h.state = .busyTransmitting ∨ s.h.state = .busyReceiving := by
        cases hst : s.h.state <;> simp_all
      exact .inr (.inr (.inr (.inl ⟨hcp, hphase, async_of_cp (applicable_of_takenBranch hcp), hdest⟩)))

/-! ## Polls (42_blocking.md R133) -/

@[simp] theorem Handle.endPolling_state (h : Handle) : h.endPolling.state = .ready := Handle.setState_state .ready h

/-- A poll leaves State, or ends the transfer that was in progress. -/
theorem blkPoll_state (e : blkPoll s = .next t) : t.h.state = s.h.state ∨ (s.h.blkStage ≠ .idle ∧ t.h.state = .ready) := by
  by_cases hidle : s.h.blkStage = .idle
  · rw [blkPoll_idle hidle] at e
    cases e
    exact .inl rfl
  rw [blkPoll_inProgress hidle] at e
  rcases pollOn_cases (s.nextAnswer .isr) (s.afterPrd .isr) with ⟨_, hp⟩ | ⟨_, _, _, hp⟩ | ⟨_, _, _, hp⟩ | ⟨_, _, hp⟩ | ⟨_, _, hp⟩ <;>
    rw [hp] at e
  case inr.inl =>
    obtain ⟨_, hh⟩ := pollByte_eq_next e
    exact .inl (by rw [hh]; rfl)
  case inr.inr.inr.inr =>
    cases e
    exact .inl (by rw [State.h_modifyH]; rfl)
  all_goals cases e; exact .inr ⟨hidle, by rw [State.h_blkEnd, Handle.endPolling_state]⟩

/-- A blocking transfer in progress is in its data phase (10_state.md R38). -/
theorem Handle.Inv.dataPhase_of_blocking {tPoll : Nat} {h : Handle} (hi : h.Inv tPoll) (hs : h.blkStage ≠ .idle) :
    (h.state = .busyTransmitting ∨ h.state = .busyReceiving) ∧ h.operation.isBlocking = true := by
  obtain ⟨hflight, hblocking⟩ := hi.blocking.1 hs
  refine ⟨?_, hblocking⟩
  cases hst : h.state with
  | ready => exact absurd hst hflight
  | busyAddressingSubphase => exact absurd (hi.idle_of_addressing hst) hs
  | busyTransmitting => exact .inl rfl
  | busyReceiving => exact .inr rfl

/-! ## The table -/

theorem exec_row {i : Instr} (hi : s.Inv) (hb : s.script.bodies = []) (e : exec i s = .next t) :
    t.h.state = s.h.state ∨ transitionRow s.h (s.nextAnswer .isr) i t.h.state := by
  cases i with
  | init p => exact exec_init_state e
  | setcb k inst en hd => exact .inl (exec_setcb_state e)
  | write dev buf len => cases e; exact transfer_state _ _ _ s (State.blkStart_state .write dev buf len)
  | read dev buf len => cases e; exact transfer_state _ _ _ s (State.blkStart_state .read dev buf len)
  | writea dev buf len => cases e; exact transfer_state _ _ _ s (State.asyncStart_state .writeAsync dev 0 0 buf len)
  | reada dev buf len => cases e; exact transfer_state _ _ _ s (State.asyncStart_state .readAsync dev 0 0 buf len)
  | memwra dev reg w buf len => cases e; exact transfer_state _ _ _ s (State.asyncStart_state .memoryWrite dev reg w buf len)
  | memrda dev reg w buf len => cases e; exact transfer_state _ _ _ s (State.asyncStart_state .memoryRead dev reg w buf len)
  | event => exact exec_event_row hi hb e

/-- Settles O57: each command passes the guard of its row where it changes State, and a poll changes State where it ends a transfer. -/
theorem stateChangesAreTableRows : Obligations.StateChangesAreTableRows := by
  intro i s t hi hb
  refine ⟨exec_row hi hb, fun e => ?_⟩
  rcases blkPoll_state e with hsame | ⟨hs, hdest⟩
  · exact .inl hsame
  · obtain ⟨hphase, hblocking⟩ := (hi.handlesInv s.port.inst).dataPhase_of_blocking hs
    exact .inr ⟨hphase, hblocking, hdest⟩

end Sys2Proof.Machine
end

section
/-! PROOFS. 44_dispatcher.md R170, R171: the branch an EVENT takes, as the flag that selects it and the handle that lets it apply. -/

namespace Sys2Proof.Machine

/-- No fall-through (R170): the branch taken is the one selected. -/
theorem takenBranch_eq_some_iff {h : Handle} {v : Word} {b : Branch} :
    takenBranch h v = some b ↔ selectBranch v = some b ∧ applicable h b = true := by
  unfold takenBranch
  cases selectBranch v with
  | none => simp
  | some c =>
    simp only [Option.ite_none_right_eq_some, Option.some.injEq]
    exact and_comm.trans (and_congr_right fun hc => by rw [hc])

/-! ## The precedence of the flags (R170) -/

section
variable (v : Word)

theorem selectBranch_nack_iff : selectBranch v = some .nack ↔ nackEv v = true := by
  unfold selectBranch
  split_ifs <;> simp_all

theorem selectBranch_rx_iff : selectBranch v = some .rx ↔ nackEv v = false ∧ rxEv v = true := by
  unfold selectBranch
  split_ifs <;> simp_all

theorem selectBranch_tx_iff : selectBranch v = some .tx ↔ nackEv v = false ∧ rxEv v = false ∧ txEv v = true := by
  unfold selectBranch
  split_ifs <;> simp_all

theorem selectBranch_cp_iff :
    selectBranch v = some .cp ↔ nackEv v = false ∧ rxEv v = false ∧ txEv v = false ∧ cpEv v = true := by
  unfold selectBranch
  split_ifs <;> simp_all

end

/-! ## Applicability (R171) -/

/-- An async transfer is in flight. -/
def Handle.AsyncBusy (h : Handle) : Prop := h.state ≠ .ready ∧ h.operation ≠ .write ∧ h.operation ≠ .read

section
variable (h : Handle)

theorem applicable_nack_iff : applicable h .nack = true ↔ h.AsyncBusy := by
  simp [applicable, Handle.AsyncBusy, Operation.isAsync_iff]

theorem applicable_cp_iff : applicable h .cp = true ↔ h.AsyncBusy := applicable_nack_iff h

theorem applicable_rx_iff : applicable h .rx = true ↔ h.AsyncBusy ∧ h.state = .busyReceiving ∧ h.dataCount < h.len := by
  simp only [applicable, Handle.AsyncBusy, Bool.and_eq_true, beq_iff_eq, decide_eq_true_eq, Operation.isAsync_iff]
  constructor
  · rintro ⟨⟨hs, hop⟩, hlt⟩
    exact ⟨⟨by simp [hs], hop⟩, hs, hlt⟩
  · rintro ⟨⟨_, hop⟩, hs, hlt⟩
    exact ⟨⟨hs, hop⟩, hlt⟩

theorem applicable_tx_iff : applicable h .tx = true ↔ (h.state = .busyAddressingSubphase ∧ h.offsetCount < h.regWidth)
    ∨ (h.AsyncBusy ∧ h.state = .busyTransmitting ∧ h.dataCount < h.len) := by
  simp only [applicable, Handle.AsyncBusy, Bool.or_eq_true, Bool.and_eq_true, beq_iff_eq, decide_eq_true_eq, Operation.isAsync_iff]
  refine or_congr_right ⟨?_, ?_⟩
  · rintro ⟨⟨hs, hop⟩, hlt⟩
    exact ⟨⟨by simp [hs], hop⟩, hs, hlt⟩
  · rintro ⟨⟨_, hop⟩, hs, hlt⟩
    exact ⟨⟨hs, hop⟩, hlt⟩

end

/-- Settles O33: the flags select in their precedence, and the branch selected is taken where it is applicable. -/
theorem branchOfEvent : Obligations.BranchOfEvent := by
  intro h v nack rx tx cp busy
  refine ⟨?nack, ?rx, ?tx, ?cp⟩ <;> rw [takenBranch_eq_some_iff]
  case nack => rw [selectBranch_nack_iff, applicable_nack_iff]; rfl
  case rx => rw [selectBranch_rx_iff, applicable_rx_iff, and_assoc]; rfl
  case tx => rw [selectBranch_tx_iff, applicable_tx_iff, and_assoc, and_assoc]; rfl
  case cp => rw [selectBranch_cp_iff, applicable_cp_iff, and_assoc, and_assoc, and_assoc]; rfl

end Sys2Proof.Machine
end

section
/-! PROOFS. 44_dispatcher.md R172 to R178: what an EVENT leaves, branch by branch, where no callback body issues a command. -/

namespace Sys2Proof.Machine

variable {s t : State} {k : CbKind}

/-! ## An EVENT that is over -/

/-- An EVENT is over in `t` where the bodies that run are those that ran before it. -/
theorem eventAnswers_of_calls (hexec : exec .event s = t.runCallbacks) (hcalls : t.calls = s.calls) : eventAnswers s t :=
  ⟨fun hc => hexec.trans (State.runCallbacks_nil (hcalls.trans hc)), hexec⟩

/-- What an EVENT that writes no host memory leaves: the handle `h`, what it put out, and nothing else. -/
def EventLeaves (s : State) (h : Handle) (items : List TraceItem) (t : State) : Prop :=
  eventAnswers s t ∧ t.h = h ∧ t.trace = s.trace ++ items ∧ SameOutside s t ∧ SameMemory s t ∧ SameCalls s t
    ∧ t.refusalMark = s.refusalMark

theorem SameOutside.calls (h : SameOutside s t) : t.calls = s.calls := by
  obtain ⟨_, _, _, hcalls, _⟩ := h
  exact hcalls

/-- A branch that begins no body ends the EVENT. -/
theorem eventAnswers_of_branch {b : Branch} (ht : takes s b) (hrun : runBranch b (s.afterPrd .isr) = .next t) (hout : SameOutside s t) :
    eventAnswers s t := by
  refine eventAnswers_of_calls ?_ hout.calls
  rw [exec_event_takes ht, hrun, andThen_next]

/-- A branch that begins no body and writes no host memory, by what it put out. -/
theorem PutsOut.eventLeaves {b : Branch} {h : Handle} {items : List TraceItem} (hput : PutsOut s items t) (ht : takes s b)
    (hrun : runBranch b (s.afterPrd .isr) = .next t) (hh : t.h = h) (hmem : t.hostMem = s.hostMem) (hcalls : SameCalls s t) :
    EventLeaves s h items t := by
  obtain ⟨htrace, hout, _, hmark⟩ := hput
  exact ⟨eventAnswers_of_branch ht hrun hout, hh, htrace, hout, fun a => congrArg (Memory.byteAt · a) hmem, hcalls, hmark⟩

/-! ## A received byte (R173) -/

/-- The state after the received byte `v` was stored, and counted. -/
def State.eventReceived (v : Byte) (s : State) : State :=
  (({ s with hostMem := Memory.store s.hostMem (payloadAddr s.h) v }).log (.memWrite (payloadAddr s.h) v)).modifyH Handle.countData

theorem State.byteAt_eventReceived (v : Byte) (s : State) (b : Word) :
    Memory.byteAt (s.eventReceived v).hostMem b = if payloadAddr s.h = b then some v else Memory.byteAt s.hostMem b :=
  Memory.byteAt_store ..

theorem rxBranch_allocated {old : Byte} (hold : Memory.byteAt s.hostMem (payloadAddr s.h) = some old) :
    rxBranch s = .next (((s.afterPrd .rxdr).eventReceived (dataByte (s.nextAnswer .rxdr))).answer .ok) :=
  congrArg (andThen · _) (memWrite_some (s := s.afterPrd .rxdr) _ hold)

theorem PutsOut.eventReceived {items : List TraceItem} (h : PutsOut s items t) (v : Byte) :
    PutsOut s (items ++ [.memWrite (payloadAddr t.h) v]) (t.eventReceived v) :=
  (h.store (payloadAddr t.h) v).modifyH (f := Handle.countData) rfl

@[simp] theorem State.h_eventReceived (v : Byte) (s : State) : (s.eventReceived v).h = s.h.countData := State.h_modifyH _ _
@[simp] theorem State.eventReceived_fgCall (v : Byte) (s : State) : (s.eventReceived v).fgCall = s.fgCall := rfl
@[simp] theorem State.eventReceived_suspended (v : Byte) (s : State) : (s.eventReceived v).suspended = s.suspended := rfl

/-- Settles O35: RXDR is read, its byte stored, and then counted. -/
theorem eventRxBranch : Obligations.EventRxBranch := by
  intro s old ht hold w
  have hread := ((PutsOut.refl s).afterPrd .isr).afterPrd .rxdr
  obtain ⟨htrace, hout, _, hmark⟩ := (hread.eventReceived (dataByte w)).answer .ok
  have hans := eventAnswers_of_branch ht (rxBranch_allocated (s := s.afterPrd .isr) hold) hout
  refine ⟨_, hans, ?handle, htrace, ?stored, fun b hb => ?others, hout, ⟨by simp, by simp⟩, hmark⟩
  case handle => rw [State.h_answer, State.h_eventReceived, State.h_afterPrd, State.h_afterPrd, Handle.countData]
  case stored => exact (State.byteAt_eventReceived ..).trans (if_pos rfl)
  case others => exact (State.byteAt_eventReceived ..).trans (if_neg hb.symm)

/-! ## A sent byte (R174, R175) -/

/-- Settles O36: the offset byte is written to TXDR before it is counted. -/
theorem eventTxOffsetBranch : Obligations.EventTxOffsetBranch := by
  intro s ht hs
  have hsend := ((PutsOut.refl s).afterPrd .isr).pwr .txdr (dataWord (offByte s.h s.h.offsetCount.toNat))
  have hput := (hsend.modifyH (f := Handle.countOffset) rfl).answer .ok
  exact ⟨_, hput.eventLeaves (h := s.h.countOffset) ht (if_pos hs) (by simp) (by simp) ⟨by simp, by simp⟩⟩

theorem txDataBranch_allocated {v : Byte} (hv : Memory.byteAt s.hostMem (payloadAddr s.h) = some v) :
    txDataBranch s
      = .next ((((s.log (.memRead (payloadAddr s.h) v)).pwr .txdr (dataWord v)).modifyH Handle.countData).answer .ok) :=
  memRead_some hv _

/-- Settles O37: the host byte is read, written to TXDR, and then counted. -/
theorem eventTxDataBranch : Obligations.EventTxDataBranch := by
  intro s v ht hs hv
  have hrun : runBranch .tx (s.afterPrd .isr) = txDataBranch (s.afterPrd .isr) := if_neg (by simp [hs])
  rw [txDataBranch_allocated (s := s.afterPrd .isr) hv] at hrun
  have hsend := (((PutsOut.refl s).afterPrd .isr).log (.memRead (payloadAddr s.h) v)).pwr .txdr (dataWord v)
  have hput := (hsend.modifyH (f := Handle.countData) rfl).answer .ok
  exact ⟨_, hput.eventLeaves (h := s.h.countData) ht hrun (by simp) (by simp) ⟨by simp, by simp⟩⟩

/-! ## The end of the addressing phase (R176) -/

theorem dataState_eq (op : Operation) : dataState op = if op = .memoryWrite then .busyTransmitting else .busyReceiving := by
  cases op <;> rfl

theorem dataDir_eq (op : Operation) : dataDir op = if op = .memoryWrite then .write else .read := by
  cases op <;> rfl

theorem dataState_ne_addressing (op : Operation) : dataState op ≠ .busyAddressingSubphase := by
  cases op <;> simp [dataState]

/-- The end of the addressing phase, which OffsetCount does not enter. -/
theorem eventLeaves_cpOffset (ht : takes s .cp) (hs : s.h.state = .busyAddressingSubphase) :
    EventLeaves s (s.h.setState (dataState s.h.operation))
      [.regRead s.h.periphRef .isr (s.nextAnswer .isr), .regWrite s.h.periphRef .icr icrSTOP,
        .regWrite s.h.periphRef .cr2 (frame s.h.devAddr s.h.len (dataDir s.h.operation) .autoEnd), .answer s.port.inst .ok]
      ((cpOffsetBranch (s.afterPrd .isr)).answer .ok) := by
  have hclear := ((PutsOut.refl s).afterPrd .isr).pwr .icr icrSTOP
  have hphase := hclear.modifyH (f := Handle.setState (dataState s.h.operation)) (Handle.setState_periphRef _ _)
  have hput := (hphase.pwr .cr2 (frame s.h.devAddr s.h.len (dataDir s.h.operation) .autoEnd)).answer .ok
  exact hput.eventLeaves ht (if_pos hs) (by simp) (by simp) ⟨by simp, by simp⟩

/-- Settles O38: STOPF is cleared, State goes on to the data phase, and its control word is written. -/
theorem eventCpOffsetBranch : Obligations.EventCpOffsetBranch := by
  intro s ht hs
  have hleaves := eventLeaves_cpOffset ht hs
  rw [Handle.setState_ne (by rw [hs]; exact (dataState_ne_addressing _).symm), hs, dataState_eq, dataDir_eq] at hleaves
  exact ⟨_, hleaves⟩

/-! ## The end of an async transfer (R172, R177) -/

/-- What an ending EVENT puts out before Terminate, where no body issues a command. -/
def quietAccesses (s : State) (k : CbKind) : List TraceItem :=
  [.regRead s.h.periphRef .isr (s.nextAnswer .isr), .regWrite s.h.periphRef .icr (if k = .notAcknowledged then 0x10 else 0x20)]
    ++ notification s k

theorem State.atNotice_branchDone (hmuted : ¬ ((s.h.cb.get k).installed = true ∧ (s.h.cb.get k).enabled = true)) :
    BranchDone s k (quietAccesses s k) (s.atNotice k) where
  handle := State.h_atNotice s k
  cr1 := State.nextAnswer_atNotice s k .cr1
  trace := by
    rw [quietAccesses, notification, if_neg hmuted]
    refine List.append_cancel_right ((State.atNotice_trace s k).trans ?_)
    simp [endingAccesses]
  outside := .atNotice s k
  memory := State.atNotice_hostMem s k
  waits := .atNotice s k

theorem State.bodyDone_nil (s : State) (k : CbKind) :
    s.bodyDone k [] = { bodyStart s k [] with port := s.port, calls := s.calls } := by
  rw [State.bodyDone, List.append_nil]
  rfl

/-- Whether an empty body runs or none, an ending EVENT comes to Terminate with its notification put out and nothing else done. -/
theorem endsWith.exists_branchDone (h : endsWith s k) (hquiet : quietNotice s k) :
    ∃ u, exec .event s = (finishEvent u).runCallbacks ∧ BranchDone s k (quietAccesses s k) u ∧ u.refusalMark = s.refusalMark := by
  by_cases hd : (s.h.cb.get k).installed = true ∧ (s.h.cb.get k).enabled = true
  · have hbody : s.script.nextBody = [] := by
      rcases hquiet with hempty | hmuted | hmuted
      · exact hempty
      · simp [hmuted] at hd
      · simp [hmuted] at hd
    refine ⟨s.bodyDone k [], ?_, ?_, State.atNotice_refusalMark s k⟩
    · rw [exec_event_callsBack ⟨h, hd⟩, hbody, State.bodyDone_nil]
      exact State.runCallbacks_done rfl
    · have hput : quietAccesses s k = endingAccesses s k ++ [] := by simp [quietAccesses, notification, endingAccesses, hd]
      rw [hput]
      exact s.bodyDone_branchDone k []
  · refine ⟨s.atNotice k, ?_, State.atNotice_branchDone hd, State.atNotice_refusalMark s k⟩
    rw [exec_event_endsWith h, notify_muted (by simpa using hd)]

/-- Terminate then ends the transfer. -/
theorem endsWith.exists_eventLeaves (h : endsWith s k) (hquiet : quietNotice s k) :
    ∃ t, EventLeaves s { s.h with error := endingError s.h k, previousState := s.h.state, state := .ready }
      (quietAccesses s k ++ terminateAccesses s ++ [.answer s.port.inst .ok]) t := by
  obtain ⟨u, hexec, hdone, hmark⟩ := h.exists_branchDone hquiet
  obtain ⟨hout, hmem, hcalls⟩ := hdone.finish_frame
  refine ⟨finishEvent u, eventAnswers_of_calls hexec hout.calls, hdone.finish_handle h.state_ne_ready, ?_, hout, hmem, hcalls, ?_⟩
  · simpa only [List.append_assoc] using hdone.finish_trace
  · rw [finishEvent_refusalMark, hmark]

/-- Settles O34: Error is written and NACKF cleared before the notification, and Terminate comes after it. -/
theorem eventNackBranch : Obligations.EventNackBranch := by
  intro s ht hquiet
  obtain ⟨t, hans, hh, htrace, hframe⟩ := endsWith.exists_eventLeaves (.inl ⟨ht, rfl⟩) hquiet
  refine ⟨t, hans, hh, ?_, hframe⟩
  simpa [quietAccesses] using htrace

/-- Settles O39: STOPF is cleared before the notification, Error stays, and Terminate comes last. -/
theorem eventCpDataBranch : Obligations.EventCpDataBranch := by
  intro s k ht hs hk hquiet
  have hne := completionKind_ne_notAcknowledged hk
  obtain ⟨t, hans, hh, htrace, hframe⟩ := endsWith.exists_eventLeaves (.inr ⟨ht, hs, hk⟩) hquiet
  refine ⟨t, hans, ?_, ?_, hframe⟩
  · simpa [endingError, hne] using hh
  · simpa [quietAccesses, hne] using htrace

/-! ## No branch (R178) -/

section
variable (hin : s.inBody s.port.inst = false) (hmid : s.midEvent s.port.inst = false)
include hin hmid

theorem exec_event_noneTaken (hbound : s.h.bound = true) (hnone : takenBranch s.h (s.nextAnswer .isr) = none) :
    exec .event s = ((s.afterPrd .isr).answer .ok).runCallbacks := by
  show andThen (eventStep s) _ = _
  rw [eventStep_bound hin hmid hbound]
  simp [eventOn, hnone]

theorem exec_event_unbound (hbound : s.h.bound = false) : exec .event s = (s.answer .ok).runCallbacks := by
  show andThen (eventStep s) _ = _
  simp [eventStep, hin, hmid, hbound]

end

/-- Settles O40: past its checks EVENT reads ISR and answers, and the read clears no flag. -/
theorem eventWithoutBranch : Obligations.EventWithoutBranch := by
  intro s hin hmid
  refine ⟨fun hbound hnone => ?_, fun hbound => eventAnswers_of_calls (exec_event_unbound hin hmid hbound) rfl⟩
  obtain ⟨htrace, hout, _, hmark⟩ := ((PutsOut.refl s).afterPrd .isr).answer .ok
  obtain ⟨hflags, _⟩ := registerAccessSideEffects s 0 0 (by decide)
  have hans := eventAnswers_of_calls (exec_event_noneTaken hin hmid hbound hnone) rfl
  exact ⟨_, hans, rfl, htrace, hflags, hout, fun _ => rfl, ⟨rfl, rfl⟩, hmark⟩

/-! ## After a NACK (R180) -/

/-- Settles O59: the NACK branch leaves Ready, in which no later EVENT takes a branch. -/
theorem nackEndsByteTraffic : Obligations.NackEndsByteTraffic := by
  intro s t u v ht hc hb hexec hport hhandles hcu hmid hv
  obtain ⟨t', ⟨hans, _⟩, hh, _⟩ := eventNackBranch s ht (.inl (Script.nextBody_nil hb))
  cases hexec.symm.trans (hans hc)
  have huh : u.h = t.h := by rw [State.h_def, State.h_def, hport, State.handleAt, State.handleAt, hhandles]
  obtain ⟨_, _, hbound, _⟩ := ht
  have hready : u.h.state = .ready := by rw [huh, hh]
  obtain ⟨x, ⟨hx, _⟩, hsame, htrace, _, _, hmem, _⟩ :=
    (eventWithoutBranch u (by simp [State.inBody, hcu]) hmid).1 (by rw [huh, hh]; exact hbound) (takenBranch_ready hready)
  exact ⟨x, hx hcu, hsame, hmem, by rw [htrace, hv]⟩

end Sys2Proof.Machine
end

section
/-! PROOFS. 44_dispatcher.md R179: how many accesses of each kind one EVENT makes. -/

namespace Sys2Proof.Machine

variable {s : State}

/-- The numbers of accesses that R179 allows one EVENT. -/
def EventAccesses (l : List TraceItem) : Prop :=
  l.countP (TraceItem.reads .isr) ≤ 1 ∧ l.countP (TraceItem.reads .rxdr) + l.countP (TraceItem.writes .txdr) ≤ 1
    ∧ l.countP TraceItem.touchesHost ≤ 1 ∧ l.countP (TraceItem.writes .icr) + l.countP (TraceItem.writes .cr2) ≤ 2
    ∧ l.countP (TraceItem.reads .cr1) ≤ 1 ∧ l.countP (TraceItem.writes .cr1) ≤ 1

/-- One EVENT of `s` meets a stuck host access, or completes within those numbers. -/
def EventBounded (s : State) : Prop :=
  (∃ a, exec .event s = .fault (.hostAccessStuck a)) ∨ ∃ t l, eventAnswers s t ∧ t.trace = s.trace ++ l ∧ EventAccesses l

/-- The accesses of one EVENT are few and known, so the numbers are counted along the list. -/
theorem EventBounded.of_completes {t : State} {l : List TraceItem} (hans : eventAnswers s t) (htrace : t.trace = s.trace ++ l)
    (hl : EventAccesses l := by simp [EventAccesses, List.countP_cons, TraceItem.reads, TraceItem.writes, TraceItem.touchesHost]) :
    EventBounded s :=
  .inr ⟨t, l, hans, htrace, hl⟩

/-! ## An EVENT that takes no branch -/

/-- EVENT is refused inside an EVENT of the same instance (60_exceptions.md R210). -/
theorem eventBounded_nested (h : (s.inBody s.port.inst || s.midEvent s.port.inst) = true) : EventBounded s := by
  have hrefused : exec .event s = (s.refuse .nestedEvent).runCallbacks := congrArg (andThen · State.runCallbacks) (if_pos h)
  exact .of_completes (eventAnswers_of_calls hrefused rfl) (State.refuse_trace s _)

theorem eventBounded_free (hin : s.inBody s.port.inst = false) (hmid : s.midEvent s.port.inst = false) (hno : ∀ b, ¬ takes s b) :
    EventBounded s := by
  obtain ⟨hnone, hunbound⟩ := eventWithoutBranch s hin hmid
  cases hbound : s.h.bound with
  | true =>
    have htaken : takenBranch s.h (s.nextAnswer .isr) = none :=
      Option.eq_none_iff_forall_ne_some.2 fun b ht => hno b ⟨hin, hmid, hbound, ht⟩
    obtain ⟨t, hans, _, htrace, _⟩ := hnone hbound htaken
    exact .of_completes hans htrace
  | false =>
    exact .of_completes (hunbound hbound) rfl

/-! ## The branches -/

theorem eventBounded_rx (ht : takes s .rx) : EventBounded s := by
  cases hmem : Memory.byteAt s.hostMem (payloadAddr s.h) with
  | none => exact .inl ⟨_, (refusedHostAccessIsStuck s hmem).2 (.inl ht)⟩
  | some old =>
    obtain ⟨t, hans, _, htrace, _⟩ := eventRxBranch s old ht hmem
    exact .of_completes hans htrace

theorem eventBounded_txOffset (ht : takes s .tx) (hs : s.h.state = .busyAddressingSubphase) : EventBounded s := by
  obtain ⟨t, hans, _, htrace, _⟩ := eventTxOffsetBranch s ht hs
  exact .of_completes hans htrace

theorem eventBounded_txData (ht : takes s .tx) (hs : s.h.state = .busyTransmitting) : EventBounded s := by
  cases hmem : Memory.byteAt s.hostMem (payloadAddr s.h) with
  | none => exact .inl ⟨_, (refusedHostAccessIsStuck s hmem).2 (.inr ⟨ht, hs⟩)⟩
  | some v =>
    obtain ⟨t, hans, _, htrace, _⟩ := eventTxDataBranch s v ht hs hmem
    exact .of_completes hans htrace

theorem eventBounded_cpOffset (ht : takes s .cp) (hs : s.h.state = .busyAddressingSubphase) : EventBounded s := by
  obtain ⟨t, hans, _, htrace, _⟩ := eventCpOffsetBranch s ht hs
  exact .of_completes hans htrace

theorem notification_cases (s : State) (k : CbKind) :
    notification s k = [.notify s.port.inst k (s.h.cb.get k).handler] ∨ notification s k = [] := by
  unfold notification
  split
  · exact .inl rfl
  · exact .inr rfl

theorem eventBounded_endsWith {k : CbKind} (h : endsWith s k) (hb : s.script.bodies = []) : EventBounded s := by
  obtain ⟨t, hans, _, htrace, _⟩ := h.exists_eventLeaves (.inl (Script.nextBody_nil hb))
  rcases notification_cases s k with hnotice | hnotice <;> rw [quietAccesses, hnotice, terminateAccesses] at htrace
  · exact .of_completes hans htrace
  · exact .of_completes hans htrace

theorem eventBounded_takes {b : Branch} (ht : takes s b) (hb : s.script.bodies = []) : EventBounded s := by
  have ⟨_, _, _, htaken⟩ := ht
  have happ := applicable_of_takenBranch htaken
  cases b with
  | nack => exact eventBounded_endsWith (.inl ⟨ht, rfl⟩) hb
  | rx => exact eventBounded_rx ht
  | tx =>
    rcases (applicable_tx_iff s.h).1 happ with ⟨hs, _⟩ | ⟨_, hs, _⟩
    · exact eventBounded_txOffset ht hs
    · exact eventBounded_txData ht hs
  | cp =>
    by_cases hs : s.h.state = .busyAddressingSubphase
    · exact eventBounded_cpOffset ht hs
    · obtain ⟨k, hk⟩ := completionKind_of_async (async_of_cp happ)
      exact eventBounded_endsWith (.inr ⟨ht, hs, hk⟩) hb

/-- Settles O41: each branch makes the accesses it names, once each, and only a payload byte's can be stuck. -/
theorem eventIsBounded : Obligations.EventIsBounded := by
  intro s hb
  cases hbusy : s.inBody s.port.inst || s.midEvent s.port.inst with
  | true => exact eventBounded_nested hbusy
  | false =>
    obtain ⟨hin, hmid⟩ := Bool.or_eq_false_iff.1 hbusy
    by_cases hno : ∀ b, ¬ takes s b
    · exact eventBounded_free hin hmid hno
    · obtain ⟨b, ht⟩ : ∃ b, takes s b := by simpa using hno
      exact eventBounded_takes ht hb

end Sys2Proof.Machine
end

section
/-! PROOFS. 60_exceptions.md R210, R203: EVENT issued by the callback body of an EVENT of the same instance. -/

namespace Sys2Proof.Machine

variable {s u : State} {k : CbKind}

/-- The end of a branch looks at no refusal mark. -/
theorem BranchDone.marked {items : List TraceItem} (h : BranchDone s k items u) : BranchDone s k items { u with refusalMark := true } :=
  ⟨h.handle, h.cr1, h.trace, h.outside, h.memory, h.waits⟩

/-- The state in which Terminate comes, after the body's own EVENT was refused. -/
def State.nestedRefused (s : State) (k : CbKind) : State :=
  { s.bodyDone k [.refused s.port.inst .nestedEvent] with refusalMark := true }

/-- The body runs inside the EVENT of the instance it delivers its own to, so that one is refused; then the body is done. -/
theorem exec_event_nested (h : callsBack s k) (hn : s.port.inst < s.params.nInst)
    (hbody : s.script.nextBody = [.command s.port.inst [0x00000008]]) :
    exec .event s = (finishEvent (s.nestedRefused k)).runCallbacks := by
  have hends : endsWith s k := h.1
  obtain ⟨_, _, hmid, _⟩ := hends.exists_takes
  have hcalls : (bodyStart s k [.command s.port.inst [0x00000008]]).calls
      = { port := s.port, body := [.command s.port.inst [0x00000008]] } :: s.calls := rfl
  have hdecode : decodeCommand [0x00000008] = .ok .event := decodeCommand_encode (i := .event) rfl
  have hinside : ∃ r ∈ (bodyStart s k [.command s.port.inst [0x00000008]]).calls, r.port.inst = s.port.inst :=
    ⟨_, List.mem_cons_self, rfl⟩
  rw [exec_event_callsBack h, hbody,
    State.runCallbacks_nestedEvent hcalls (by rwa [midEvent_bodyStart]) (by rwa [bodyStart_params]) hdecode hinside]
  exact State.runCallbacks_done rfl

/-- Settles O42: the refusal writes the mark and the trace only, and the EVENT ends as one with a body that does nothing. -/
theorem nestedEventRefused : Obligations.NestedEventRefused := by
  intro s k h hn hbody
  have hflight : s.h.state ≠ .ready := h.1.state_ne_ready
  have hdone := (s.bodyDone_branchDone k [.refused s.port.inst .nestedEvent]).marked
  obtain ⟨hout, hmem, hcalls⟩ := hdone.finish_frame
  have hans := eventAnswers_of_calls (exec_event_nested h hn hbody) hout.calls
  refine ⟨_, hans, hdone.finish_handle hflight, ?_, rfl, hout, hmem, hcalls⟩
  rw [State.nestedRefused, hdone.finish_trace, ← List.append_assoc s.trace]

end Sys2Proof.Machine
end

section
/-! PROOFS. 60_exceptions.md R203, 00_scope.md R8: no step clears the refusal mark or writes a parameter. -/

namespace Sys2Proof.Machine

/-- A set refusal mark is still set, and the parameters are the same. -/
structure MarkStays (s t : State) : Prop where
  mark : s.refusalMark = true → t.refusalMark = true
  params : t.params = s.params

namespace MarkStays

variable {s t u : State}

/-- An update that writes neither; the updates of the model are definitionally such, but for `refuse`. -/
theorem of_eq (hmark : t.refusalMark = s.refusalMark := by rfl) (hparams : t.params = s.params := by rfl) : MarkStays s t :=
  ⟨hmark.trans, hparams⟩

theorem trans (a : MarkStays s t) (b : MarkStays t u) : MarkStays s u := ⟨b.mark ∘ a.mark, b.params.trans a.params⟩

theorem refuse (s : State) (why : RefuseReason) : MarkStays s (s.refuse why) := ⟨fun _ => rfl, rfl⟩

/-! ## Commands -/

theorem afterCheckIdle (s : State) : MarkStays s s.afterCheckIdle := by
  obtain ⟨_, _, hmark, ⟨hparams, _⟩, _⟩ := s.afterCheckIdle_frame
  exact of_eq hmark hparams

theorem arm (op : Operation) (dev : BitVec 7) (reg : Word) (w : BitVec 3) (buf : Word) (len : BitVec 8) (s : State) :
    MarkStays s (s.arm op dev reg w buf len) := by
  obtain ⟨_, ⟨hparams, _⟩, _, hmark, _⟩ := State.arm_frame op dev reg w buf len s
  exact of_eq hmark hparams

theorem asyncStart (op : Operation) (dev : BitVec 7) (reg : Word) (w : BitVec 3) (buf : Word) (len : BitVec 8) (s : State) :
    MarkStays s (s.asyncStart op dev reg w buf len) :=
  (arm op dev reg w buf len s).trans of_eq

theorem blkStart (op : Operation) (dev : BitVec 7) (buf : Word) (len : BitVec 8) (s : State) :
    MarkStays s (s.blkStart op dev buf len) :=
  (arm op dev 0 0 buf len s).trans (of_eq (State.noteCall_refusalMark _) (State.noteCall_params _))

theorem transfer {ok : Bool} {buf : Word} {len : BitVec 8} {start : State → State} (hstart : ∀ u, MarkStays u (start u)) :
    MarkStays s (transfer ok buf len start s) := by
  have hchecked := afterCheckIdle s
  rcases transfer_cases ok buf len start s with ⟨_, e⟩ | ⟨_, _, e⟩ | ⟨_, _, _, e⟩ | ⟨_, _, _, _, e⟩ | ⟨_, _, _, _, e⟩ <;> rw [e]
  · exact refuse s _
  · exact refuse s _
  · exact refuse s _
  · exact hchecked.trans of_eq
  · exact hchecked.trans (hstart _)

theorem execInit {p : BitVec 8} (e : execInit p s = .next t) : MarkStays s t := by
  unfold Machine.execInit at e
  split at e <;> cases e
  · exact refuse s _
  · exact of_eq

theorem execSetcb {k : CbKind} {inst en : Bool} {hd : Word} (e : execSetcb k inst en hd s = .next t) : MarkStays s t := by
  unfold Machine.execSetcb at e
  split at e
  · cases e; exact refuse s _
  · split at e <;> cases e
    · exact refuse s _
    · exact of_eq

/-! ## The dispatcher -/

theorem finishEvent (s : State) : MarkStays s (finishEvent s) := of_eq

theorem notify (k : CbKind) (s : State) : MarkStays s (notify k s) := by
  unfold Machine.notify
  split
  · exact of_eq
  · exact finishEvent s

theorem runBranch {b : Branch} (e : runBranch b s = .next t) : MarkStays s t := by
  cases b with
  | nack =>
    cases e
    exact trans of_eq (notify _ _)
  | rx =>
    obtain ⟨x, hx, e⟩ := andThen_eq_next.1 e
    obtain ⟨_, rfl⟩ := memWrite_eq_next.1 hx
    cases e
    exact of_eq
  | tx =>
    simp only [Machine.runBranch] at e
    split at e
    · cases e; exact of_eq
    · obtain ⟨v, _, e⟩ := memRead_eq_next.1 e
      cases e
      exact of_eq
  | cp =>
    simp only [Machine.runBranch] at e
    split at e <;> cases e
    · exact of_eq
    · unfold cpDataBranch
      split
      · exact trans of_eq (finishEvent _)
      · exact trans of_eq (notify _ _)

theorem eventStep (e : eventStep s = .next t) : MarkStays s t := by
  unfold Machine.eventStep at e
  split at e
  · cases e; exact refuse s _
  · split at e
    · cases e; exact of_eq
    · unfold eventOn at e
      split at e
      · cases e; exact of_eq
      · exact trans of_eq (runBranch e)

theorem nestedExec {i : Instr} (e : nestedExec i s = .next t) : MarkStays s t := by
  cases i with
  | init p => exact execInit e
  | setcb k inst en hd => exact execSetcb e
  | write d b l => cases e; exact transfer (blkStart _ _ _ _)
  | read d b l => cases e; exact transfer (blkStart _ _ _ _)
  | writea d b l => cases e; exact transfer (asyncStart _ _ _ _ _ _)
  | reada d b l => cases e; exact transfer (asyncStart _ _ _ _ _ _)
  | memwra d r w b l => cases e; exact transfer (asyncStart _ _ _ _ _ _)
  | memrda d r w b l => cases e; exact transfer (asyncStart _ _ _ _ _ _)
  | event => exact eventStep e

/-! ## Callback bodies -/

theorem waitIfArmed (before : BlkStage) (s : State) : MarkStays s (s.waitIfArmed before) := by
  unfold State.waitIfArmed
  split
  · exact of_eq
  · exact of_eq

theorem bodyStep {x : BodyStep} (e : bodyStep x s = .next t) : MarkStays s t := by
  cases x with
  | command n ws =>
    simp only [Machine.bodyStep, bodyCommand] at e
    split at e
    · split at e
      · cases e; exact trans of_eq (refuse (s.nested n) _)
      · obtain ⟨u, hu, e⟩ := andThen_eq_next.1 e
        cases e
        have hcommand : MarkStays (s.nested n) u := nestedExec hu
        exact trans of_eq (hcommand.trans (waitIfArmed _ u))
    · cases e
  | hostStore a v => cases e; exact of_eq
  | hostRelease a => cases e; exact of_eq
  | neverReturns => cases e

theorem runCalls (fuel : Nat) (e : runCalls fuel s = .next t) : MarkStays s t := by
  induction fuel generalizing s with
  | zero => cases e
  | succ fuel ih =>
    simp only [Machine.runCalls] at e
    split at e
    · cases e; exact of_eq
    · rename_i r rest _
      split at e
      · exact trans of_eq (ih e)
      · rename_i x left _
        split at e
        · cases e; exact of_eq
        · obtain ⟨u, hu, e⟩ := andThen_eq_next.1 e
          have hbody : MarkStays (s.popped r.port left rest) u := bodyStep hu
          exact trans of_eq (hbody.trans (ih e))

theorem exec {i : Instr} (e : exec i s = .next t) : MarkStays s t := by
  by_cases hi : i = .event
  · subst hi
    obtain ⟨u, hu, e⟩ := andThen_eq_next.1 e
    exact (eventStep hu).trans (runCalls _ e)
  · exact nestedExec (exec_eq_nestedExec hi s ▸ e)

/-! ## Polls -/

theorem pollByte (e : pollByte s = .next t) : MarkStays s t := by
  unfold Machine.pollByte at e
  split at e
  · obtain ⟨v, _, e⟩ := memRead_eq_next.1 e
    cases e
    exact of_eq
  · obtain ⟨u, hu, e⟩ := andThen_eq_next.1 e
    obtain ⟨_, rfl⟩ := memWrite_eq_next.1 hu
    cases e
    exact of_eq

theorem pollOn {v : Word} (e : pollOn v s = .next t) : MarkStays s t := by
  rcases pollOn_cases v s with ⟨_, hp⟩ | ⟨_, _, _, hp⟩ | ⟨_, _, _, hp⟩ | ⟨_, _, hp⟩ | ⟨_, _, hp⟩ <;> rw [hp] at e
  case inr.inl => exact pollByte e
  all_goals
    cases e
    exact of_eq

theorem pollInstance {n : Nat} (e : pollInstance n s = .next t) : MarkStays s t := by
  unfold Machine.pollInstance at e
  split at e
  · unfold blkPoll at e
    split at e
    · cases e; exact of_eq
    · exact trans of_eq (pollOn e)
  · cases e

/-! ## Steps of the agents -/

theorem deliver {a : Agent} {n : Nat} {ws : List Word} (e : deliver a n ws s = .next t) : MarkStays s t := by
  unfold Machine.deliver at e
  split at e
  · split at e
    · exact trans of_eq (exec e)
    · cases e; exact trans of_eq (refuse { s with port := { inst := n, agent := a } } _)
  · cases e

theorem bodyTurn {k : Nat} (e : bodyTurn k s = .next t) : MarkStays s t := by
  unfold Machine.bodyTurn at e
  split at e
  · cases e; exact of_eq
  · split at e
    · exact pollInstance e
    · exact trans of_eq (runCalls _ e)

theorem idleStep (e : idleStep s = .next t) : MarkStays s t := by
  unfold Machine.idleStep at e
  split at e
  · exact bodyTurn e
  · split at e
    · exact pollInstance e
    · cases e; exact of_eq

theorem offer {a : Agent} {n : Nat} {ws : List Word} {rest : List Input} (e : offer a n ws rest s = .next t) : MarkStays s t := by
  unfold Machine.offer at e
  split at e
  · exact bodyTurn e
  · exact trans of_eq (deliver e)

/-- The model's choice (entry 10): power-on of one instance keeps the mark. -/
theorem powerOnInstance {n : Nat} (e : powerOnInstance n s = .next t) : MarkStays s t := by
  unfold Machine.powerOnInstance at e
  split at e <;> cases e
  exact of_eq

/-- By the first entry of the inbox, its kinds in the order of `Input`. -/
theorem step (e : Machine.step s = .next t) : MarkStays s t := by
  unfold Machine.step takeInput at e
  split at e
  · exact idleStep e
  · split at e
    · exact pollInstance e
    · exact offer e
  · exact offer e
  · exact trans of_eq (pollInstance e)
  · exact trans of_eq (bodyTurn e)
  · cases e; exact of_eq
  · cases e; exact of_eq
  · exact trans of_eq (powerOnInstance e)

end MarkStays

/-- Settles O54: every operation keeps a set mark and the parameters; that the trace only grows is part of what the register views follow. -/
theorem stepOnlyAdds : Obligations.StepOnlyAdds := by
  intro s t e
  have hstays := MarkStays.step e
  obtain ⟨l, hl, _⟩ := viewsAreWhatAccessesLeave s t e
  exact ⟨hstays.mark, ⟨l, hl⟩, hstays.params⟩

end Sys2Proof.Machine
end

section
/-! PROOFS. 70_reset_and_hazards.md R230: the machine at power-on, and power-on of one instance during a run, which ends the waits for that
instance and drops the callback bodies of its EVENTs (entry 10). -/

namespace Sys2Proof.Machine

variable {s : State}

/-! ## The machine at power-on -/

theorem State.handleAt_reset (n : Nat) : State.reset.handleAt n = Handle.powerOn := rfl

/-- No step is placed, no body waits and no instance has a transfer in progress: the block waits for a command. -/
theorem step_reset : step State.reset = .next State.reset :=
  (step_of_inbox_nil rfl).trans (idleStep_waits rfl rfl)

/-- Settles O49: every handle is read as at power-on, since reset writes none; nothing is in progress, so the step of the idle machine
changes nothing. -/
theorem powerOnState : Obligations.PowerOnState :=
  ⟨State.handleAt_reset, rfl, rfl, rfl, rfl, rfl, step_reset⟩

/-! ## Bodies that wait, without those of an instance -/

@[simp] theorem Waiting.waits_without (n : Nat) (w : Waiting) : (w.without n).waits = w.waits := rfl

/-- No body of an EVENT of the instance is left. -/
theorem Waiting.holds_without (n : Nat) (w : Waiting) : (w.without n).holds n = false := by
  simp [Waiting.holds, Waiting.without]

/-- Bodies of other instances only are as before. -/
theorem Waiting.without_other {n : Nat} {w : Waiting} (h : ∀ r ∈ w.runs, r.port.inst ≠ n) : w.without n = w := by
  have hruns : w.runs.filter (fun r => r.port.inst != n) = w.runs := List.filter_eq_self.2 fun r hr => bne_iff_ne.2 (h r hr)
  rw [Waiting.without, hruns]

theorem State.mem_suspended_endCall {n : Nat} {w : Waiting} : w ∈ (s.endCall n).suspended ↔ ∃ v ∈ s.suspended, v.ended n = w :=
  List.mem_map

/-- The bodies left waiting: those that waited, thinned out, where any is left of them. -/
theorem State.mem_suspended_dropBodies {n : Nat} {w : Waiting} :
    w ∈ (s.dropBodies n).suspended ↔ (∃ v ∈ s.suspended, v.without n = w) ∧ w.runs ≠ [] := by
  simp [State.dropBodies]

/-- No EVENT of the instance is in progress. -/
theorem State.midEvent_dropBodies (s : State) (n : Nat) : (s.dropBodies n).midEvent n = false := by
  refine List.any_eq_false.2 fun w hw => ?_
  obtain ⟨⟨v, _, rfl⟩, _⟩ := State.mem_suspended_dropBodies.1 hw
  rw [Waiting.holds_without]
  exact Bool.false_ne_true

@[simp] theorem State.handleAt_dropBodies (s : State) (n m : Nat) : (s.dropBodies n).handleAt m = s.handleAt m := rfl

/-! ## Power-on of one instance -/

/-- The machine after power-on of an instance. -/
def State.poweredOn (n : Nat) (s : State) : State := ((s.setHandleAt n Handle.powerOn).endCall n).dropBodies n

theorem powerOnInstance_eq {n : Nat} (h : n < s.params.nInst) : powerOnInstance n s = .next (s.poweredOn n) :=
  if_pos h

namespace State

theorem handleAt_poweredOn (s : State) (n m : Nat) :
    (s.poweredOn n).handleAt m = if n = m then Handle.powerOn else s.handleAt m := by
  simp [poweredOn]

theorem mem_suspended_poweredOn {n : Nat} {w : Waiting} :
    w ∈ (s.poweredOn n).suspended ↔ (∃ v ∈ s.suspended, (v.ended n).without n = w) ∧ w.runs ≠ [] := by
  simp only [poweredOn, mem_suspended_dropBodies, mem_suspended_endCall, exists_exists_and_eq_and]
  rfl

/-- Nobody waits for a transfer of the instance. -/
theorem poweredOn_waits {n : Nat} {w : Waiting} (hw : w ∈ (s.poweredOn n).suspended) : w.waits ≠ some n := by
  obtain ⟨⟨v, _, rfl⟩, _⟩ := mem_suspended_poweredOn.1 hw
  rw [Waiting.waits_without]
  exact Waiting.ended_waits n v

/-- Bodies that have to do with other instances only go on waiting as before. -/
theorem poweredOn_keeps {n : Nat} {w : Waiting} (hw : w ∈ s.suspended) (hwaits : w.waits ≠ some n) (hruns : w.runs ≠ [])
    (hother : ∀ r ∈ w.runs, r.port.inst ≠ n) : w ∈ (s.poweredOn n).suspended :=
  mem_suspended_poweredOn.2 ⟨⟨w, hw, by rw [Waiting.ended_other hwaits, Waiting.without_other hother]⟩, hruns⟩

end State

/-- Settles O50: the step is `State.poweredOn`, which writes one handle and takes from the bodies that wait what has to do with that
instance. -/
theorem powerOnStepResetsOneInstance : Obligations.PowerOnStepResetsOneInstance := by
  intro s n rest hi hn
  refine ⟨State.poweredOn n { s with inbox := rest }, (step_of_powerOn hi).trans (powerOnInstance_eq hn), ?_, fun m hm => ?_, rfl,
    State.midEvent_dropBodies _ n, fun _ => State.poweredOn_waits, fun _ => State.poweredOn_keeps, rfl, rfl, fun _ => rfl, rfl, rfl⟩
  · rw [State.handleAt_poweredOn, if_pos rfl]
  · rw [State.handleAt_poweredOn, if_neg hm.symm]
    rfl

end Sys2Proof.Machine
end
